-- ==== Sys2Proof/Word.lean ====
section
/-! DEFINITION. The word types of the block: bytes, packets, the unsigned and signed integers of the wire, and the 64 bits
of a scaled value (spec/00_scope.md R8, R10, R14). -/

namespace Sys2Proof

/-- A byte: 8 bits, an unsigned value 0 to 255 (R8, R71). -/
abbrev Byte := BitVec 8

/-- A packet `P`: a finite sequence of bytes, of any length, offset 0 first (R8, R70, R72). -/
abbrev Packet := List Byte

/-- Unsigned wire integers (R10). -/
abbrev U8 := BitVec 8

/-- Unsigned 16-bit wire integer (R10). -/
abbrev U16 := BitVec 16

/-- Unsigned 32-bit wire integer (R10). -/
abbrev U32 := BitVec 32

/-- Unsigned 64-bit wire integer (R10). -/
abbrev U64 := BitVec 64

/-- The 16 bits of a signed wire integer; `s16` of R10 reads them in two's complement, as `BitVec.toInt` does
(PRESUMED, log entry 2). -/
abbrev I16 := BitVec 16

/-- The 64 bits of an IEEE 754 binary64 value, the type `f64` of every scaled field (R14; log entry 1). -/
abbrev F64 := BitVec 64

end Sys2Proof
end

