-- ==== Sys2Proof/Config.lean ====
section
/-! DEFINITION. The configuration record `CFG` (spec/00_scope.md R7, spec/10_state.md R37). It holds no free value: the spec
leaves no result of an instruction undefined. -/

namespace Sys2Proof

/-- `CFG.EMIT_MODE` (R7, R37, R148). -/
inductive EmitMode where
  /-- Code 0: every Event Report goes to the Aggregator. -/
  | aggregated
  /-- Code 1: an Event Report is published on arrival or suppressed. -/
  | immediate
  deriving DecidableEq, Repr

/-- A bound that may be absent: the type of `CFG.BATCH_CAP` and `CFG.MAX_PKT_LEN` (R7). -/
inductive Limit where
  | unbounded
  | finite (n : Nat)
  deriving DecidableEq, Repr

/-- The configuration record `CFG`. The defaults are those of R7 and R37. -/
structure Cfg where
  /-- `CFG.EMIT_MODE` -/
  emitMode : EmitMode := .aggregated
  /-- `CFG.BATCH_CAP`: capacity of each buffer in Event Reports -/
  batchCap : Limit := .unbounded
  /-- `CFG.MAX_PKT_LEN`: longest packet the ingress port carries -/
  maxPktLen : Limit := .unbounded
  deriving DecidableEq, Repr

end Sys2Proof
end

