-- ==== Sys2Proof/Syntax.lean ====
section
/-! DEFINITION. The instruction set: the six packet types, each with the raw wire fields of its layouts
(spec/30_encoding.md R100 to R105). Field names are the wire names of the layouts. -/

namespace Sys2Proof

/-- The Header Type, the classifier's result (R17, R105, R108). -/
inductive HeaderType where
  | status | far0 | far1 | near0 | near1 | near2
  deriving DecidableEq, Repr

/-- The Header Types that an Event Report can carry (10_state.md R39: one of Far0, Far1, Near0, Near1, Near2). -/
inductive EventType where
  | far0 | far1 | near0 | near1 | near2
  deriving DecidableEq, Repr

/-- The category of an event packet, and the name of its batch buffer (10_state.md R43). -/
inductive Category where
  | far | near
  deriving DecidableEq, Repr

/-- The header bytes after the magic, which no rule examines (R101). -/
structure HeaderRest where
  /-- Packet bytes [4:8], the end-to-end length field. -/
  e2eLen : List Byte
  /-- Packet bytes [8:16]. -/
  unexamined : List Byte
  deriving DecidableEq, Repr

/-- Layout S, the 97-byte status payload, field by field in wire order (R102). -/
structure StatusWire where
  crc : U16
  len : U16
  sqc : U8
  partNumber : U64
  assemblyPartNumber : U64
  swPartNumber : U64
  /-- 26 opaque bytes in wire order (R112). -/
  serialNumber : List Byte
  blVersion1 : U8
  blVersion2 : U8
  blVersion3 : U8
  blCrc : U32
  swVersion1 : U8
  swVersion2 : U8
  swVersion3 : U8
  swCrc : U32
  utcTimeStamp : U64
  timeStamp : U32
  currentDamping : U32
  opState : U8
  currentFarCF : U8
  currentNearCF : U8
  defective : U8
  supplyVoltLimit : U8
  sensorOffTemp : U8
  gmMissing : U8
  txOutReduced : U8
  maximumRangeFar : U16
  maximumRangeNear : U16
  deriving DecidableEq, Repr

/-- Layout E, the 32-byte event header (R103). -/
structure EventWire where
  crc : U16
  len : U16
  sqc : U8
  messageCounter : U8
  utcTimeStamp : U64
  timeStamp : U32
  measureCounter : U32
  cycleCounter : U32
  nofDetections : U16
  vambig : I16
  centerFrequency : U8
  detectionsInPacket : U8
  deriving DecidableEq, Repr

/-- Layout D, one 28-byte detection chunk (R104). -/
structure ChunkWire where
  range : U16
  vrelRad : I16
  azAng0 : I16
  azAng1 : I16
  elAng : I16
  rcs0 : I16
  rcs1 : I16
  prob0 : U8
  prob1 : U8
  rangeVar : U16
  vrelRadVar : U16
  azAngVar0 : U16
  azAngVar1 : U16
  elAngVar : U16
  pdh0 : U8
  snr : U8
  deriving DecidableEq, Repr

/-- The bytes after the header of a STATUS packet: layout S and ignored bytes, or too few bytes for layout S (R170). -/
inductive StatusPayload where
  | full (w : StatusWire) (rest : List Byte)
  | short (bytes : List Byte)
  deriving DecidableEq, Repr

/-- The bytes after the header of an event packet: layout E, the decoded chunks and the ignored bytes after them
(a short final chunk, or bytes beyond the declared count), or too few bytes for layout E (R116, R220). -/
inductive EventPayload where
  | full (w : EventWire) (chunks : List ChunkWire) (rest : List Byte)
  | short (bytes : List Byte)
  deriving DecidableEq, Repr

/-- One packet of one of the six types: one constructor per row of the opcode table (R2, R105). -/
inductive Instr where
  | status (h : HeaderRest) (p : StatusPayload)
  | far0 (h : HeaderRest) (p : EventPayload)
  | far1 (h : HeaderRest) (p : EventPayload)
  | near0 (h : HeaderRest) (p : EventPayload)
  | near1 (h : HeaderRest) (p : EventPayload)
  | near2 (h : HeaderRest) (p : EventPayload)
  deriving DecidableEq, Repr

/-- The Header Type of a packet. -/
def Instr.headerType : Instr → HeaderType
  | .status _ _ => .status
  | .far0 _ _ => .far0
  | .far1 _ _ => .far1
  | .near0 _ _ => .near0
  | .near1 _ _ => .near1
  | .near2 _ _ => .near2

end Sys2Proof
end

