-- ==== Sys2Proof/WellFormed.lean ====
section
/-! DEFINITION. The well-formed instructions: the terms that some byte sequence decodes to (spec/30_encoding.md R101, R102,
R112, R116, spec/43_detection.md R261). -/

namespace Sys2Proof

/-- `[4:8]` is four bytes and `[8:16]` eight (R101). -/
def HeaderRest.wellFormed (h : HeaderRest) : Bool :=
  h.e2eLen.length == 4 && h.unexamined.length == 8

/-- The serial number is 26 bytes (R112). -/
def StatusWire.wellFormed (w : StatusWire) : Bool :=
  w.serialNumber.length == 26

/-- A short payload is shorter than layout S (R170). -/
def StatusPayload.wellFormed : StatusPayload → Bool
  | .full w _ => w.wellFormed
  | .short bytes => bytes.length < 97

/-- The chunk count is what R116 and R261 say: at most the declared count, and either the declared count is reached or
fewer than 28 bytes are left. A short payload is shorter than layout E (R220). -/
def EventPayload.wellFormed : EventPayload → Bool
  | .full w chunks rest =>
    decide (chunks.length ≤ w.detectionsInPacket.toNat) &&
      (chunks.length == w.detectionsInPacket.toNat || decide (rest.length < 28))
  | .short bytes => bytes.length < 32

/-- A well-formed packet. -/
def Instr.wellFormed : Instr → Bool
  | .status h p => h.wellFormed && p.wellFormed
  | .far0 h p | .far1 h p | .near0 h p | .near1 h p | .near2 h p => h.wellFormed && p.wellFormed

end Sys2Proof
end

