-- ==== Sys2Proof/Decode.lean ====
section
/-! DEFINITION. From bytes to instructions and back: the memory primitives of the packet buffer (spec/00_scope.md R11), the
Header Classifier (spec/40_classify_dispatch.md R142, R143), the field layouts (spec/30_encoding.md R101 to R112), and the
encoder written from the same layouts. -/

namespace Sys2Proof

/-- Why a byte sequence is no instruction. -/
inductive DecodeError where
  /-- Fewer than 16 bytes (R142). -/
  | shortHeader
  /-- 16 bytes or more, and the first four are none of the six magics (R114, R156). -/
  | unknownMagic
  /-- A byte at an offset that does not exist was asked for (R11, R76). No packet leads here. -/
  | readPastEnd (addr : Nat)
  deriving DecidableEq, Repr

/-! ## The packet buffer -/

/-- The unsigned big-endian integer that bytes spell (R11, R74). -/
def beNat (bs : List Byte) : Nat :=
  bs.foldl (fun acc b => acc * 256 + b.toNat) 0

/-- The `n` bytes that spell `v`, most significant first (R74). -/
def beBytes : (n v : Nat) → List Byte
  | 0, _ => []
  | n + 1, v => BitVec.ofNat 8 (v / 256 ^ n) :: beBytes n v

/-- `MemBytes(addr, n)` of R11: the bytes unassembled; defined only when `addr + n <= len(P)` (R76). -/
def memBytes (P : Packet) (addr n : Nat) : Except DecodeError (List Byte) :=
  if addr + n ≤ P.length then .ok ((P.drop addr).take n) else .error (.readPastEnd addr)

/-- `MemRead(addr, n)` of R11: the big-endian integer of `n` bytes; defined only when `addr + n <= len(P)` (R76). -/
def memRead (P : Packet) (addr n : Nat) : Except DecodeError Nat :=
  match memBytes P addr n with
  | .ok bs => .ok (beNat bs)
  | .error e => .error e

/-- A field of `n` bytes at a packet offset, with no scaling (R109; the two's complement of R110 is in the field's
reading, not in its bits). -/
def fieldAt (P : Packet) (addr n : Nat) : Except DecodeError (BitVec (8 * n)) :=
  match memRead P addr n with
  | .ok v => .ok (BitVec.ofNat (8 * n) v)
  | .error e => .error e

/-- A u8 field (R109). -/
def u8At (P : Packet) (addr : Nat) : Except DecodeError U8 := fieldAt P addr 1

/-- A u16 field, or the 16 bits of an i16 field (R109, R110). -/
def u16At (P : Packet) (addr : Nat) : Except DecodeError U16 := fieldAt P addr 2

/-- A u32 field (R109). -/
def u32At (P : Packet) (addr : Nat) : Except DecodeError U32 := fieldAt P addr 4

/-- A u64 field (R109). -/
def u64At (P : Packet) (addr : Nat) : Except DecodeError U64 := fieldAt P addr 8

/-! ## The Header Classifier -/

/-- The magic of each Header Type (R105). -/
def HeaderType.magic : HeaderType → U32
  | .status => 0x00C80000#32
  | .far0 => 0x00DC0001#32
  | .far1 => 0x00DC0002#32
  | .near0 => 0x00DC0003#32
  | .near1 => 0x00DC0004#32
  | .near2 => 0x00DC0005#32

/-- The six comparisons of R143, all 32 bits each (R105, R106). -/
def classifyMagic (m : U32) : Option HeaderType :=
  if m = 0x00C80000#32 then some .status
  else if m = 0x00DC0001#32 then some .far0
  else if m = 0x00DC0002#32 then some .far1
  else if m = 0x00DC0003#32 then some .near0
  else if m = 0x00DC0004#32 then some .near1
  else if m = 0x00DC0005#32 then some .near2
  else none

/-- The Header Classifier: the length check of R142, then `Classify(P)` of R143, whose result is `none` for an unknown
magic. -/
def classify (P : Packet) : Except DecodeError (Option HeaderType) := do
  if P.length < 16 then .error .shortHeader
  else
    let m ← u32At P 0
    return classifyMagic m

/-! ## The layouts -/

/-- Layout H after the magic (R101). -/
def decodeHeaderRest (P : Packet) : Except DecodeError HeaderRest := do
  let e2eLen ← memBytes P 4 4
  let unexamined ← memBytes P 8 8
  return { e2eLen, unexamined }

/-- Layout S (R102), read at the packet offsets of R172. -/
def decodeStatusWire (P : Packet) : Except DecodeError StatusWire := do
  let crc ← u16At P 16
  let len ← u16At P 18
  let sqc ← u8At P 20
  let partNumber ← u64At P 21
  let assemblyPartNumber ← u64At P 29
  let swPartNumber ← u64At P 37
  let serialNumber ← memBytes P 45 26
  let blVersion1 ← u8At P 71
  let blVersion2 ← u8At P 72
  let blVersion3 ← u8At P 73
  let blCrc ← u32At P 74
  let swVersion1 ← u8At P 78
  let swVersion2 ← u8At P 79
  let swVersion3 ← u8At P 80
  let swCrc ← u32At P 81
  let utcTimeStamp ← u64At P 85
  let timeStamp ← u32At P 93
  let currentDamping ← u32At P 97
  let opState ← u8At P 101
  let currentFarCF ← u8At P 102
  let currentNearCF ← u8At P 103
  let defective ← u8At P 104
  let supplyVoltLimit ← u8At P 105
  let sensorOffTemp ← u8At P 106
  let gmMissing ← u8At P 107
  let txOutReduced ← u8At P 108
  let maximumRangeFar ← u16At P 109
  let maximumRangeNear ← u16At P 111
  return {
    crc, len, sqc, partNumber, assemblyPartNumber, swPartNumber, serialNumber, blVersion1, blVersion2, blVersion3,
    blCrc, swVersion1, swVersion2, swVersion3, swCrc, utcTimeStamp, timeStamp, currentDamping, opState, currentFarCF,
    currentNearCF, defective, supplyVoltLimit, sensorOffTemp, gmMissing, txOutReduced, maximumRangeFar,
    maximumRangeNear }

/-- Layout E (R103), read at the packet offsets of R222. -/
def decodeEventWire (P : Packet) : Except DecodeError EventWire := do
  let crc ← u16At P 16
  let len ← u16At P 18
  let sqc ← u8At P 20
  let messageCounter ← u8At P 21
  let utcTimeStamp ← u64At P 22
  let timeStamp ← u32At P 30
  let measureCounter ← u32At P 34
  let cycleCounter ← u32At P 38
  let nofDetections ← u16At P 42
  let vambig ← u16At P 44
  let centerFrequency ← u8At P 46
  let detectionsInPacket ← u8At P 47
  return {
    crc, len, sqc, messageCounter, utcTimeStamp, timeStamp, measureCounter, cycleCounter, nofDetections, vambig,
    centerFrequency, detectionsInPacket }

/-- Layout D (R104) of the chunk that starts at packet offset `base`, read at the chunk offsets of R263. -/
def decodeChunkWire (P : Packet) (base : Nat) : Except DecodeError ChunkWire := do
  let range ← u16At P (base + 0)
  let vrelRad ← u16At P (base + 2)
  let azAng0 ← u16At P (base + 4)
  let azAng1 ← u16At P (base + 6)
  let elAng ← u16At P (base + 8)
  let rcs0 ← u16At P (base + 10)
  let rcs1 ← u16At P (base + 12)
  let prob0 ← u8At P (base + 14)
  let prob1 ← u8At P (base + 15)
  let rangeVar ← u16At P (base + 16)
  let vrelRadVar ← u16At P (base + 18)
  let azAngVar0 ← u16At P (base + 20)
  let azAngVar1 ← u16At P (base + 22)
  let elAngVar ← u16At P (base + 24)
  let pdh0 ← u8At P (base + 26)
  let snr ← u8At P (base + 27)
  return {
    range, vrelRad, azAng0, azAng1, elAng, rcs0, rcs1, prob0, prob1, rangeVar, vrelRadVar, azAngVar0, azAngVar1,
    elAngVar, pdh0, snr }

/-- The number of chunks decoded: `min(count, floor(avail / 28))` (R116, R238, R261). -/
def chunkCount (declared avail : Nat) : Nat :=
  min declared (avail / 28)

/-- The chunk loop of R260: `k` chunks from chunk number `j` on, chunk `j` at offset `48 + 28 j` (R104), in wire order
(R283). -/
def decodeChunks (P : Packet) : (j k : Nat) → Except DecodeError (List ChunkWire)
  | _, 0 => .ok []
  | j, k + 1 => do
    let c ← decodeChunkWire P (48 + 28 * j)
    let cs ← decodeChunks P (j + 1) k
    return c :: cs

/-- The payload of a STATUS packet: the length check of R170, then layout S; bytes from 113 on are ignored (R198). -/
def decodeStatusPayload (P : Packet) : Except DecodeError StatusPayload := do
  if P.length - 16 < 97 then return .short (P.drop 16)
  else
    let w ← decodeStatusWire P
    return .full w (P.drop 113)

/-- The payload of an event packet: the length check of R220, layout E, then the chunks; bytes from `48 + 28 k` on are
ignored (R239, R284). -/
def decodeEventPayload (P : Packet) : Except DecodeError EventPayload := do
  if P.length - 16 < 32 then return .short (P.drop 16)
  else
    let w ← decodeEventWire P
    let k := chunkCount w.detectionsInPacket.toNat (P.length - 48)
    let chunks ← decodeChunks P 0 k
    return .full w chunks (P.drop (48 + 28 * k))

/-- The decoder, total on any byte sequence (R107): the classifier, then the layouts of the type it found. -/
def decode (P : Packet) : Except DecodeError Instr := do
  match ← classify P with
  | none => .error .unknownMagic
  | some t =>
    let h ← decodeHeaderRest P
    match t with
    | .status => return .status h (← decodeStatusPayload P)
    | .far0 => return .far0 h (← decodeEventPayload P)
    | .far1 => return .far1 h (← decodeEventPayload P)
    | .near0 => return .near0 h (← decodeEventPayload P)
    | .near1 => return .near1 h (← decodeEventPayload P)
    | .near2 => return .near2 h (← decodeEventPayload P)

/-! ## The encoder -/

/-- Layout H (R101): the magic, big-endian, then the twelve bytes no rule examines. -/
def encodeHeader (t : HeaderType) (h : HeaderRest) : Packet :=
  beBytes 4 t.magic.toNat ++ (h.e2eLen ++ h.unexamined)

/-- Layout S (R102), in wire order and without padding. -/
def encodeStatusWire (w : StatusWire) : List Byte :=
  beBytes 2 w.crc.toNat ++ (beBytes 2 w.len.toNat ++ (beBytes 1 w.sqc.toNat ++ (beBytes 8 w.partNumber.toNat ++
  (beBytes 8 w.assemblyPartNumber.toNat ++ (beBytes 8 w.swPartNumber.toNat ++ (w.serialNumber ++
  (beBytes 1 w.blVersion1.toNat ++ (beBytes 1 w.blVersion2.toNat ++ (beBytes 1 w.blVersion3.toNat ++
  (beBytes 4 w.blCrc.toNat ++ (beBytes 1 w.swVersion1.toNat ++ (beBytes 1 w.swVersion2.toNat ++
  (beBytes 1 w.swVersion3.toNat ++ (beBytes 4 w.swCrc.toNat ++ (beBytes 8 w.utcTimeStamp.toNat ++
  (beBytes 4 w.timeStamp.toNat ++ (beBytes 4 w.currentDamping.toNat ++ (beBytes 1 w.opState.toNat ++
  (beBytes 1 w.currentFarCF.toNat ++ (beBytes 1 w.currentNearCF.toNat ++ (beBytes 1 w.defective.toNat ++
  (beBytes 1 w.supplyVoltLimit.toNat ++ (beBytes 1 w.sensorOffTemp.toNat ++ (beBytes 1 w.gmMissing.toNat ++
  (beBytes 1 w.txOutReduced.toNat ++ (beBytes 2 w.maximumRangeFar.toNat ++
  beBytes 2 w.maximumRangeNear.toNat))))))))))))))))))))))))))

/-- Layout E (R103), in wire order and without padding. -/
def encodeEventWire (w : EventWire) : List Byte :=
  beBytes 2 w.crc.toNat ++ (beBytes 2 w.len.toNat ++ (beBytes 1 w.sqc.toNat ++ (beBytes 1 w.messageCounter.toNat ++
  (beBytes 8 w.utcTimeStamp.toNat ++ (beBytes 4 w.timeStamp.toNat ++ (beBytes 4 w.measureCounter.toNat ++
  (beBytes 4 w.cycleCounter.toNat ++ (beBytes 2 w.nofDetections.toNat ++ (beBytes 2 w.vambig.toNat ++
  (beBytes 1 w.centerFrequency.toNat ++ beBytes 1 w.detectionsInPacket.toNat))))))))))

/-- Layout D (R104), in wire order and without padding. -/
def encodeChunkWire (c : ChunkWire) : List Byte :=
  beBytes 2 c.range.toNat ++ (beBytes 2 c.vrelRad.toNat ++ (beBytes 2 c.azAng0.toNat ++ (beBytes 2 c.azAng1.toNat ++
  (beBytes 2 c.elAng.toNat ++ (beBytes 2 c.rcs0.toNat ++ (beBytes 2 c.rcs1.toNat ++ (beBytes 1 c.prob0.toNat ++
  (beBytes 1 c.prob1.toNat ++ (beBytes 2 c.rangeVar.toNat ++ (beBytes 2 c.vrelRadVar.toNat ++
  (beBytes 2 c.azAngVar0.toNat ++ (beBytes 2 c.azAngVar1.toNat ++ (beBytes 2 c.elAngVar.toNat ++
  (beBytes 1 c.pdh0.toNat ++ beBytes 1 c.snr.toNat))))))))))))))

/-- Consecutive chunks (R104, R261). -/
def encodeChunks : List ChunkWire → List Byte
  | [] => []
  | c :: cs => encodeChunkWire c ++ encodeChunks cs

/-- A STATUS payload (R100, R102). -/
def encodeStatusPayload : StatusPayload → List Byte
  | .full w rest => encodeStatusWire w ++ rest
  | .short bytes => bytes

/-- An event payload (R100, R103, R104). -/
def encodeEventPayload : EventPayload → List Byte
  | .full w chunks rest => encodeEventWire w ++ (encodeChunks chunks ++ rest)
  | .short bytes => bytes

/-- The bytes of a packet: layout H, then the payload (R100). -/
def encode : Instr → Packet
  | .status h p => encodeHeader .status h ++ encodeStatusPayload p
  | .far0 h p => encodeHeader .far0 h ++ encodeEventPayload p
  | .far1 h p => encodeHeader .far1 h ++ encodeEventPayload p
  | .near0 h p => encodeHeader .near0 h ++ encodeEventPayload p
  | .near1 h p => encodeHeader .near1 h ++ encodeEventPayload p
  | .near2 h p => encodeHeader .near2 h ++ encodeEventPayload p

/-! ## Lengths and the parse cursor -/

/-- The number of payload bytes of a STATUS packet (R145, R102). -/
def StatusPayload.length : StatusPayload → Nat
  | .full _ rest => 97 + rest.length
  | .short bytes => bytes.length

/-- The number of payload bytes of an event packet (R145, R103, R104). -/
def EventPayload.length : EventPayload → Nat
  | .full _ chunks rest => 32 + (28 * chunks.length + rest.length)
  | .short bytes => bytes.length

/-- `len(P)` of a packet. -/
def Instr.length : Instr → Nat
  | .status _ p => 16 + p.length
  | .far0 _ p | .far1 _ p | .near0 _ p | .near1 _ p | .near2 _ p => 16 + p.length

/-- Where the parse cursor `cur` stands when the payload has been read (R35): no state, only the offset after the last
byte that a rule reads. A short payload is not read (R170, R220). -/
def Instr.cursor : Instr → Nat
  | .status _ (.full _ _) => 113
  | .status _ (.short _) => 16
  | .far0 _ p | .far1 _ p | .near0 _ p | .near1 _ p | .near2 _ p =>
    match p with
    | .full _ chunks _ => 48 + 28 * chunks.length
    | .short _ => 16

/-! ## One row of the opcode table as a packet -/

/-- The packet whose 32-bit big-endian words are those of `w` (word 0 in bits 31 to 0, word 1 in bits 63 to 32, and so
on; spec/opcode_table.json numbers a word as `MemRead` reads it, R119), zero above `nbits`, and 113 bytes long: the longest
of the fixed layouts, so that no row is cut short (log entry 16). -/
def tableWordPacket (nbits w : Nat) : Packet :=
  (List.range (max 113 (nbits / 8))).map fun k =>
    BitVec.ofNat 8 ((w % 2 ^ nbits) >>> (32 * (k / 4) + 8 * (3 - k % 4)))

/-- The instruction that the decoder reads from a word of the opcode table. -/
def decodeTableWord (nbits w : Nat) : Option Instr :=
  match decode (tableWordPacket nbits w) with
  | .ok i => some i
  | .error _ => none

end Sys2Proof
end

