-- ==== Sys2Proof/Machine/State.lean ====
section
/-! DEFINITION. The records, the two batch buffers, the result of a step, and the machine's state with its reset values
(spec/10_state.md). -/

namespace Sys2Proof.Machine

/-! ## Records -/

/-- The Status Report `ST` (R38, R171): 24 fields, the three scaled ones beside their raw integer. -/
structure StatusReport where
  crc : U16
  len : U16
  sqc : U8
  partNumber : U64
  assemblyPartNumber : U64
  swPartNumber : U64
  /-- 26 bytes in wire order, opaque. -/
  serialNumber : List Byte
  /-- Assembled from three bytes; bits [31:24] are 0. -/
  blVersion : U32
  blCrc : U32
  /-- Assembled from three bytes; bits [31:24] are 0. -/
  swVersion : U32
  swCrc : U32
  /-- Nanoseconds. -/
  utcTimestamp : U64
  /-- Microseconds. -/
  timestamp : U32
  currentDampingRaw : U32
  /-- dB. -/
  currentDamping : F64
  opState : U8
  currentFarCF : U8
  currentNearCF : U8
  defective : U8
  supplyVoltLimit : U8
  sensorOffTemp : U8
  gmMissing : U8
  txOutReduced : U8
  maximumRangeFarRaw : U16
  /-- Metres. -/
  maximumRangeFar : F64
  maximumRangeNearRaw : U16
  /-- Metres. -/
  maximumRangeNear : F64
  deriving DecidableEq, Repr

/-- A Detection `DET` (R40, R262): each of the sixteen fields as raw integer and scaled. -/
structure Detection where
  rangeRaw : U16
  /-- m -/
  range : F64
  relativeRadialVelocityRaw : I16
  /-- m/s -/
  relativeRadialVelocity : F64
  azimuthalAngle0Raw : I16
  /-- rad -/
  azimuthalAngle0 : F64
  azimuthalAngle1Raw : I16
  /-- rad -/
  azimuthalAngle1 : F64
  elevationAngleRaw : I16
  /-- rad -/
  elevationAngle : F64
  radarCrossSection0Raw : I16
  /-- dBm² -/
  radarCrossSection0 : F64
  radarCrossSection1Raw : I16
  /-- dBm² -/
  radarCrossSection1 : F64
  probabilityAz0Raw : U8
  probabilityAz0 : F64
  probabilityAz1Raw : U8
  probabilityAz1 : F64
  rangeVarianceRaw : U16
  /-- m² -/
  rangeVariance : F64
  radialVelocityVarianceRaw : U16
  /-- (m/s)² -/
  radialVelocityVariance : F64
  az0VarianceRaw : U16
  /-- rad² -/
  az0Variance : F64
  az1VarianceRaw : U16
  /-- rad² -/
  az1Variance : F64
  elAngleVarianceRaw : U16
  /-- rad² -/
  elAngleVariance : F64
  /-- A byte of flags that the document leaves undecoded; no bit has a meaning here (R281). -/
  probabilityFalseDetectionRaw : U8
  probabilityFalseDetection : F64
  snrRaw : U8
  /-- dBr -/
  snr : F64
  deriving DecidableEq, Repr

/-- The Event Report `EV` (R39, R221, R315). -/
structure EventReport where
  crc : U16
  len : U16
  sqc : U8
  messageCounter : U8
  /-- Nanoseconds; not the aggregation key. -/
  utcTimeStamp : U64
  /-- Microseconds; the aggregation key (R228). -/
  timestamp : U32
  measureCounter : U32
  cycleCounter : U32
  nofDetections : U16
  vambigRaw : I16
  /-- m/s -/
  vambig : F64
  /-- GHz -/
  centerFreq : U8
  /-- The declared count, kept even when fewer chunks were decoded (R234, R285). -/
  detectionsInPacket : U8
  /-- Stamped by the step from the header magic (R236). -/
  eventType : EventType
  detectionList : List Detection
  deriving DecidableEq, Repr

/-! ## Buffers -/

/-- A Pending-Batch Buffer (R30). -/
inductive Buf where
  | empty
  /-- The held timestamp and the held reports, oldest first. -/
  | holding (ts : U32) (list : List EventReport)
  deriving DecidableEq, Repr

/-! ## What a step gives to the outside -/

/-- An element of `Out` (R44). -/
inductive Emission where
  | publishStatus (st : StatusReport)
  | publishEvent (ev : EventReport)
  | flushBatch (b : Category) (ts : U32) (list : List EventReport)
  deriving DecidableEq, Repr

/-- `Res.code` (R36, R341). -/
inductive ResCode where
  | ok | malformedHeader | truncatedPacket | batchOverflow
  deriving DecidableEq, Repr

/-- `Res.sub` (R36, R341). -/
inductive ResSub where
  | none | shortHeader | unknownMagic | statusPayload | eventPayload
  deriving DecidableEq, Repr

/-- `Res.action` (R36, R147). -/
inductive ResAction where
  | dropped | statusPublished | eventPublished | eventSuppressed | buffered | flushed
  deriving DecidableEq, Repr

/-- The per-packet result record `Res` (R36). -/
structure Res where
  code : ResCode
  sub : ResSub
  /-- The classifier's result; `none` when there is none. -/
  type : Option HeaderType
  action : ResAction
  countMismatch : Bool
  /-- `len(P)`. -/
  len : Nat
  deriving DecidableEq, Repr

/-- What the block answers one packet with: `(Out, Res)` (R141, R322). -/
structure Transaction where
  out : List Emission
  res : Res
  deriving DecidableEq, Repr

/-- What the outside presents to the block: a packet on `pkt_in`, or a reset between two steps (R141, R382). -/
inductive Input where
  | packet (P : Packet)
  | reset
  deriving DecidableEq, Repr

/-! ## The state -/

/-- The machine's state. `near` and `far` are the whole state of the block (R30). `cfg` is its parameter, constant
(R383; log entry 4). `pktIn` and `egress` are the model's own: what the outside has still to present, and what the block
has answered, both oldest first (log entry 5); the block itself keeps neither (R34, R352). -/
structure State where
  /-- `S.NEAR` -/
  near : Buf
  /-- `S.FAR` -/
  far : Buf
  /-- `CFG` -/
  cfg : Cfg
  /-- The transactions not yet presented. -/
  pktIn : List Input
  /-- The transactions answered. -/
  egress : List Transaction
  deriving DecidableEq, Repr

/-- Why the machine stops. The block itself is never stopped by anything (R340). -/
inductive Fault where
  /-- A packet byte at an offset that does not exist was asked for (R11, R76). Raised by the ingress step if the decoder
  reports it; no packet leads there. Safe: the run stops and no value is made up. -/
  | readPastPacket (addr : Nat)
  deriving DecidableEq, Repr

/-- Why the model gives a step no meaning. -/
inductive Refusal where
  /-- An instruction with no meaning yet, by its mnemonic. Raised by no arm of this model. Safe. -/
  | notModelled (mnemonic : String)
  /-- The pending packet, of this length, is longer than a finite `CFG.MAX_PKT_LEN`, so the ingress port cannot carry it
  (R72). Raised by the ingress step. Safe: nothing is proved past it (log entry 7). -/
  | packetLongerThanPort (len : Nat)
  deriving DecidableEq, Repr

/-- The machine right after reset with the integrator's `CFG` (R47, R380, R384): both buffers `Empty`, nothing pending,
nothing emitted. -/
def State.boot (cfg : Cfg) : State :=
  { near := .empty, far := .empty, cfg := cfg, pktIn := [], egress := [] }

/-- The machine right after reset with the default `CFG` of R7 and R37. -/
def State.reset : State :=
  State.boot {}

end Sys2Proof.Machine
end

