-- ==== Sys2Proof/Machine/Float64.lean ====
section
/-! DEFINITION. IEEE 754 binary64 arithmetic on 64-bit patterns, rounding to nearest with ties to even: the operations
`toF`, `fadd`, `fsub`, `fmul`, `fdiv` of spec/00_scope.md R14 (log entry 1). A finite value is an integer times a power of
two, `significand * 2 ^ scale` units of `2 ^ -1074`. -/

namespace Sys2Proof.Machine

/-! ## The parts of a bit pattern -/

/-- The sign bit. -/
def fSign (x : F64) : Bool := x.msb

/-- The exponent field. -/
def fExpField (x : F64) : Nat := x.toNat / 2 ^ 52 % 2 ^ 11

/-- The fraction field. -/
def fFrac (x : F64) : Nat := x.toNat % 2 ^ 52

/-- Neither infinite nor NaN. -/
def fIsFinite (x : F64) : Bool := fExpField x != 2047

/-- Not a number. -/
def fIsNaN (x : F64) : Bool := fExpField x == 2047 && fFrac x != 0

/-- An infinity. -/
def fIsInf (x : F64) : Bool := fExpField x == 2047 && fFrac x == 0

/-- The integer significand of a finite value, with the hidden bit of a normal one. -/
def fSig (x : F64) : Nat := if fExpField x = 0 then fFrac x else 2 ^ 52 + fFrac x

/-- The power of two, in units of `2 ^ -1074`, by which the significand is multiplied. -/
def fScale (x : F64) : Nat := fExpField x - 1

/-! ## Rounding -/

/-- The magnitude bits of the binary64 nearest to `num / den * 2 ^ x` units, ties to even. It needs `den ≤ num`: the
quotient's own bit length then gives the binade. `e` is the binade's scale, never below that of the subnormal numbers; a
significand that rounds up to the next power of two carries into the exponent field by itself. -/
def roundMag (num den : Nat) (x : Int) : Nat :=
  let e := max 0 ((Nat.log2 (num / den) : Int) + x - 52)
  let t := e - x
  let n := num * 2 ^ (-t).toNat
  let d := den * 2 ^ t.toNat
  let m := n / d
  let r := n % d
  e.toNat * 2 ^ 52 + m + (if 2 * r > d ∨ (2 * r = d ∧ m % 2 = 1) then 1 else 0)

/-- A sign and magnitude bits; a magnitude beyond the largest finite value becomes an infinity. -/
def fPack (neg : Bool) (mag : Nat) : F64 :=
  BitVec.ofNat 64 ((if neg then 2 ^ 63 else 0) + min mag (2047 * 2 ^ 52))

/-- The result of an invalid operation (PRESUMED, log entry 12: the spec gives none, and no rule performs one). -/
def fNaN : F64 := 0x7FF8000000000000#64

/-- A signed zero. -/
def fZero (neg : Bool) : F64 := fPack neg 0

/-- A signed infinity. -/
def fInf (neg : Bool) : F64 := fPack neg (2047 * 2 ^ 52)

/-! ## The operations of R14 -/

/-- `toF(v)`: an integer as binary64; exact for `|v| < 2 ^ 53` (R14). -/
def toF (v : Int) : F64 :=
  if v = 0 then fZero false else fPack (decide (v < 0)) (roundMag v.natAbs 1 1074)

/-- The binary64 nearest to the nonzero integer `v` times `2 ^ scale` units. -/
def fOfScaled (v : Int) (scale : Nat) : F64 :=
  fPack (decide (v < 0)) (roundMag v.natAbs 1 scale)

/-- The significand with its sign. -/
def fSignedSig (x : F64) : Int := if fSign x then -(fSig x : Int) else fSig x

/-- `fadd(a, b)` (R14). A sum that is exactly zero is `+0.0`, unless both operands are negative zeros. -/
def fadd (a b : F64) : F64 :=
  if fIsNaN a || fIsNaN b then fNaN
  else if fIsInf a then (if fIsInf b && fSign a != fSign b then fNaN else a)
  else if fIsInf b then b
  else if fSig a = 0 then (if fSig b = 0 then fZero (fSign a && fSign b) else b)
  else if fSig b = 0 then a
  else
    let scale := min (fScale a) (fScale b)
    let v := fSignedSig a * 2 ^ (fScale a - scale) + fSignedSig b * 2 ^ (fScale b - scale)
    if v = 0 then fZero false else fOfScaled v scale

/-- The value with the opposite sign. -/
def fneg (x : F64) : F64 := x ^^^ 0x8000000000000000#64

/-- `fsub(a, b)` (R14). -/
def fsub (a b : F64) : F64 := if fIsNaN b then fNaN else fadd a (fneg b)

/-- `fmul(a, b)` (R14). -/
def fmul (a b : F64) : F64 :=
  let neg := fSign a != fSign b
  if fIsNaN a || fIsNaN b then fNaN
  else if fIsInf a || fIsInf b then
    if (fIsFinite a && fSig a == 0) || (fIsFinite b && fSig b == 0) then fNaN else fInf neg
  else if fSig a = 0 ∨ fSig b = 0 then fZero neg
  else fPack neg (roundMag (fSig a * fSig b) 1 ((fScale a : Int) + fScale b - 1074))

/-- `fdiv(a, b)` (R14). The dividend's significand is shifted by 110 bits, so that the quotient has more bits than a
significand. -/
def fdiv (a b : F64) : F64 :=
  let neg := fSign a != fSign b
  if fIsNaN a || fIsNaN b then fNaN
  else if fIsInf a then (if fIsInf b then fNaN else fInf neg)
  else if fIsInf b then fZero neg
  else if fSig b = 0 then (if fSig a = 0 then fNaN else fInf neg)
  else if fSig a = 0 then fZero neg
  else fPack neg (roundMag (fSig a * 2 ^ 110) (fSig b) ((fScale a : Int) - fScale b + 1074 - 110))

/-! ## The exact value -/

/-- The exact rational value of a finite pattern (0 for the patterns that are not finite, of which no claim speaks). -/
def fValue (x : F64) : ℚ :=
  if fIsFinite x then (fSignedSig x : ℚ) * 2 ^ fScale x / 2 ^ 1074 else 0

end Sys2Proof.Machine
end

