-- ==== Sys2Proof/Machine/Scaling.lean ====
section
/-! DEFINITION. The scaling formulas, one named function per formula, and their constants, each named once
(spec/43_detection.md R266, R267; spec/30_encoding.md R113; spec/92_eei_decisions.md D7). The literals are the document's own and unaudited
(log entry 21). -/

namespace Sys2Proof.Machine

/-! ## Constants -/

/-- `65534.0`, the divisor of every 16-bit detection field, and of `Vambig` (R266, R232). -/
def k65534 : F64 := 0x40EFFFC000000000#64

/-- `254.0`, the divisor of the three 8-bit probability fields (R266). -/
def k254 : F64 := 0x406FC00000000000#64

/-- `TWO_PI`, the binary64 nearest to 2π (R7, R267; PRESUMED, log entry 3). -/
def twoPi : F64 := 0x401921FB54442D18#64

/-- `300.0` (R264, R265). -/
def k300 : F64 := toF 300

/-- `200.0` (R232, R271). -/
def k200 : F64 := toF 200

/-- `10.0` (R275, R282). -/
def k10 : F64 := toF 10

/-- `110.0` (R282). -/
def k110 : F64 := toF 110

/-- `0.1`, slightly above one tenth (R195). -/
def kTenth : F64 := 0x3FB999999999999A#64

/-- `0.931322575049159` (R186). -/
def kDampingFactor : F64 := 0x3FEDCD65003B9AC7#64

/-- `2000000000.0` (R186). -/
def kDampingOffset : F64 := toF 2000000000

/-- `100000000.0` (R186). -/
def kDampingDivisor : F64 := toF 100000000

/-! ## Formulas -/

/-- `s16` (R10): the two's complement reading of an i16 (PRESUMED, log entry 2). -/
def s16 (v : I16) : Int := if v.toNat < 32768 then v.toNat else (v.toNat : Int) - 65536

/-- `CurrentDamping` in dB (R186; conflict C1: the formula, not the document's scenario). -/
def scaleDamping (raw : U32) : F64 :=
  fdiv (fsub (fmul (toF raw.toNat) kDampingFactor) kDampingOffset) kDampingDivisor

/-- `MaximumRangeFar` and `MaximumRangeNear` in metres (R195, R196). -/
def scaleMaxRange (raw : U16) : F64 := fmul (toF raw.toNat) kTenth

/-- `Vambig` in m/s: the quotient `200/65534.0` first (R232). -/
def scaleVambig (raw : I16) : F64 := fmul (toF (s16 raw)) (fdiv k200 k65534)

/-- `raw/65534.0 * span`: the division first (R264 to R272, R275, R276). -/
def scaleSpan (raw : Int) (span : F64) : F64 := fmul (fdiv (toF raw) k65534) span

/-- `raw/254.0` (R273, R274, R281). -/
def scaleProbability (raw : U8) : F64 := fdiv (toF raw.toNat) k254

/-- `raw/65534.0` (R277, R278, R279). -/
def scaleAngleVariance (raw : U16) : F64 := fdiv (toF raw.toNat) k65534

/-- `(raw + 110.0)/10.0`: the addition first (R282). -/
def scaleSnr (raw : U8) : F64 := fdiv (fadd (toF raw.toNat) k110) k10

end Sys2Proof.Machine
end

