-- ==== Sys2Proof/Machine/Operands.lean ====
section
/-! DEFINITION. From the raw wire fields of a packet to the records: the Status Decoder, the Event Decoder and the Detection
Record Decoder after field extraction (spec/41_status.md, spec/42_event.md, spec/43_detection.md). -/

namespace Sys2Proof.Machine

/-- A three-byte version field: `(b1 << 16) | (b2 << 8) | b3` in 32 bits (R111, R180, R182). -/
def assembleVersion (b1 b2 b3 : U8) : U32 :=
  (b1.setWidth 32 <<< 16) ||| (b2.setWidth 32 <<< 8) ||| b3.setWidth 32

/-- `DecodeStatus` (R172; field rules R173 to R196). -/
def statusReportOf (w : StatusWire) : StatusReport where
  crc := w.crc
  len := w.len
  sqc := w.sqc
  partNumber := w.partNumber
  assemblyPartNumber := w.assemblyPartNumber
  swPartNumber := w.swPartNumber
  serialNumber := w.serialNumber
  blVersion := assembleVersion w.blVersion1 w.blVersion2 w.blVersion3
  blCrc := w.blCrc
  swVersion := assembleVersion w.swVersion1 w.swVersion2 w.swVersion3
  swCrc := w.swCrc
  utcTimestamp := w.utcTimeStamp
  timestamp := w.timeStamp
  currentDampingRaw := w.currentDamping
  currentDamping := scaleDamping w.currentDamping
  opState := w.opState
  currentFarCF := w.currentFarCF
  currentNearCF := w.currentNearCF
  defective := w.defective
  supplyVoltLimit := w.supplyVoltLimit
  sensorOffTemp := w.sensorOffTemp
  gmMissing := w.gmMissing
  txOutReduced := w.txOutReduced
  maximumRangeFarRaw := w.maximumRangeFar
  maximumRangeFar := scaleMaxRange w.maximumRangeFar
  maximumRangeNearRaw := w.maximumRangeNear
  maximumRangeNear := scaleMaxRange w.maximumRangeNear

/-- `DecodeChunk` (R263; field rules R264 to R282; wire and record names paired by R262). -/
def detectionOf (c : ChunkWire) : Detection where
  rangeRaw := c.range
  range := scaleSpan c.range.toNat k300
  relativeRadialVelocityRaw := c.vrelRad
  relativeRadialVelocity := scaleSpan (s16 c.vrelRad) k300
  azimuthalAngle0Raw := c.azAng0
  azimuthalAngle0 := scaleSpan (s16 c.azAng0) twoPi
  azimuthalAngle1Raw := c.azAng1
  azimuthalAngle1 := scaleSpan (s16 c.azAng1) twoPi
  elevationAngleRaw := c.elAng
  elevationAngle := scaleSpan (s16 c.elAng) twoPi
  radarCrossSection0Raw := c.rcs0
  radarCrossSection0 := scaleSpan (s16 c.rcs0) k200
  radarCrossSection1Raw := c.rcs1
  radarCrossSection1 := scaleSpan (s16 c.rcs1) k200
  probabilityAz0Raw := c.prob0
  probabilityAz0 := scaleProbability c.prob0
  probabilityAz1Raw := c.prob1
  probabilityAz1 := scaleProbability c.prob1
  rangeVarianceRaw := c.rangeVar
  rangeVariance := scaleSpan c.rangeVar.toNat k10
  radialVelocityVarianceRaw := c.vrelRadVar
  radialVelocityVariance := scaleSpan c.vrelRadVar.toNat k10
  az0VarianceRaw := c.azAngVar0
  az0Variance := scaleAngleVariance c.azAngVar0
  az1VarianceRaw := c.azAngVar1
  az1Variance := scaleAngleVariance c.azAngVar1
  elAngleVarianceRaw := c.elAngVar
  elAngleVariance := scaleAngleVariance c.elAngVar
  probabilityFalseDetectionRaw := c.pdh0
  probabilityFalseDetection := scaleProbability c.pdh0
  snrRaw := c.snr
  snr := scaleSnr c.snr

/-- `DecodeDetections` on the chunks that were present, in wire order (R260, R283): no filter and no reordering. -/
def detectionsOf (chunks : List ChunkWire) : List Detection :=
  chunks.map detectionOf

/-- `DecodeEvent` (R222; field rules R223 to R235), stamped with the event type (R236). -/
def eventReportOf (t : EventType) (w : EventWire) (chunks : List ChunkWire) : EventReport where
  crc := w.crc
  len := w.len
  sqc := w.sqc
  messageCounter := w.messageCounter
  utcTimeStamp := w.utcTimeStamp
  timestamp := w.timeStamp
  measureCounter := w.measureCounter
  cycleCounter := w.cycleCounter
  nofDetections := w.nofDetections
  vambigRaw := w.vambig
  vambig := scaleVambig w.vambig
  centerFreq := w.centerFrequency
  detectionsInPacket := w.detectionsInPacket
  eventType := t
  detectionList := detectionsOf chunks

end Sys2Proof.Machine
end

