-- ==== Sys2Proof/Machine/Flags.lean ====
section
/-! DEFINITION. What a step reports: the header type as `Res.type`, the warning `count_mismatch`, the egress ports, and the
numeric codes for a port that needs bits (spec/10_state.md R36; spec/43_detection.md R285; spec/44_aggregator.md R320;
spec/30_encoding.md R108; spec/60_exceptions.md R341). -/

namespace Sys2Proof.Machine

/-- The Header Type of an event type. -/
def headerTypeOf : EventType → HeaderType
  | .far0 => .far0
  | .far1 => .far1
  | .near0 => .near0
  | .near1 => .near1
  | .near2 => .near2

/-- `Res.count_mismatch` of an event packet (R36, R285): more detections declared than decoded. A packet that faults before
the Aggregator has the flag false, and one that overflows its buffer keeps its flag (R345; log entry 9). -/
def countMismatch (ev : EventReport) : Bool :=
  decide (ev.detectionsInPacket.toNat > ev.detectionList.length)

/-- The four egress ports (R320). -/
inductive Port where
  | statusOut | eventOut | batchOut | resultOut
  deriving DecidableEq, Repr

/-- The document's topics (R320). -/
inductive Topic where
  | status | event
  deriving DecidableEq, Repr

/-- The port that carries an emission (R320). -/
def emissionPort : Emission → Port
  | .publishStatus _ => .statusOut
  | .publishEvent _ => .eventOut
  | .flushBatch _ _ _ => .batchOut

/-- The topic of an emission; a batch goes out under "event", as a sequence (R320, R321). -/
def emissionTopic : Emission → Topic
  | .publishStatus _ => .status
  | .publishEvent _ => .event
  | .flushBatch _ _ _ => .event

/-- The ports that a transaction drives: those of its emissions, and always `result_out` (R320). -/
def portsDriven (t : Transaction) : List Port :=
  t.out.map emissionPort ++ [.resultOut]

/-- The 3-bit code of a Header Type, 7 for none (R108). -/
def headerTypeCode : Option HeaderType → BitVec 3
  | some .status => 0
  | some .far0 => 1
  | some .far1 => 2
  | some .near0 => 3
  | some .near1 => 4
  | some .near2 => 5
  | none => 7

/-- The code of a category (R108). -/
def categoryCode : Category → BitVec 1
  | .far => 0
  | .near => 1

/-- The code of `CFG.EMIT_MODE` (R37). -/
def emitModeCode : EmitMode → BitVec 1
  | .aggregated => 0
  | .immediate => 1

/-- The numeric code of `Res.code` (R341); 3 is reserved and never produced (U19). -/
def resCodeNumber : ResCode → Nat
  | .ok => 0
  | .malformedHeader => 1
  | .truncatedPacket => 2
  | .batchOverflow => 4

/-- The numeric code of `Res.sub` (R341). -/
def resSubNumber : ResSub → Nat
  | .none => 0
  | .shortHeader => 1
  | .unknownMagic => 2
  | .statusPayload => 3
  | .eventPayload => 4

end Sys2Proof.Machine
end

