-- ==== Sys2Proof/Machine/Ops.lean ====
section
/-! DEFINITION. The shared operations over the state: the two buffers (spec/10_state.md R41 to R43), the bounds (R7), the
answer to a packet (R141), raising a fault (spec/60_exceptions.md R345) and reset (spec/70_reset_and_hazards.md R380, R381);
and the packet buffer written as memory cells. -/

namespace Sys2Proof.Machine

/-! ## The two buffers -/

/-- `cat(t)` (R43, R301). `cat(Status)` is undefined, and an event type is never Status. -/
def cat : EventType → Category
  | .far0 | .far1 => .far
  | .near0 | .near1 | .near2 => .near

/-- The buffer of a category. -/
def State.buf (s : State) : Category → Buf
  | .far => s.far
  | .near => s.near

/-- The state with one buffer replaced and the other unchanged. -/
def State.setBuf (s : State) (b : Category) (v : Buf) : State :=
  match b with
  | .far => { s with far := v }
  | .near => { s with near := v }

/-- `BufSet(b, ts, list)` (R41). -/
def bufSet (s : State) (b : Category) (ts : U32) (list : List EventReport) : State :=
  s.setBuf b (.holding ts list)

/-- `BufAppend(b, e)` (R42), given what buffer `b` holds: it is defined on a `Holding` buffer only. -/
def bufAppend (s : State) (b : Category) (ts : U32) (list : List EventReport) (e : EventReport) : State :=
  s.setBuf b (.holding ts (list ++ [e]))

/-! ## Bounds -/

/-- A length within a bound (R72). -/
def limitAdmits : Limit → Nat → Bool
  | .unbounded, _ => true
  | .finite n, k => decide (k ≤ n)

/-- `CFG.BATCH_CAP is finite and len(list) = CFG.BATCH_CAP` (R300; log entry 13). -/
def limitReached : Limit → Nat → Bool
  | .unbounded, _ => false
  | .finite n, k => k == n

/-! ## Answering a packet -/

/-- The block's answer to the packet under decode: one transaction `(Out, Res)` (R141, R322). -/
def State.answer (s : State) (out : List Emission) (res : Res) : State :=
  { s with egress := s.egress ++ [{ out := out, res := res }] }

/-- `raise F(sub)` (R345), the one way a fault is taken: no emission, no buffer write, a result with action `Dropped`.
There is no saved state, no vector and no mode to change, and nothing to return from (R354): the block is ready for the
next packet. -/
def raiseFault (s : State) (code : ResCode) (sub : ResSub) (type : Option HeaderType) (mm : Bool) (len : Nat) :
    State :=
  s.answer [] { code, sub, type, action := .dropped, countMismatch := mm, len }

/-! ## Ingress and reset -/

/-- The state with these transactions pending. -/
def State.withPending (s : State) (rest : List Input) : State :=
  { s with pktIn := rest }

/-- Reset (R380, R381, R383): both buffers `Empty`, the held reports discarded, nothing emitted, `CFG` unchanged. -/
def resetBlock (s : State) : State :=
  { s with near := .empty, far := .empty }

/-! ## The packet buffer as memory cells -/

/-- A memory: the cells that exist, by address. -/
abbrev Memory := List Host.Cell

/-- The canonical form: addresses strictly rising. An address that is not listed holds no byte (R76). -/
def Memory.wf : Memory → Bool
  | [] => true
  | [_] => true
  | c :: d :: rest => decide (c.1 < d.1) && Memory.wf (d :: rest)

/-- One byte of a memory; `none` where no byte exists. -/
def Memory.read : Memory → Nat → Option Byte
  | [], _ => none
  | c :: rest, a => if c.1 = a then some c.2 else Memory.read rest a

/-- The cells of bytes that start at address `a`. -/
def cellsFrom : Nat → List Byte → Memory
  | _, [] => []
  | a, b :: rest => (a, b) :: cellsFrom (a + 1) rest

/-- The packet buffer (R70): the bytes of the packet at offsets 0 to `len(P) - 1`. -/
def packetMemory (P : Packet) : Memory :=
  cellsFrom 0 P

end Sys2Proof.Machine
end

