-- ==== Sys2Proof/Machine/Event.lean ====
section
/-! DEFINITION. The meanings of FAR0, FAR1, NEAR0, NEAR1, NEAR2 (spec/40_classify_dispatch.md R151 to R155): the event branch
of the step (R146), immediate emission (R148, R241) and the Aggregator (spec/44_aggregator.md R300 to R309). -/

namespace Sys2Proof.Machine

/-- The result of an event packet that decoded (R146, R147). -/
def eventResult (e : EventReport) (action : ResAction) (mm : Bool) (len : Nat) : Res :=
  { code := .ok, sub := .none, type := some (headerTypeOf e.eventType), action, countMismatch := mm, len }

/-- `AggArrive` (R300) on buffer `b`: `Empty` becomes `Holding` (R302); an equal timestamp appends (R303), unless the
buffer is full, which raises `BatchOverflow` with the packet's own mismatch flag (R309, R345; log entry 9); a different
timestamp, in any order, flushes the held list whole and reseeds the buffer (R304, R305). -/
def aggArrive (s : State) (b : Category) (e : EventReport) (mm : Bool) (len : Nat) : State :=
  match s.buf b with
  | .empty => (bufSet s b e.timestamp [e]).answer [] (eventResult e .buffered mm len)
  | .holding ts list =>
    if e.timestamp = ts then
      if limitReached s.cfg.batchCap list.length then
        raiseFault s .batchOverflow .none (some (headerTypeOf e.eventType)) mm len
      else (bufAppend s b ts list e).answer [] (eventResult e .buffered mm len)
    else (bufSet s b e.timestamp [e]).answer [.flushBatch b ts list] (eventResult e .flushed mm len)

/-- Immediate emission (R146, R148, R241): the gate is the declared count, not the length of the list. No buffer is
touched (R307). -/
def publishOrSuppress (s : State) (e : EventReport) (mm : Bool) (len : Nat) : State :=
  if e.detectionsInPacket.toNat > 0 then
    s.answer [.publishEvent e] (eventResult e .eventPublished mm len)
  else s.answer [] (eventResult e .eventSuppressed false len)

/-- The event branch of the step (R146), for event type `t`: a payload shorter than 32 bytes raises
`TruncatedPacket(EventPayload)` (R220); any other packet is decoded, stamped, and emitted or aggregated. -/
def arriveEvent (t : EventType) (p : EventPayload) (s : State) : State :=
  match p with
  | .short _ => raiseFault s .truncatedPacket .eventPayload (some (headerTypeOf t)) false (16 + p.length)
  | .full w chunks _ =>
    let e := eventReportOf t w chunks
    let mm := countMismatch e
    match s.cfg.emitMode with
    | .immediate => publishOrSuppress s e mm (16 + p.length)
    | .aggregated => aggArrive s (cat e.eventType) e mm (16 + p.length)

/-- FAR0 (R151). -/
def execFar0 (_h : HeaderRest) (p : EventPayload) (s : State) : Host.Outcome State Fault Refusal :=
  .next (arriveEvent .far0 p s)

/-- FAR1 (R152). -/
def execFar1 (_h : HeaderRest) (p : EventPayload) (s : State) : Host.Outcome State Fault Refusal :=
  .next (arriveEvent .far1 p s)

/-- NEAR0 (R153). -/
def execNear0 (_h : HeaderRest) (p : EventPayload) (s : State) : Host.Outcome State Fault Refusal :=
  .next (arriveEvent .near0 p s)

/-- NEAR1 (R154). -/
def execNear1 (_h : HeaderRest) (p : EventPayload) (s : State) : Host.Outcome State Fault Refusal :=
  .next (arriveEvent .near1 p s)

/-- NEAR2 (R155). -/
def execNear2 (_h : HeaderRest) (p : EventPayload) (s : State) : Host.Outcome State Fault Refusal :=
  .next (arriveEvent .near2 p s)

end Sys2Proof.Machine
end

