-- ==== Sys2Proof/Machine/Status.lean ====
section
/-! DEFINITION. The meaning of STATUS (spec/40_classify_dispatch.md R150, spec/41_status.md R170, R172, R197). -/

namespace Sys2Proof.Machine

/-- STATUS (R150): a payload shorter than 97 bytes raises `TruncatedPacket(StatusPayload)`; any other packet is decoded and
published at once, in both emission modes, and touches no buffer. The header bytes `[4:16]` and the bytes from 113 on
have no effect (R115, R198). -/
def execStatus (_h : HeaderRest) (p : StatusPayload) (s : State) : Host.Outcome State Fault Refusal :=
  match p with
  | .short _ => .next (raiseFault s .truncatedPacket .statusPayload (some .status) false (16 + p.length))
  | .full w _ =>
    .next (s.answer [.publishStatus (statusReportOf w)]
      { code := .ok, sub := .none, type := some .status, action := .statusPublished, countMismatch := false,
        len := 16 + p.length })

end Sys2Proof.Machine
end

