-- ==== Sys2Proof/Machine/Dispatch.lean ====
section
/-! DEFINITION. One arm per packet type. -/

namespace Sys2Proof.Machine

def exec (i : Instr) (s : State) : Host.Outcome State Fault Refusal :=
  match i with
  | .status h p => Sys2Proof.Machine.execStatus h p s
  | .far0 h p => Sys2Proof.Machine.execFar0 h p s
  | .far1 h p => Sys2Proof.Machine.execFar1 h p s
  | .near0 h p => Sys2Proof.Machine.execNear0 h p s
  | .near1 h p => Sys2Proof.Machine.execNear1 h p s
  | .near2 h p => Sys2Proof.Machine.execNear2 h p s

end Sys2Proof.Machine
end

