-- ==== Sys2Proof/Machine/Ingress.lean ====
section
/-! DEFINITION. The ingress operation `onPacket` (spec/40_classify_dispatch.md R140, R141, R146): decode the packet, run the
instruction it is, and report the byte sequences that are no instruction. -/

namespace Sys2Proof.Machine

/-- What the step does with a byte sequence that is no instruction: `MalformedHeader(ShortHeader)` (R142, R342) or
`MalformedHeader(UnknownMagic)` (R156, R343), with `Res.type = none` (R341). A read past the end is no event of the block
(R76) and stops the model. -/
def rejectPacket (e : DecodeError) (len : Nat) (s : State) : Host.Outcome State Fault Refusal :=
  match e with
  | .shortHeader => .next (raiseFault s .malformedHeader .shortHeader none false len)
  | .unknownMagic => .next (raiseFault s .malformedHeader .unknownMagic none false len)
  | .readPastEnd addr => .fault (.readPastPacket addr)

/-- One packet on `pkt_in` (R141): a packet that the port cannot carry is not presented (R72; log entry 7); any other is
decoded and run, or rejected. -/
def onPacket (P : Packet) (s : State) : Host.Outcome State Fault Refusal :=
  if limitAdmits s.cfg.maxPktLen P.length then
    match decode P with
    | .ok i => exec i s
    | .error e => rejectPacket e P.length s
  else .refused (.packetLongerThanPort P.length)

/-- The next pending transaction (R141, R82): a packet, or a reset between two packets (R382). With nothing pending the
block is idle and holds its state (R365, R370; log entry 6). -/
def ingress (s : State) : Host.Outcome State Fault Refusal :=
  match s.pktIn with
  | [] => .next s
  | .packet P :: rest => onPacket P (s.withPending rest)
  | .reset :: rest => .next (resetBlock (s.withPending rest))

/-- The state with one more transaction before the pending ones. -/
def State.present (s : State) (input : Input) : State :=
  s.withPending (input :: s.pktIn)

end Sys2Proof.Machine
end

