-- ==== Sys2Proof/Machine/Step.lean ====
section
/-! DEFINITION. One step of the block (spec/00_scope.md R16, spec/40_classify_dispatch.md R146). -/

namespace Sys2Proof.Machine

/-- One step: the next pending transaction, whole (R16, R78). -/
def step (s : State) : Host.Outcome State Fault Refusal :=
  ingress s

/-- The packet of one word of the opcode table, pending before everything else: the next step runs it (log entries 5
and 16). -/
def State.withFetchWord (s : State) (nbits w : Nat) : State :=
  s.present (.packet (tableWordPacket nbits w))

end Sys2Proof.Machine
end

