-- ==== Sys2Proof/Machine/Reference.lean ====
section
/-! DEFINITION. The step function as the spec's pseudocode writes it, straight from the bytes of the packet
(spec/00_scope.md R11, R16; spec/40_classify_dispatch.md R143, R146; spec/41_status.md R172; spec/42_event.md R222;
spec/43_detection.md R260, R263; spec/44_aggregator.md R300). It shares the records and the named scalings with the machine, and none
of the machine's decoder, syntax or meanings: a second reading of the spec that a claim compares the machine with. -/

namespace Sys2Proof.Reference

open Sys2Proof.Machine

/-- `P[a]`; every use is guarded by a length check (R76). -/
def byte (P : Packet) (a : Nat) : Byte := P.getD a 0

/-- `MemRead(addr, n)`, the sum of R11. -/
def rd (P : Packet) (addr n : Nat) : Nat :=
  ∑ k ∈ Finset.range n, (byte P (addr + k)).toNat * 256 ^ (n - 1 - k)

/-- `MemRead` as a `w`-bit field. -/
def rdW (w : Nat) (P : Packet) (addr n : Nat) : BitVec w := BitVec.ofNat w (rd P addr n)

/-- `DecodeStatus(P)`, line by line (R172). -/
def decodeStatus (P : Packet) : StatusReport where
  crc := rdW 16 P 16 2
  len := rdW 16 P 18 2
  sqc := rdW 8 P 20 1
  partNumber := rdW 64 P 21 8
  assemblyPartNumber := rdW 64 P 29 8
  swPartNumber := rdW 64 P 37 8
  serialNumber := (List.range 26).map fun k => byte P (45 + k)
  blVersion := BitVec.ofNat 32 (rd P 71 1 * 2 ^ 16 + rd P 72 1 * 2 ^ 8 + rd P 73 1)
  blCrc := rdW 32 P 74 4
  swVersion := BitVec.ofNat 32 (rd P 78 1 * 2 ^ 16 + rd P 79 1 * 2 ^ 8 + rd P 80 1)
  swCrc := rdW 32 P 81 4
  utcTimestamp := rdW 64 P 85 8
  timestamp := rdW 32 P 93 4
  currentDampingRaw := rdW 32 P 97 4
  currentDamping := scaleDamping (rdW 32 P 97 4)
  opState := rdW 8 P 101 1
  currentFarCF := rdW 8 P 102 1
  currentNearCF := rdW 8 P 103 1
  defective := rdW 8 P 104 1
  supplyVoltLimit := rdW 8 P 105 1
  sensorOffTemp := rdW 8 P 106 1
  gmMissing := rdW 8 P 107 1
  txOutReduced := rdW 8 P 108 1
  maximumRangeFarRaw := rdW 16 P 109 2
  maximumRangeFar := scaleMaxRange (rdW 16 P 109 2)
  maximumRangeNearRaw := rdW 16 P 111 2
  maximumRangeNear := scaleMaxRange (rdW 16 P 111 2)

/-- `DecodeChunk` of chunk `j` (R263), its bytes at `48 + 28 j` (R104). -/
def decodeChunk (P : Packet) (j : Nat) : Detection :=
  let u16 := fun a => rdW 16 P (48 + 28 * j + a) 2
  let u8 := fun a => rdW 8 P (48 + 28 * j + a) 1
  { rangeRaw := u16 0
    range := scaleSpan (u16 0).toNat k300
    relativeRadialVelocityRaw := u16 2
    relativeRadialVelocity := scaleSpan (u16 2).toInt k300
    azimuthalAngle0Raw := u16 4
    azimuthalAngle0 := scaleSpan (u16 4).toInt twoPi
    azimuthalAngle1Raw := u16 6
    azimuthalAngle1 := scaleSpan (u16 6).toInt twoPi
    elevationAngleRaw := u16 8
    elevationAngle := scaleSpan (u16 8).toInt twoPi
    radarCrossSection0Raw := u16 10
    radarCrossSection0 := scaleSpan (u16 10).toInt k200
    radarCrossSection1Raw := u16 12
    radarCrossSection1 := scaleSpan (u16 12).toInt k200
    probabilityAz0Raw := u8 14
    probabilityAz0 := scaleProbability (u8 14)
    probabilityAz1Raw := u8 15
    probabilityAz1 := scaleProbability (u8 15)
    rangeVarianceRaw := u16 16
    rangeVariance := scaleSpan (u16 16).toNat k10
    radialVelocityVarianceRaw := u16 18
    radialVelocityVariance := scaleSpan (u16 18).toNat k10
    az0VarianceRaw := u16 20
    az0Variance := scaleAngleVariance (u16 20)
    az1VarianceRaw := u16 22
    az1Variance := scaleAngleVariance (u16 22)
    elAngleVarianceRaw := u16 24
    elAngleVariance := scaleAngleVariance (u16 24)
    probabilityFalseDetectionRaw := u8 26
    probabilityFalseDetection := scaleProbability (u8 26)
    snrRaw := u8 27
    snr := scaleSnr (u8 27) }

/-- The number of chunks that the packet carries and declares (R116, R238). -/
def chunkCount (P : Packet) : Nat := min (rd P 47 1) ((P.length - 48) / 28)

/-- `DecodeEvent(P)`, line by line (R222), stamped with `t` (R236). -/
def decodeEvent (t : EventType) (P : Packet) : EventReport where
  crc := rdW 16 P 16 2
  len := rdW 16 P 18 2
  sqc := rdW 8 P 20 1
  messageCounter := rdW 8 P 21 1
  utcTimeStamp := rdW 64 P 22 8
  timestamp := rdW 32 P 30 4
  measureCounter := rdW 32 P 34 4
  cycleCounter := rdW 32 P 38 4
  nofDetections := rdW 16 P 42 2
  vambigRaw := rdW 16 P 44 2
  vambig := scaleVambig (rdW 16 P 44 2)
  centerFreq := rdW 8 P 46 1
  detectionsInPacket := rdW 8 P 47 1
  eventType := t
  detectionList := (List.range (chunkCount P)).map (decodeChunk P)

/-- The pair `S = (S.NEAR, S.FAR)` (R30), the emissions and the result: what `Step` returns (R16). -/
abbrev Answer := (Buf × Buf) × List Emission × Res

/-- A `raise` of R146, as R345 says. -/
def raise (S : Buf × Buf) (n : Nat) (code : ResCode) (sub : ResSub) (t : Option HeaderType) (mm : Bool) : Answer :=
  (S, [], { code, sub, type := t, action := .dropped, countMismatch := mm, len := n })

/-- One arrival at the buffer of a category (R300): the buffer after it, the emissions, and the action taken, or `none` for
`BatchOverflow`. -/
def arrive (cap : Limit) (b : Category) (buf : Buf) (e : EventReport) : Option (Buf × List Emission × ResAction) :=
  match buf with
  | .empty => some (.holding e.timestamp [e], [], .buffered)
  | .holding ts list =>
    if e.timestamp = ts then
      if cap = .finite list.length then none else some (.holding ts (list ++ [e]), [], .buffered)
    else some (.holding e.timestamp [e], [.flushBatch b ts list], .flushed)

/-- The event branch of `Step` (R146) for a packet of type `t`, header type `ht`, category `b`. -/
def eventStep (cfg : Cfg) (S : Buf × Buf) (P : Packet) (t : EventType) (ht : HeaderType) (b : Category) : Answer :=
  let n := P.length
  if n - 16 < 32 then raise S n .truncatedPacket .eventPayload (some ht) false
  else
    let e := decodeEvent t P
    let mm := decide (e.detectionsInPacket.toNat > e.detectionList.length)
    match cfg.emitMode with
    | .immediate =>
      if e.detectionsInPacket.toNat > 0 then
        (S, [.publishEvent e], ⟨.ok, .none, some ht, .eventPublished, mm, n⟩)
      else (S, [], ⟨.ok, .none, some ht, .eventSuppressed, false, n⟩)
    | .aggregated =>
      match b with
      | .near =>
        match arrive cfg.batchCap .near S.1 e with
        | some (v, out, act) => ((v, S.2), out, ⟨.ok, .none, some ht, act, mm, n⟩)
        | none => raise S n .batchOverflow .none (some ht) mm
      | .far =>
        match arrive cfg.batchCap .far S.2 e with
        | some (v, out, act) => ((S.1, v), out, ⟨.ok, .none, some ht, act, mm, n⟩)
        | none => raise S n .batchOverflow .none (some ht) mm

/-- `Step(CFG, S, P)` (R146). -/
def step (cfg : Cfg) (S : Buf × Buf) (P : Packet) : Answer :=
  let n := P.length
  if n < 16 then raise S n .malformedHeader .shortHeader none false
  else
    let m := rd P 0 4
    if m = 0x00C80000 then
      if n - 16 < 97 then raise S n .truncatedPacket .statusPayload (some .status) false
      else (S, [.publishStatus (decodeStatus P)], ⟨.ok, .none, some .status, .statusPublished, false, n⟩)
    else if m = 0x00DC0001 then eventStep cfg S P .far0 .far0 .far
    else if m = 0x00DC0002 then eventStep cfg S P .far1 .far1 .far
    else if m = 0x00DC0003 then eventStep cfg S P .near0 .near0 .near
    else if m = 0x00DC0004 then eventStep cfg S P .near1 .near1 .near
    else if m = 0x00DC0005 then eventStep cfg S P .near2 .near2 .near
    else raise S n .malformedHeader .unknownMagic none false

end Sys2Proof.Reference
end

