-- ==== Sys2Proof/Safety.lean ====
section
/-! DEFINITION. The terms in which claims about the machine are stated: the invariant of spec/10_state.md R31, the runs over a
stream of packets, what a category has received and emitted (spec/44_aggregator.md R312, R313), and a safe run. -/

namespace Sys2Proof.Machine

/-! ## The invariant of R31 -/

/-- What a decoded report satisfies by itself: the list is no longer than the declared count (R39, R238) and `Vambig` is
its formula applied to the raw value (R232). -/
def reportInv (e : EventReport) : Prop :=
  e.detectionList.length ≤ e.detectionsInPacket.toNat ∧ e.vambig = scaleVambig e.vambigRaw

/-- R31 (a), (b), (c), (e) for the buffer named `b`, and R39 for its elements. -/
def bufInv (cap : Limit) (b : Category) : Buf → Prop
  | .empty => True
  | .holding ts list =>
    list ≠ [] ∧
    (∀ r ∈ list, r.timestamp = ts ∧ cat r.eventType = b ∧ reportInv r) ∧
    limitAdmits cap list.length = true

/-- A legal `CFG`: a finite `BATCH_CAP` is at least 1 (R7, R37). -/
def Cfg.legal (cfg : Cfg) : Bool :=
  limitAdmits cfg.batchCap 1

/-- The invariant that every step keeps (R31, R311). -/
structure State.Inv (s : State) : Prop where
  cfgLegal : Cfg.legal s.cfg = true
  near : bufInv s.cfg.batchCap .near s.near
  far : bufInv s.cfg.batchCap .far s.far

/-! ## Packets of the five event types, by type -/

/-- The event packet of a type. -/
def eventInstr : EventType → HeaderRest → EventPayload → Instr
  | .far0 => .far0
  | .far1 => .far1
  | .near0 => .near0
  | .near1 => .near1
  | .near2 => .near2

/-- The Event Report that a packet stands for, if it is an event packet long enough to decode. -/
def reportOf : Instr → Option EventReport
  | .status _ _ => none
  | .far0 _ p => payloadReport .far0 p
  | .far1 _ p => payloadReport .far1 p
  | .near0 _ p => payloadReport .near0 p
  | .near1 _ p => payloadReport .near1 p
  | .near2 _ p => payloadReport .near2 p
where
  /-- The report of an event payload. -/
  payloadReport (t : EventType) : EventPayload → Option EventReport
    | .full w chunks _ => some (eventReportOf t w chunks)
    | .short _ => none

/-- The Event Report that a byte sequence decodes to, if any. -/
def packetReport (P : Packet) : Option EventReport :=
  match decode P with
  | .ok i => reportOf i
  | .error _ => none

/-- The Event Reports of category `b` in a stream of packets, in arrival order. -/
def arrivals (b : Category) (ps : List Packet) : List EventReport :=
  (ps.filterMap packetReport).filter fun e => cat e.eventType = b

/-! ## What the machine has emitted and holds -/

/-- All emissions, oldest first (R322). -/
def emissions (log : List Transaction) : List Emission :=
  log.flatMap Transaction.out

/-- The batches of category `b` that were flushed, oldest first, each with its timestamp (R305). -/
def batches (b : Category) (log : List Transaction) : List (U32 × List EventReport) :=
  (emissions log).filterMap fun e =>
    match e with
    | .flushBatch b' ts list => if b' = b then some (ts, list) else none
    | .publishStatus _ => none
    | .publishEvent _ => none

/-- The batch a buffer holds: none or one. -/
def heldBatch : Buf → List (U32 × List EventReport)
  | .empty => []
  | .holding ts list => [(ts, list)]

/-- Every batch of category `b`, the flushed ones first and the held one last. -/
def allBatches (b : Category) (s : State) : List (U32 × List EventReport) :=
  batches b s.egress ++ heldBatch (s.buf b)

/-- The reports of category `b` that are somewhere: in a flushed batch or in the buffer, in that order (R312). -/
def accounted (b : Category) (s : State) : List EventReport :=
  (allBatches b s).flatMap Prod.snd

/-- The maximal runs of equal consecutive timestamps (R313). -/
def timestampRuns : List EventReport → List (U32 × List EventReport)
  | [] => []
  | e :: es =>
    match timestampRuns es with
    | [] => [(e.timestamp, [e])]
    | (ts, run) :: runs =>
      if e.timestamp = ts then (ts, e :: run) :: runs else (e.timestamp, [e]) :: (ts, run) :: runs

/-! ## Rounding -/

/-- `r` is the binary64 nearest to the exact value `x`, ties to even (R14): finite whenever `x` is within the finite
range, and then no finite value is nearer, and one that is as near and different leaves `r` the even one. -/
def NearestEven (r : F64) (x : ℚ) : Prop :=
  (|x| ≤ fValue 0x7FEFFFFFFFFFFFFF → fIsFinite r = true) ∧
  (fIsFinite r = true → ∀ y : F64, fIsFinite y = true →
    |fValue r - x| ≤ |fValue y - x| ∧
    (|fValue r - x| = |fValue y - x| → fValue y ≠ fValue r → r.toNat % 2 = 0))

/-- Within the document's relative tolerance of 1e-9 (R14, decision D7). -/
def WithinTolerance (r : F64) (x : ℚ) : Prop :=
  fIsFinite r = true ∧ |fValue r - x| ≤ |x| / 10 ^ 9

/-! ## Runs -/

/-- The state with a stream of packets pending and nothing else (R2: the stream is the program). -/
def State.withStream (s : State) (ps : List Packet) : State :=
  s.withPending (ps.map .packet)

/-- The run of the machine over a whole stream of packets. -/
def runStream (s : State) (ps : List Packet) : Host.Outcome State Fault Refusal :=
  Sys2Proof.core.run ps.length (s.withStream ps)

/-- A safe run: no number of steps from `s` ends in a fault. -/
def State.Safe (s : State) : Prop :=
  ∀ k r, Sys2Proof.core.run k s ≠ .fault r

end Sys2Proof.Machine
end

