-- ==== Sys2Proof/Certificates/Slice0/Obligations.lean ====
section
/-! DEFINITION. The statements for the provers. Each cites the rule of spec/ it formalises; what a statement takes from the model's own
choices is named in its docstring with the log entry. In them `Instr.full`-form payloads are the packets long enough to
decode and `short` payloads the truncated ones; `eventInstr t` is the event packet of type `t`, for each of FAR0, FAR1, NEAR0, NEAR1, NEAR2. -/

open Sys2Proof Sys2Proof.Machine

/-! ## Encoding -/

/-- R199, R240, S2 (30_encoding.md §1, 95_test_vectors.md S2): encoding a well-formed packet of any of the six types with the
layouts and decoding the bytes gives back every raw field, the ignored bytes included. -/
def Obligations.DecodeOfEncodedPacketIsThatPacket : Prop :=
  ∀ i : Instr, i.wellFormed = true → decode (encode i) = .ok i

/-- R107, R116, R35 (30_encoding.md §1, §5): a byte sequence that decodes is the encoding of what it decodes to, which is
well-formed; so no byte is dropped. The parse cursor ends within the packet. -/
def Obligations.EncodeOfDecodedPacketIsItsBytes : Prop :=
  ∀ (P : Packet) (i : Instr), decode P = .ok i →
    i.wellFormed = true ∧ encode i = P ∧ i.length = P.length ∧ i.cursor ≤ P.length

/-- R107: for every byte sequence exactly one of three things holds: too short, an instruction of the type of its magic, or an
unknown magic. -/
def Obligations.DecoderIsTotalOnAnyBytes : Prop :=
  ∀ P : Packet,
    (P.length < 16 ∧ decode P = .error .shortHeader) ∨
    (16 ≤ P.length ∧ ∃ i, decode P = .ok i ∧ classify P = .ok (some i.headerType) ∧ i.headerType.magic.toNat = beNat (P.take 4)) ∨
    (16 ≤ P.length ∧ decode P = .error .unknownMagic ∧ classify P = .ok none ∧
      ∀ t : HeaderType, t.magic.toNat ≠ beNat (P.take 4))

/-- R105, R103, R102: packets written out byte by byte decode to the instruction they stand for: an empty payload after each of the
six magics, and an event header in which every byte is different. -/
def Obligations.WrittenPacketsDecode : Prop :=
  let h : HeaderRest := ⟨[4, 5, 6, 7], [8, 9, 10, 11, 12, 13, 14, 15]⟩
  let packet := fun (magic : List Byte) => magic ++ [4, 5, 6, 7, 8, 9, 10, 11, 12, 13, 14, 15]
  decode (packet [0x00, 0xC8, 0x00, 0x00]) = .ok (.status h (.short [])) ∧
  decode (packet [0x00, 0xDC, 0x00, 0x01]) = .ok (.far0 h (.short [])) ∧
  decode (packet [0x00, 0xDC, 0x00, 0x02]) = .ok (.far1 h (.short [])) ∧
  decode (packet [0x00, 0xDC, 0x00, 0x03]) = .ok (.near0 h (.short [])) ∧
  decode (packet [0x00, 0xDC, 0x00, 0x04]) = .ok (.near1 h (.short [])) ∧
  decode (packet [0x00, 0xDC, 0x00, 0x05]) = .ok (.near2 h (.short [])) ∧
  decode (packet [0x00, 0xDC, 0x00, 0x05] ++
      [16, 17, 18, 19, 20, 21, 22, 23, 24, 25, 26, 27, 28, 29, 30, 31, 32, 33, 34, 35, 36, 37, 38, 39, 40, 41, 42, 43, 44,
        45, 46, 47]) =
    .ok (.near2 h (.full
      { crc := 0x1011, len := 0x1213, sqc := 0x14, messageCounter := 0x15, utcTimeStamp := 0x161718191A1B1C1D,
        timeStamp := 0x1E1F2021, measureCounter := 0x22232425, cycleCounter := 0x26272829, nofDetections := 0x2A2B,
        vambig := 0x2C2D, centerFrequency := 0x2E, detectionsInPacket := 0x2F } [] []))

/-- R143: the classifier on a packet of 16 bytes or more: the six magics, byte by byte, and `none` for any other first four
bytes. -/
def Obligations.ClassifierReturnsTheTypeOfTheSixMagics : Prop :=
  ∀ P : Packet, 16 ≤ P.length →
    (P.take 4 = [0x00, 0xC8, 0x00, 0x00] → classify P = .ok (some .status)) ∧
    (P.take 4 = [0x00, 0xDC, 0x00, 0x01] → classify P = .ok (some .far0)) ∧
    (P.take 4 = [0x00, 0xDC, 0x00, 0x02] → classify P = .ok (some .far1)) ∧
    (P.take 4 = [0x00, 0xDC, 0x00, 0x03] → classify P = .ok (some .near0)) ∧
    (P.take 4 = [0x00, 0xDC, 0x00, 0x04] → classify P = .ok (some .near1)) ∧
    (P.take 4 = [0x00, 0xDC, 0x00, 0x05] → classify P = .ok (some .near2)) ∧
    (P.take 4 ∉ ([[0x00, 0xC8, 0x00, 0x00], [0x00, 0xDC, 0x00, 0x01], [0x00, 0xDC, 0x00, 0x02], [0x00, 0xDC, 0x00, 0x03],
        [0x00, 0xDC, 0x00, 0x04], [0x00, 0xDC, 0x00, 0x05]] : List (List Byte)) → classify P = .ok none)

/-- R144: the classifier's result depends on the first four bytes and on whether the packet has 16, and on nothing else
(it has no other argument than the packet). -/
def Obligations.ClassifierDependsOnTheMagicAlone : Prop :=
  ∀ P Q : Packet, (16 ≤ P.length ↔ 16 ≤ Q.length) → P.take 4 = Q.take 4 → classify P = classify Q

/-- R11, R74, R76: `MemBytes` gives the bytes at the offsets asked for, and `MemRead` their big-endian sum; a read that would
pass the end gives no value. -/
def Obligations.MemReadIsTheBigEndianSum : Prop :=
  ∀ (P : Packet) (a n : Nat),
    (a + n ≤ P.length →
      memBytes P a n = .ok ((List.range n).map fun k => P.getD (a + k) 0) ∧
      memRead P a n = .ok (∑ k ∈ Finset.range n, (P.getD (a + k) 0).toNat * 256 ^ (n - 1 - k))) ∧
    (P.length < a + n →
      memBytes P a n = .error (.readPastEnd a) ∧ memRead P a n = .error (.readPastEnd a))

/-- R10, R110 (two's complement is PRESUMED, log entry 2): the reading of the 16 bits of a signed field. -/
def Obligations.SignedFieldsAreTwosComplement : Prop :=
  ∀ v : I16, s16 v = v.toInt ∧ -32768 ≤ s16 v ∧ s16 v ≤ 32767 ∧ (s16 v < 0 ↔ v.msb = true)

/-! ## The step -/

/-- R146, with R172, R222, R260, R263 and R300: for every `CFG`, every state and every packet the port carries, the machine's
step is the spec's pseudocode, evaluated from the packet's bytes: the buffers, the emissions and the result are those of
`Reference.step`, which is total, and nothing else changes. -/
def Obligations.StepIsTheSpecsPseudocode : Prop :=
  ∀ (s : State) (P : Packet) (rest : List Input), s.pktIn = .packet P :: rest →
    limitAdmits s.cfg.maxPktLen P.length = true →
    step s = .next
      { near := (Reference.step s.cfg (s.near, s.far) P).1.1
        far := (Reference.step s.cfg (s.near, s.far) P).1.2
        cfg := s.cfg
        pktIn := rest
        egress := s.egress ++
          [{ out := (Reference.step s.cfg (s.near, s.far) P).2.1
             res := (Reference.step s.cfg (s.near, s.far) P).2.2 }] }

/-- R16, R146: when the next packet decodes to a packet of one of the six types, the step runs that instruction on the
state without the packet; nothing else happens around it. -/
def Obligations.StepRunsTheDecodedPacket : Prop :=
  ∀ (s : State) (P : Packet) (rest : List Input) (i : Instr), s.pktIn = .packet P :: rest →
    limitAdmits s.cfg.maxPktLen P.length = true → decode P = .ok i → step s = exec i (s.withPending rest)

/-- R141, R44, R78, R383: a packet that the port carries is always answered, with exactly one transaction, appended after
the earlier ones, with at most one emission; the packet is consumed and `CFG` stays. -/
def Obligations.EveryPacketIsAnsweredOnce : Prop :=
  ∀ (s : State) (P : Packet) (rest : List Input), s.pktIn = .packet P :: rest →
    limitAdmits s.cfg.maxPktLen P.length = true →
    ∃ s' tr, step s = .next s' ∧ s'.egress = s.egress ++ [tr] ∧ tr.out.length ≤ 1 ∧ tr.res.len = P.length ∧
      s'.pktIn = rest ∧ s'.cfg = s.cfg

/-- R76, R340: no step from any state reads past the packet, so no run is ever stopped by a fault. -/
def Obligations.NoRunEndsInAFault : Prop :=
  ∀ s : State, s.Safe

/-- The model's own choices, log entries 6 and 7 (R72, R365, R370): a step is refused exactly when the next packet is longer
than a finite `CFG.MAX_PKT_LEN`, and with nothing pending the block is idle and keeps its state. -/
def Obligations.OnlyOverlongPacketsAreRefused : Prop :=
  (∀ (s : State) (r : Refusal), step s = .refused r ↔
    ∃ P rest n, s.pktIn = .packet P :: rest ∧ s.cfg.maxPktLen = .finite n ∧ n < P.length ∧
      r = .packetLongerThanPort P.length) ∧
  ∀ s : State, s.pktIn = [] → step s = .next s

/-- R383, R322, R82: every step keeps `CFG`, takes one pending transaction, and leaves what was emitted before as it was. -/
def Obligations.EveryStepKeepsCfgAndPastEmissions : Prop :=
  ∀ s s' : State, step s = .next s' → s'.cfg = s.cfg ∧ s'.pktIn = s.pktIn.tail ∧ s.egress <+: s'.egress

/-- R142: a packet of fewer than 16 bytes, whatever they are, raises `MalformedHeader(ShortHeader)`; the result record is
that of R345. -/
def Obligations.ShortPacketsAreMalformed : Prop :=
  ∀ (s : State) (P : Packet) (rest : List Input), s.pktIn = .packet P :: rest →
    limitAdmits s.cfg.maxPktLen P.length = true → P.length < 16 →
    step s = .next { s with
      pktIn := rest
      egress := s.egress ++ [⟨[], ⟨.malformedHeader, .shortHeader, none, .dropped, false, P.length⟩⟩] }

/-- R156: a packet with a header and an unknown magic is dropped and reported as `MalformedHeader(UnknownMagic)`, and nothing else
changes. -/
def Obligations.UnknownMagicsAreDropped : Prop :=
  ∀ (s : State) (P : Packet) (rest : List Input), s.pktIn = .packet P :: rest →
    limitAdmits s.cfg.maxPktLen P.length = true → 16 ≤ P.length → classify P = .ok none →
    step s = .next { s with
      pktIn := rest
      egress := s.egress ++ [⟨[], ⟨.malformedHeader, .unknownMagic, none, .dropped, false, P.length⟩⟩] }

/-- R345, R349: a packet whose result is a fault has no other effect: no emission, no buffer write, action `Dropped`. -/
def Obligations.FaultedPacketsHaveNoEffect : Prop :=
  ∀ (s s' : State) (tr : Transaction), step s = .next s' → s'.egress = s.egress ++ [tr] → tr.res.code ≠ .ok →
    s'.near = s.near ∧ s'.far = s.far ∧ tr.out = [] ∧ tr.res.action = .dropped

/-- R115, R79 (30_encoding.md §4): the bytes outside the fields of a decoded packet never change the result: two packets of one
length, with the same magic and the same bytes from offset 16 up to where the parse cursor ends, give the same step. -/
def Obligations.DontCareBytesNeverChangeTheResult : Prop :=
  ∀ (s : State) (P Q : Packet) (rest : List Input) (i : Instr), decode P = .ok i → Q.length = P.length →
    Q.take 4 = P.take 4 → (∀ a, 16 ≤ a → a < i.cursor → Q[a]? = P[a]?) →
    step (s.withPending (.packet Q :: rest)) = step (s.withPending (.packet P :: rest))

/-! ## STATUS -/

/-- R150 (40_classify_dispatch.md §4): STATUS, with a payload of 97 bytes or more, publishes its Status Report, in either mode and from
any state; nothing else of the state changes. -/
def Obligations.StatusPublishesItsReport : Prop :=
  ∀ (h : HeaderRest) (w : StatusWire) (rest : List Byte) (s : State),
    exec (.status h (.full w rest)) s = .next { s with
      egress := s.egress ++ [⟨[.publishStatus (statusReportOf w)],
        ⟨.ok, .none, some .status, .statusPublished, false, 113 + rest.length⟩⟩] }

/-- R170: a STATUS packet of 16 to 112 bytes raises `TruncatedPacket(StatusPayload)` and yields no record; from 113 bytes on
it publishes one. -/
def Obligations.StatusNeedsNinetySevenPayloadBytes : Prop :=
  ∀ (s : State) (P : Packet) (rest : List Input), s.pktIn = .packet P :: rest →
    limitAdmits s.cfg.maxPktLen P.length = true → classify P = .ok (some .status) →
    (P.length < 113 → step s = .next { s with
      pktIn := rest
      egress := s.egress ++ [⟨[], ⟨.truncatedPacket, .statusPayload, some .status, .dropped, false, P.length⟩⟩] }) ∧
    (113 ≤ P.length → ∃ st, step s = .next { s with
      pktIn := rest
      egress := s.egress ++ [⟨[.publishStatus st], ⟨.ok, .none, some .status, .statusPublished, false, P.length⟩⟩] })

/-- R172: every line of `DecodeStatus`: each raw field of the report is `MemRead` at its offset, the serial number `MemBytes`, and each
scaled field its formula, in the operations and the order of the rule. -/
def Obligations.StatusReportFieldsFollowTheirRules : Prop :=
  ∀ (P : Packet) (h : HeaderRest) (w : StatusWire) (rest : List Byte), decode P = .ok (.status h (.full w rest)) →
    let st := statusReportOf w
    memRead P 16 2 = .ok st.crc.toNat ∧
    memRead P 18 2 = .ok st.len.toNat ∧
    memRead P 20 1 = .ok st.sqc.toNat ∧
    memRead P 21 8 = .ok st.partNumber.toNat ∧
    memRead P 29 8 = .ok st.assemblyPartNumber.toNat ∧
    memRead P 37 8 = .ok st.swPartNumber.toNat ∧
    memBytes P 45 26 = .ok st.serialNumber ∧
    memRead P 71 3 = .ok st.blVersion.toNat ∧
    (∀ b1 b2 b3, memRead P 71 1 = .ok b1 → memRead P 72 1 = .ok b2 → memRead P 73 1 = .ok b3 →
      st.blVersion.toNat = (b1 <<< 16) ||| (b2 <<< 8) ||| b3) ∧
    memRead P 74 4 = .ok st.blCrc.toNat ∧
    memRead P 78 3 = .ok st.swVersion.toNat ∧
    (∀ b1 b2 b3, memRead P 78 1 = .ok b1 → memRead P 79 1 = .ok b2 → memRead P 80 1 = .ok b3 →
      st.swVersion.toNat = (b1 <<< 16) ||| (b2 <<< 8) ||| b3) ∧
    memRead P 81 4 = .ok st.swCrc.toNat ∧
    memRead P 85 8 = .ok st.utcTimestamp.toNat ∧
    memRead P 93 4 = .ok st.timestamp.toNat ∧
    memRead P 97 4 = .ok st.currentDampingRaw.toNat ∧
    st.currentDamping =
      fdiv (fsub (fmul (toF st.currentDampingRaw.toNat) 0x3FEDCD65003B9AC7) (toF 2000000000)) (toF 100000000) ∧
    memRead P 101 1 = .ok st.opState.toNat ∧
    memRead P 102 1 = .ok st.currentFarCF.toNat ∧
    memRead P 103 1 = .ok st.currentNearCF.toNat ∧
    memRead P 104 1 = .ok st.defective.toNat ∧
    memRead P 105 1 = .ok st.supplyVoltLimit.toNat ∧
    memRead P 106 1 = .ok st.sensorOffTemp.toNat ∧
    memRead P 107 1 = .ok st.gmMissing.toNat ∧
    memRead P 108 1 = .ok st.txOutReduced.toNat ∧
    memRead P 109 2 = .ok st.maximumRangeFarRaw.toNat ∧
    st.maximumRangeFar = fmul (toF st.maximumRangeFarRaw.toNat) 0x3FB999999999999A ∧
    memRead P 111 2 = .ok st.maximumRangeNearRaw.toNat ∧
    st.maximumRangeNear = fmul (toF st.maximumRangeNearRaw.toNat) 0x3FB999999999999A

/-- R111: a version field is `(b1 << 16) | (b2 << 8) | b3`: the number its three bytes spell, below 2^24. -/
def Obligations.VersionBytesSpellOneNumber : Prop :=
  ∀ b1 b2 b3 : U8,
    (assembleVersion b1 b2 b3).toNat = b1.toNat * 2 ^ 16 + b2.toNat * 2 ^ 8 + b3.toNat ∧
    (assembleVersion b1 b2 b3).toNat = beNat [b1, b2, b3] ∧
    (assembleVersion b1 b2 b3).toNat < 2 ^ 24

/-! ## Event packets: decoding -/

/-- R222, R260: every line of `DecodeEvent`; its list is `DecodeDetections`, chunk by chunk in wire order, each element
`DecodeChunk` of its chunk (`DetectionFieldsFollowTheirRules` states the fields of an element one by one). -/
def Obligations.EventReportFieldsFollowTheirRules : Prop :=
  ∀ (P : Packet) (t : EventType) (h : HeaderRest) (w : EventWire) (chunks : List ChunkWire) (rest : List Byte),
    decode P = .ok (eventInstr t h (.full w chunks rest)) →
    let ev := eventReportOf t w chunks
    memRead P 16 2 = .ok ev.crc.toNat ∧
    memRead P 18 2 = .ok ev.len.toNat ∧
    memRead P 20 1 = .ok ev.sqc.toNat ∧
    memRead P 21 1 = .ok ev.messageCounter.toNat ∧
    memRead P 22 8 = .ok ev.utcTimeStamp.toNat ∧
    memRead P 30 4 = .ok ev.timestamp.toNat ∧
    memRead P 34 4 = .ok ev.measureCounter.toNat ∧
    memRead P 38 4 = .ok ev.cycleCounter.toNat ∧
    memRead P 42 2 = .ok ev.nofDetections.toNat ∧
    memRead P 44 2 = .ok ev.vambigRaw.toNat ∧
    ev.vambig = fmul (toF (s16 ev.vambigRaw)) (fdiv (toF 200) (toF 65534)) ∧
    memRead P 46 1 = .ok ev.centerFreq.toNat ∧
    memRead P 47 1 = .ok ev.detectionsInPacket.toNat ∧
    (0 < ev.detectionsInPacket.toNat → ev.detectionList =
      (List.range (min ev.detectionsInPacket.toNat ((P.length - 48) / 28))).map (Reference.decodeChunk P)) ∧
    (ev.detectionsInPacket.toNat = 0 → ev.detectionList = []) ∧
    classify P = .ok (some (headerTypeOf ev.eventType))

/-- R263, R283: every line of `DecodeChunk`, for element `j` of the list, from chunk `j` at offset `48 + 28 j`. -/
def Obligations.DetectionFieldsFollowTheirRules : Prop :=
  ∀ (P : Packet) (e : EventReport) (j : Nat) (d : Detection), packetReport P = some e → e.detectionList[j]? = some d →
    memRead P (48 + 28 * j) 2 = .ok d.rangeRaw.toNat ∧
    d.range = fmul (fdiv (toF d.rangeRaw.toNat) (toF 65534)) (toF 300) ∧
    memRead P (48 + 28 * j + 2) 2 = .ok d.relativeRadialVelocityRaw.toNat ∧
    d.relativeRadialVelocity = fmul (fdiv (toF (s16 d.relativeRadialVelocityRaw)) (toF 65534)) (toF 300) ∧
    memRead P (48 + 28 * j + 4) 2 = .ok d.azimuthalAngle0Raw.toNat ∧
    d.azimuthalAngle0 = fmul (fdiv (toF (s16 d.azimuthalAngle0Raw)) (toF 65534)) twoPi ∧
    memRead P (48 + 28 * j + 6) 2 = .ok d.azimuthalAngle1Raw.toNat ∧
    d.azimuthalAngle1 = fmul (fdiv (toF (s16 d.azimuthalAngle1Raw)) (toF 65534)) twoPi ∧
    memRead P (48 + 28 * j + 8) 2 = .ok d.elevationAngleRaw.toNat ∧
    d.elevationAngle = fmul (fdiv (toF (s16 d.elevationAngleRaw)) (toF 65534)) twoPi ∧
    memRead P (48 + 28 * j + 10) 2 = .ok d.radarCrossSection0Raw.toNat ∧
    d.radarCrossSection0 = fmul (fdiv (toF (s16 d.radarCrossSection0Raw)) (toF 65534)) (toF 200) ∧
    memRead P (48 + 28 * j + 12) 2 = .ok d.radarCrossSection1Raw.toNat ∧
    d.radarCrossSection1 = fmul (fdiv (toF (s16 d.radarCrossSection1Raw)) (toF 65534)) (toF 200) ∧
    memRead P (48 + 28 * j + 14) 1 = .ok d.probabilityAz0Raw.toNat ∧
    d.probabilityAz0 = fdiv (toF d.probabilityAz0Raw.toNat) (toF 254) ∧
    memRead P (48 + 28 * j + 15) 1 = .ok d.probabilityAz1Raw.toNat ∧
    d.probabilityAz1 = fdiv (toF d.probabilityAz1Raw.toNat) (toF 254) ∧
    memRead P (48 + 28 * j + 16) 2 = .ok d.rangeVarianceRaw.toNat ∧
    d.rangeVariance = fmul (fdiv (toF d.rangeVarianceRaw.toNat) (toF 65534)) (toF 10) ∧
    memRead P (48 + 28 * j + 18) 2 = .ok d.radialVelocityVarianceRaw.toNat ∧
    d.radialVelocityVariance = fmul (fdiv (toF d.radialVelocityVarianceRaw.toNat) (toF 65534)) (toF 10) ∧
    memRead P (48 + 28 * j + 20) 2 = .ok d.az0VarianceRaw.toNat ∧
    d.az0Variance = fdiv (toF d.az0VarianceRaw.toNat) (toF 65534) ∧
    memRead P (48 + 28 * j + 22) 2 = .ok d.az1VarianceRaw.toNat ∧
    d.az1Variance = fdiv (toF d.az1VarianceRaw.toNat) (toF 65534) ∧
    memRead P (48 + 28 * j + 24) 2 = .ok d.elAngleVarianceRaw.toNat ∧
    d.elAngleVariance = fdiv (toF d.elAngleVarianceRaw.toNat) (toF 65534) ∧
    memRead P (48 + 28 * j + 26) 1 = .ok d.probabilityFalseDetectionRaw.toNat ∧
    d.probabilityFalseDetection = fdiv (toF d.probabilityFalseDetectionRaw.toNat) (toF 254) ∧
    memRead P (48 + 28 * j + 27) 1 = .ok d.snrRaw.toNat ∧
    d.snr = fdiv (fadd (toF d.snrRaw.toNat) (toF 110)) (toF 10)

/-- R238: the length of the detection list of every Event Report. -/
def Obligations.DetectionListLengthLaw : Prop :=
  ∀ (P : Packet) (e : EventReport), packetReport P = some e →
    e.detectionList.length = min e.detectionsInPacket.toNat ((P.length - 48) / 28)

/-- R285, R346 (which packets raise the warning; its value beside `BatchOverflow` is log entry 9): the mismatch flag is set exactly when
fewer whole chunks are present than declared, and never for a declared count of 0. -/
def Obligations.CountMismatchMeansMissingChunks : Prop :=
  ∀ (P : Packet) (e : EventReport), packetReport P = some e →
    countMismatch e = decide ((P.length - 48) / 28 < e.detectionsInPacket.toNat) ∧
    (e.detectionsInPacket.toNat = 0 → countMismatch e = false)

/-- R36, R285, R345, R353 (its value beside `BatchOverflow` is log entry 9): the flag in the result of every packet is set
exactly when the packet has an Event Report with fewer whole chunks than it declares. So it is false for STATUS, malformed
and truncated packets and for a declared count of 0, and it stands beside `Ok` or `BatchOverflow` only. -/
def Obligations.ResultFlagsExactlyTheMissingChunks : Prop :=
  ∀ (s s' : State) (P : Packet) (rest : List Input) (tr : Transaction), s.pktIn = .packet P :: rest →
    step s = .next s' → s'.egress = s.egress ++ [tr] →
    (tr.res.countMismatch = true ↔
      ∃ e, packetReport P = some e ∧ (P.length - 48) / 28 < e.detectionsInPacket.toNat) ∧
    (tr.res.countMismatch = true → tr.res.code = .ok ∨ tr.res.code = .batchOverflow)

/-- R220: an event packet of 16 to 47 bytes raises `TruncatedPacket(EventPayload)` and reaches no buffer; from 48 bytes on it
has an Event Report, however many of its chunks are missing. -/
def Obligations.EventNeedsThirtyTwoPayloadBytes : Prop :=
  ∀ (s : State) (P : Packet) (rest : List Input) (t : EventType), s.pktIn = .packet P :: rest →
    limitAdmits s.cfg.maxPktLen P.length = true → classify P = .ok (some (headerTypeOf t)) →
    (P.length < 48 → packetReport P = none ∧ step s = .next { s with
      pktIn := rest
      egress := s.egress ++
        [⟨[], ⟨.truncatedPacket, .eventPayload, some (headerTypeOf t), .dropped, false, P.length⟩⟩] }) ∧
    (48 ≤ P.length → ∃ e, packetReport P = some e ∧ e.eventType = t)

/-- R286, S8: the all-zero chunk: every scaled field is `+0.0` but `SNR`, which is 11.0. -/
def Obligations.AllZeroChunkDecodes : Prop :=
  ∃ c, decodeChunkWire (List.replicate 28 0) 0 = .ok c ∧
    detectionOf c =
      { rangeRaw := 0, range := 0, relativeRadialVelocityRaw := 0, relativeRadialVelocity := 0, azimuthalAngle0Raw := 0,
        azimuthalAngle0 := 0, azimuthalAngle1Raw := 0, azimuthalAngle1 := 0, elevationAngleRaw := 0, elevationAngle := 0,
        radarCrossSection0Raw := 0, radarCrossSection0 := 0, radarCrossSection1Raw := 0, radarCrossSection1 := 0,
        probabilityAz0Raw := 0, probabilityAz0 := 0, probabilityAz1Raw := 0, probabilityAz1 := 0, rangeVarianceRaw := 0,
        rangeVariance := 0, radialVelocityVarianceRaw := 0, radialVelocityVariance := 0, az0VarianceRaw := 0,
        az0Variance := 0, az1VarianceRaw := 0, az1Variance := 0, elAngleVarianceRaw := 0, elAngleVariance := 0,
        probabilityFalseDetectionRaw := 0, probabilityFalseDetection := 0, snrRaw := 0, snr := 0x4026000000000000 }

/-! ## Event packets: FAR0, FAR1, NEAR0, NEAR1, NEAR2 -/

/-- R151 to R155, R302: in Aggregated mode an event packet of any type whose buffer is `Empty` makes it
`Holding(Timestamp, [e])`, with no emission; the other buffer and the rest of the state stay. -/
def Obligations.FirstReportSeedsItsBuffer : Prop :=
  ∀ (t : EventType) (h : HeaderRest) (w : EventWire) (chunks : List ChunkWire) (rest : List Byte) (s : State),
    s.cfg.emitMode = .aggregated → s.buf (cat t) = .empty →
    exec (eventInstr t h (.full w chunks rest)) s = .next
      ((s.setBuf (cat t) (.holding w.timeStamp [eventReportOf t w chunks])).answer []
        ⟨.ok, .none, some (headerTypeOf t), .buffered, decide (w.detectionsInPacket.toNat > chunks.length),
          48 + (28 * chunks.length + rest.length)⟩)

/-- R151 to R155, R303, R304: in Aggregated mode an event packet with the held timestamp, and room in the buffer, is
appended, with no emission. -/
def Obligations.EqualTimestampAppends : Prop :=
  ∀ (t : EventType) (h : HeaderRest) (w : EventWire) (chunks : List ChunkWire) (rest : List Byte) (s : State)
    (list : List EventReport),
    s.cfg.emitMode = .aggregated → s.buf (cat t) = .holding w.timeStamp list →
    s.cfg.batchCap ≠ .finite list.length →
    exec (eventInstr t h (.full w chunks rest)) s = .next
      ((s.setBuf (cat t) (.holding w.timeStamp (list ++ [eventReportOf t w chunks]))).answer []
        ⟨.ok, .none, some (headerTypeOf t), .buffered, decide (w.detectionsInPacket.toNat > chunks.length),
          48 + (28 * chunks.length + rest.length)⟩)

/-- R151 to R155, R304, R305: in Aggregated mode an event packet with any other timestamp flushes the whole held list,
without the arriving report, and reseeds the buffer with it alone. -/
def Obligations.DifferentTimestampFlushes : Prop :=
  ∀ (t : EventType) (h : HeaderRest) (w : EventWire) (chunks : List ChunkWire) (rest : List Byte) (s : State)
    (ts : U32) (list : List EventReport),
    s.cfg.emitMode = .aggregated → s.buf (cat t) = .holding ts list → w.timeStamp ≠ ts →
    exec (eventInstr t h (.full w chunks rest)) s = .next
      ((s.setBuf (cat t) (.holding w.timeStamp [eventReportOf t w chunks])).answer [.flushBatch (cat t) ts list]
        ⟨.ok, .none, some (headerTypeOf t), .flushed, decide (w.detectionsInPacket.toNat > chunks.length),
          48 + (28 * chunks.length + rest.length)⟩)

/-- R309, R345 (the mismatch flag beside `BatchOverflow` is log entry 9): with a finite capacity that the held list has
reached, a report with the held timestamp is dropped and reported, and the held batch stays. -/
def Obligations.FullBufferOverflows : Prop :=
  ∀ (t : EventType) (h : HeaderRest) (w : EventWire) (chunks : List ChunkWire) (rest : List Byte) (s : State)
    (list : List EventReport),
    s.cfg.emitMode = .aggregated → s.buf (cat t) = .holding w.timeStamp list →
    s.cfg.batchCap = .finite list.length →
    exec (eventInstr t h (.full w chunks rest)) s = .next { s with
      egress := s.egress ++ [⟨[], ⟨.batchOverflow, .none, some (headerTypeOf t), .dropped,
        decide (w.detectionsInPacket.toNat > chunks.length), 48 + (28 * chunks.length + rest.length)⟩⟩] }

/-- R241, R147, R307: in Immediate mode an event packet of any type is published exactly when its declared count is not 0,
even with an empty list, and suppressed otherwise; no buffer changes. -/
def Obligations.ImmediateModePublishesOrSuppresses : Prop :=
  ∀ (t : EventType) (h : HeaderRest) (w : EventWire) (chunks : List ChunkWire) (rest : List Byte) (s : State),
    s.cfg.emitMode = .immediate →
    exec (eventInstr t h (.full w chunks rest)) s = .next { s with
      egress := s.egress ++
        [if w.detectionsInPacket = 0 then
          ⟨[], ⟨.ok, .none, some (headerTypeOf t), .eventSuppressed, false,
            48 + (28 * chunks.length + rest.length)⟩⟩
        else
          ⟨[.publishEvent (eventReportOf t w chunks)], ⟨.ok, .none, some (headerTypeOf t), .eventPublished,
            decide (w.detectionsInPacket.toNat > chunks.length), 48 + (28 * chunks.length + rest.length)⟩⟩] }

/-- R314: an arrival in one category leaves the other buffer as it is, and emits no batch of the other category. -/
def Obligations.BuffersNeverInteract : Prop :=
  ∀ (s : State) (b b' : Category) (e : EventReport) (mm : Bool) (len : Nat), b' ≠ b →
    (aggArrive s b e mm len).buf b' = s.buf b' ∧
    ∃ tr, (aggArrive s b e mm len).egress = s.egress ++ [tr] ∧ ∀ ts list, .flushBatch b' ts list ∉ tr.out

/-- R307: a packet that has no Event Report (STATUS, or dropped before aggregation), and any packet in Immediate mode,
leaves both buffers as they are. -/
def Obligations.OthersNeverReachTheAggregator : Prop :=
  ∀ (s s' : State) (P : Packet) (rest : List Input), s.pktIn = .packet P :: rest → step s = .next s' →
    (packetReport P = none ∨ s.cfg.emitMode = .immediate) → s'.near = s.near ∧ s'.far = s.far

/-- R310: a buffer that is `Holding` is `Holding` after every step that is not a reset; the held batch stays held, under its
timestamp and with no report taken out, and is not emitted, unless the packet is a report of the same category with another
timestamp; and a reset flushes nothing. -/
def Obligations.HeldBatchWaitsForAnotherTimestamp : Prop :=
  (∀ (s s' : State) (b : Category) (ts : U32) (list : List EventReport), s.buf b = .holding ts list →
    step s = .next s' → s.pktIn.head? ≠ some .reset →
    (∃ more, s'.buf b = .holding ts (list ++ more) ∧ batches b s'.egress = batches b s.egress) ∨
    (∃ P e, s.pktIn.head? = some (.packet P) ∧ packetReport P = some e ∧ cat e.eventType = b ∧ e.timestamp ≠ ts ∧
      s'.buf b = .holding e.timestamp [e] ∧ batches b s'.egress = batches b s.egress ++ [(ts, list)])) ∧
  ∀ s s' : State, s.pktIn.head? = some .reset → step s = .next s' → s'.egress = s.egress

/-- R320: which egress ports a packet drives: `result_out` always; `status_out` for a STATUS packet that decodes;
`event_out` in Immediate mode for an event with a declared count above 0; `batch_out` in Aggregated mode when the buffer
holds another timestamp; and at most one of these three. -/
def Obligations.PortsAreDrivenAsTabled : Prop :=
  ∀ (s s' : State) (P : Packet) (rest : List Input), s.pktIn = .packet P :: rest → step s = .next s' →
    ∃ tr, s'.egress = s.egress ++ [tr] ∧ .resultOut ∈ portsDriven tr ∧ (portsDriven tr).length ≤ 2 ∧
      (.statusOut ∈ portsDriven tr ↔ ∃ h w rest, decode P = .ok (.status h (.full w rest))) ∧
      (.eventOut ∈ portsDriven tr ↔
        s.cfg.emitMode = .immediate ∧ ∃ e, packetReport P = some e ∧ e.detectionsInPacket ≠ 0) ∧
      (.batchOut ∈ portsDriven tr ↔
        s.cfg.emitMode = .aggregated ∧
          ∃ e ts list, packetReport P = some e ∧ s.buf (cat e.eventType) = .holding ts list ∧ e.timestamp ≠ ts)

/-! ## Runs -/

/-- R47, R31, R311: the invariant holds right after reset, with the default `CFG` and with any legal one. -/
def Obligations.InvariantHoldsAtReset : Prop :=
  State.reset.Inv ∧ ∀ cfg : Cfg, Cfg.legal cfg = true → (State.boot cfg).Inv

/-- R311, R31 (a), (b), (c), (e), with R39 for the held reports: every step from a state that meets the invariant gives one
that does. (The order of R31 (d) is what `NoReportIsDroppedOrDuplicated` states.) -/
def Obligations.InvariantIsKeptByEveryStep : Prop :=
  ∀ s s' : State, s.Inv → step s = .next s' → s'.Inv

/-- R312, R31 (d): in Aggregated mode without a capacity, after any stream of packets, from any state, the reports of each category
that are in a flushed batch or in its buffer are those that were there before and then every report that arrived, once each
and in arrival order; and the run completes. -/
def Obligations.NoReportIsDroppedOrDuplicated : Prop :=
  ∀ (s : State) (ps : List Packet), s.cfg.emitMode = .aggregated → s.cfg.batchCap = .unbounded →
    s.cfg.maxPktLen = .unbounded →
    ∃ s', runStream s ps = .next s' ∧ ∀ b, accounted b s' = accounted b s ++ arrivals b ps

/-- R313, R398: from reset, in Aggregated mode without a capacity, the batches of each category, flushed or held, are the maximal runs of
equal consecutive timestamps of the reports of that category, whatever else the stream holds. -/
def Obligations.BatchesAreTheMaximalRuns : Prop :=
  ∀ (ps : List Packet),
    ∃ s', runStream (State.boot { emitMode := .aggregated }) ps = .next s' ∧
      ∀ b, allBatches b s' = timestampRuns (arrivals b ps)

/-- R83, R314: what one category holds and has flushed depends on its own packets only: two streams with the same reports of a
category, under any one `CFG`, leave the same buffer and the same batches of that category. -/
def Obligations.CategoriesDoNotInterfere : Prop :=
  ∀ (cfg : Cfg) (b : Category) (ps qs : List Packet) (s t : State), arrivals b ps = arrivals b qs →
    runStream (State.boot cfg) ps = .next s → runStream (State.boot cfg) qs = .next t →
    s.buf b = t.buf b ∧ batches b s.egress = batches b t.egress

/-- R312, R313 as a step from every state: in Aggregated mode without a capacity the step on a packet takes the batches of a
category, flushed and held, to themselves when the packet has no report of the category; to themselves with the report put
into the held batch when it has the held timestamp; and else to themselves with a new batch of the report alone at the end. -/
def Obligations.OneStepExtendsOrStartsABatch : Prop :=
  ∀ (s : State) (P : Packet) (rest : List Input) (b : Category), s.pktIn = .packet P :: rest →
    limitAdmits s.cfg.maxPktLen P.length = true → s.cfg.emitMode = .aggregated → s.cfg.batchCap = .unbounded →
    ∃ s', step s = .next s' ∧
      (arrivals b [P] = [] → allBatches b s' = allBatches b s) ∧
      ∀ e, packetReport P = some e → cat e.eventType = b →
        (∀ list, s.buf b = .holding e.timestamp list →
          allBatches b s' = batches b s.egress ++ [(e.timestamp, list ++ [e])]) ∧
        ((∀ list, s.buf b ≠ .holding e.timestamp list) →
          allBatches b s' = allBatches b s ++ [(e.timestamp, [e])])

/-- R83, R314 as a step from every two states: under any one `CFG`, from two states that agree on one category, whatever
else they hold, packets with the same report of that category (or none) lead to states that agree on it. -/
def Obligations.OneStepKeepsCategoriesApart : Prop :=
  ∀ (s t s' t' : State) (P Q : Packet) (ps qs : List Input) (b : Category),
    s.cfg = t.cfg → s.buf b = t.buf b → batches b s.egress = batches b t.egress →
    s.pktIn = .packet P :: ps → t.pktIn = .packet Q :: qs → arrivals b [P] = arrivals b [Q] →
    step s = .next s' → step t = .next t' →
    s'.cfg = t'.cfg ∧ s'.buf b = t'.buf b ∧ batches b s'.egress = batches b t'.egress

/-- R316: reports of one category with timestamps 5, 5, 5, 7 give no flush on the first three arrivals and one flush, of
the three, on the fourth, after which the buffer holds the fourth alone. -/
def Obligations.FiveFiveFiveSevenFlushesOnce : Prop :=
  ∀ (b : Category) (P1 P2 P3 P4 : Packet) (e1 e2 e3 e4 : EventReport),
    packetReport P1 = some e1 → packetReport P2 = some e2 → packetReport P3 = some e3 → packetReport P4 = some e4 →
    cat e1.eventType = b → cat e2.eventType = b → cat e3.eventType = b → cat e4.eventType = b →
    e1.timestamp = 5 → e2.timestamp = 5 → e3.timestamp = 5 → e4.timestamp = 7 →
    ∃ s3 s4, runStream (State.boot { emitMode := .aggregated }) [P1, P2, P3] = .next s3 ∧
      emissions s3.egress = [] ∧
      runStream (State.boot { emitMode := .aggregated }) [P1, P2, P3, P4] = .next s4 ∧
      emissions s4.egress = [.flushBatch b 5 [e1, e2, e3]] ∧ s4.buf b = .holding 7 [e4]

/-- R380, R381, R383: a reset empties both buffers, whatever they hold, emits nothing, and leaves `CFG` alone. -/
def Obligations.ResetDiscardsAndEmitsNothing : Prop :=
  ∀ (s : State) (rest : List Input), s.pktIn = .reset :: rest →
    step s = .next { near := .empty, far := .empty, cfg := s.cfg, pktIn := rest, egress := s.egress }

/-- R47, R37: what reset leaves: both buffers `Empty`, the default `CFG`, and nothing emitted (that nothing is pending
is the model's choice, log entry 5). -/
def Obligations.ResetStateIsTheSpecs : Prop :=
  State.reset.near = .empty ∧ State.reset.far = .empty ∧
  State.reset.cfg = { emitMode := .aggregated, batchCap := .unbounded, maxPktLen := .unbounded } ∧
  State.reset.pktIn = [] ∧ State.reset.egress = []

/-- R108, R341, R37: the numeric codes of the header types, categories, emission modes, results and sub-causes. -/
def Obligations.CodesAreTheTabledOnes : Prop :=
  [some .status, some .far0, some .far1, some .near0, some .near1, some .near2, none].map headerTypeCode
    = [0, 1, 2, 3, 4, 5, 7] ∧
  [Category.far, .near].map categoryCode = [0, 1] ∧
  [EmitMode.aggregated, .immediate].map emitModeCode = [0, 1] ∧
  [ResCode.ok, .malformedHeader, .truncatedPacket, .batchOverflow].map resCodeNumber = [0, 1, 2, 4] ∧
  [ResSub.none, .shortHeader, .unknownMagic, .statusPayload, .eventPayload].map resSubNumber = [0, 1, 2, 3, 4]

/-! ## Scaled values -/

/-- R14: the four operations on finite values are exact arithmetic rounded to the nearest binary64, ties to even (binary64
itself is the spec's reference, log entry 1). -/
def Obligations.ArithmeticRoundsToNearestEven : Prop :=
  ∀ a b : F64, fIsFinite a = true → fIsFinite b = true →
    NearestEven (fadd a b) (fValue a + fValue b) ∧
    NearestEven (fsub a b) (fValue a - fValue b) ∧
    NearestEven (fmul a b) (fValue a * fValue b) ∧
    (fValue b ≠ 0 → NearestEven (fdiv a b) (fValue a / fValue b))

/-- R14: `toF` is exact on the integers below 2^53 in magnitude. -/
def Obligations.IntegersConvertExactly : Prop :=
  ∀ v : Int, v.natAbs < 2 ^ 53 → fIsFinite (toF v) = true ∧ fValue (toF v) = v

/-- R267, R7 (PRESUMED, log entry 3): `TWO_PI` is within half a unit in the last place of 2π, so no binary64 is nearer. -/
def Obligations.TwoPiIsNearestToTwoPi : Prop :=
  fIsFinite twoPi = true ∧ |((fValue twoPi : ℚ) : ℝ) - 2 * Real.pi| < 1 / 2 ^ 51

/-- R262, R14, decision D7: each of the sixteen scaled fields of a Detection is its formula over the rationals, within the
document's tolerance of 1e-9 relative (for the angles with the constant `TWO_PI`). -/
def Obligations.DetectionValuesAreWithinTolerance : Prop :=
  ∀ c : ChunkWire,
    let d := detectionOf c
    WithinTolerance d.range ((c.range.toNat : ℚ) / 65534 * 300) ∧
    WithinTolerance d.relativeRadialVelocity ((c.vrelRad.toInt : ℚ) / 65534 * 300) ∧
    WithinTolerance d.azimuthalAngle0 ((c.azAng0.toInt : ℚ) / 65534 * fValue twoPi) ∧
    WithinTolerance d.azimuthalAngle1 ((c.azAng1.toInt : ℚ) / 65534 * fValue twoPi) ∧
    WithinTolerance d.elevationAngle ((c.elAng.toInt : ℚ) / 65534 * fValue twoPi) ∧
    WithinTolerance d.radarCrossSection0 ((c.rcs0.toInt : ℚ) / 65534 * 200) ∧
    WithinTolerance d.radarCrossSection1 ((c.rcs1.toInt : ℚ) / 65534 * 200) ∧
    WithinTolerance d.probabilityAz0 ((c.prob0.toNat : ℚ) / 254) ∧
    WithinTolerance d.probabilityAz1 ((c.prob1.toNat : ℚ) / 254) ∧
    WithinTolerance d.rangeVariance ((c.rangeVar.toNat : ℚ) / 65534 * 10) ∧
    WithinTolerance d.radialVelocityVariance ((c.vrelRadVar.toNat : ℚ) / 65534 * 10) ∧
    WithinTolerance d.az0Variance ((c.azAngVar0.toNat : ℚ) / 65534) ∧
    WithinTolerance d.az1Variance ((c.azAngVar1.toNat : ℚ) / 65534) ∧
    WithinTolerance d.elAngleVariance ((c.elAngVar.toNat : ℚ) / 65534) ∧
    WithinTolerance d.probabilityFalseDetection ((c.pdh0.toNat : ℚ) / 254) ∧
    WithinTolerance d.snr (((c.snr.toNat : ℚ) + 110) / 10)

/-- R186, R195, R196, R232, decision D7: the scaled fields of the Status Report and `Vambig`: within 1e-9 relative, and for
`CurrentDamping` within 1e-9 of 20 dB; no raw value gives a damping of exactly 0. -/
def Obligations.StatusAndVambigValuesAreWithinTolerance : Prop :=
  (∀ raw : U32, fIsFinite (scaleDamping raw) = true ∧ fValue (scaleDamping raw) ≠ 0 ∧
    |fValue (scaleDamping raw) -
      ((raw.toNat : ℚ) * (931322575049159 / 10 ^ 15) - 2000000000) / 100000000| ≤ 20 / 10 ^ 9) ∧
  (∀ raw : U16, WithinTolerance (scaleMaxRange raw) ((raw.toNat : ℚ) / 10)) ∧
  (∀ raw : I16, WithinTolerance (scaleVambig raw) ((raw.toInt : ℚ) * (200 / 65534)))

/-- R287: the ranges of the scaled fields of a Detection over all raw values, with the bit patterns of 95_test_vectors.md
V-DT2 for the ends; none is NaN, infinite, subnormal or negative zero. -/
def Obligations.DetectionRangesHold : Prop :=
  ∀ c : ChunkWire,
    let d := detectionOf c
    let ordinary := fun (x : F64) => x = 0 ∨ (fExpField x ≠ 0 ∧ fExpField x ≠ 2047)
    let within := fun (lo hi x : F64) => ordinary x ∧ fValue lo ≤ fValue x ∧ fValue x ≤ fValue hi
    within 0 0x4072C012C025804B d.range ∧
    within 0xC062C025804B0096 0x4062C00000000000 d.relativeRadialVelocity ∧
    within 0xC009222D989F5E57 0x400921FB54442D18 d.azimuthalAngle0 ∧
    within 0xC009222D989F5E57 0x400921FB54442D18 d.azimuthalAngle1 ∧
    within 0xC009222D989F5E57 0x400921FB54442D18 d.elevationAngle ∧
    within 0xC0590032006400C8 0x4059000000000000 d.radarCrossSection0 ∧
    within 0xC0590032006400C8 0x4059000000000000 d.radarCrossSection1 ∧
    within 0 0x3FF0102040810204 d.probabilityAz0 ∧
    within 0 0x3FF0102040810204 d.probabilityAz1 ∧
    within 0 0x3FF0102040810204 d.probabilityFalseDetection ∧
    within 0 0x4024001400280050 d.rangeVariance ∧
    within 0 0x4024001400280050 d.radialVelocityVariance ∧
    within 0 0x3FF0001000200040 d.az0Variance ∧
    within 0 0x3FF0001000200040 d.az1Variance ∧
    within 0 0x3FF0001000200040 d.elAngleVariance ∧
    within 0x4026000000000000 0x4042400000000000 d.snr
end

