-- ==== Sys2Proof/Laws/Memory.lean ====
section
/-! SUPPORT. The packet buffer: what a read does, big-endian numbers and their bytes, and the packet as memory cells in
canonical form. -/

namespace Sys2Proof

/-! ## Reads within the packet -/

theorem memBytes_of_le {P : Packet} {a n : Nat} (h : a + n ≤ P.length) :
    memBytes P a n = .ok ((P.drop a).take n) := if_pos h

theorem memBytes_of_gt {P : Packet} {a n : Nat} (h : P.length < a + n) :
    memBytes P a n = .error (.readPastEnd a) := if_neg (by omega)

theorem memRead_of_le {P : Packet} {a n : Nat} (h : a + n ≤ P.length) :
    memRead P a n = .ok (beNat ((P.drop a).take n)) := by
  simp only [memRead, memBytes_of_le h]

theorem fieldAt_of_le {P : Packet} {a n : Nat} (h : a + n ≤ P.length) :
    fieldAt P a n = .ok (BitVec.ofNat (8 * n) (beNat ((P.drop a).take n))) := by
  simp only [fieldAt, memRead_of_le h]

theorem u8At_of_le {P : Packet} {a : Nat} (h : a + 1 ≤ P.length) :
    u8At P a = .ok (BitVec.ofNat 8 (beNat ((P.drop a).take 1))) := fieldAt_of_le h

theorem u16At_of_le {P : Packet} {a : Nat} (h : a + 2 ≤ P.length) :
    u16At P a = .ok (BitVec.ofNat 16 (beNat ((P.drop a).take 2))) := fieldAt_of_le h

theorem u32At_of_le {P : Packet} {a : Nat} (h : a + 4 ≤ P.length) :
    u32At P a = .ok (BitVec.ofNat 32 (beNat ((P.drop a).take 4))) := fieldAt_of_le h

theorem u64At_of_le {P : Packet} {a : Nat} (h : a + 8 ≤ P.length) :
    u64At P a = .ok (BitVec.ofNat 64 (beNat ((P.drop a).take 8))) := fieldAt_of_le h

/-! ## Big-endian numbers -/

@[simp] theorem beBytes_length (n v : Nat) : (beBytes n v).length = n := by
  induction n with
  | zero => rfl
  | succ n ih => simp [beBytes, ih]

theorem beNat_foldl (bs : List Byte) (acc : Nat) :
    bs.foldl (fun acc b => acc * 256 + b.toNat) acc = acc * 256 ^ bs.length + beNat bs := by
  unfold beNat
  induction bs generalizing acc with
  | nil => simp
  | cons b bs ih =>
    rw [List.foldl_cons, ih, List.foldl_cons, ih (0 * 256 + b.toNat), List.length_cons, pow_succ]
    ring

@[simp] theorem beNat_nil : beNat [] = 0 := rfl

theorem beNat_cons (b : Byte) (bs : List Byte) : beNat (b :: bs) = b.toNat * 256 ^ bs.length + beNat bs := by
  have h := beNat_foldl bs (0 * 256 + b.toNat)
  simpa [beNat] using h

theorem beNat_lt (bs : List Byte) : beNat bs < 256 ^ bs.length := by
  induction bs with
  | nil => simp
  | cons b bs ih =>
    have hb : b.toNat < 256 := b.isLt
    rw [beNat_cons, List.length_cons, pow_succ]
    have := Nat.mul_le_mul_right (256 ^ bs.length) (Nat.succ_le_of_lt hb)
    rw [Nat.succ_mul] at this
    omega

/-- The bytes above the `n` lowest do not matter. -/
theorem beBytes_add (n a x : Nat) : beBytes n (a * 256 ^ n + x) = beBytes n x := by
  induction n generalizing a x with
  | zero => rfl
  | succ n ih =>
    have hpos : 0 < 256 ^ n := by positivity
    have e : a * 256 ^ (n + 1) + x = a * 256 * 256 ^ n + x := by rw [pow_succ]; ring
    rw [beBytes, beBytes, e, ih]
    congr 1
    apply BitVec.eq_of_toNat_eq
    rw [Nat.add_comm, Nat.add_mul_div_right _ _ hpos]
    simp [BitVec.toNat_ofNat, Nat.add_mul_mod_self_right]

/-- The bytes of a number spell the number. -/
theorem beNat_beBytes {n v : Nat} (h : v < 256 ^ n) : beNat (beBytes n v) = v := by
  induction n generalizing v with
  | zero => simp only [pow_zero, Nat.lt_one_iff] at h; simp [beBytes, h]
  | succ n ih =>
    have hpos : 0 < 256 ^ n := by positivity
    have hq : v / 256 ^ n < 256 := by
      rw [Nat.div_lt_iff_lt_mul hpos]
      rw [pow_succ] at h
      omega
    have low : beBytes n v = beBytes n (v % 256 ^ n) := by
      conv_lhs => rw [← Nat.div_add_mod v (256 ^ n), Nat.mul_comm, beBytes_add]
    rw [beBytes, beNat_cons, beBytes_length, low, ih (Nat.mod_lt _ hpos), BitVec.toNat_ofNat,
      Nat.mod_eq_of_lt hq, Nat.mul_comm, Nat.div_add_mod]

/-- The number that bytes spell has those bytes. -/
theorem beBytes_beNat (bs : List Byte) : beBytes bs.length (beNat bs) = bs := by
  induction bs with
  | nil => rfl
  | cons b bs ih =>
    have hpos : 0 < 256 ^ bs.length := by positivity
    rw [List.length_cons, beBytes, beNat_cons, beBytes_add, ih]
    congr 1
    apply BitVec.eq_of_toNat_eq
    rw [Nat.add_comm, Nat.add_mul_div_right _ _ hpos, Nat.div_eq_of_lt (beNat_lt bs)]
    simp

end Sys2Proof

namespace Sys2Proof.Machine

/-! ## The packet buffer as memory cells -/

theorem cellsFrom_wf (a : Nat) (bs : List Byte) : Memory.wf (cellsFrom a bs) = true := by
  induction bs generalizing a with
  | nil => rfl
  | cons b bs ih =>
    cases bs with
    | nil => rfl
    | cons c cs =>
      have h := ih (a + 1)
      simp only [cellsFrom] at h ⊢
      simp [Memory.wf, h]

/-- The packet buffer is in canonical form. -/
theorem packetMemory_wf (P : Packet) : Memory.wf (packetMemory P) = true := cellsFrom_wf 0 P

theorem cellsFrom_read (a k : Nat) (bs : List Byte) : Memory.read (cellsFrom a bs) (a + k) = bs[k]? := by
  induction bs generalizing a k with
  | nil => rfl
  | cons b bs ih =>
    cases k with
    | zero => simp [cellsFrom, Memory.read]
    | succ k =>
      have h := ih (a + 1) k
      have e : a + (k + 1) = a + 1 + k := by omega
      simp only [cellsFrom, Memory.read, e]
      rw [if_neg (by omega), h]
      rfl

/-- Every offset below the length holds the packet's byte, and no other offset holds one (R70, R76). -/
theorem packetMemory_read (P : Packet) (a : Nat) : Memory.read (packetMemory P) a = P[a]? := by
  simpa [packetMemory] using cellsFrom_read 0 a P

end Sys2Proof.Machine
end

