-- ==== Sys2Proof/Laws/Decode.lean ====
section
/-! SUPPORT. The decoder and the encoder: what each layout's reader answers when its bytes are present, the lengths of the
encodings, and where a field stands in a concatenation. -/

namespace Sys2Proof

/-! ## Fields in a concatenation -/

/-- A read beyond a prefix is a read in the rest. -/
theorem slice_append_right {l Q : List Byte} {a n : Nat} (h : l.length ≤ a) :
    ((l ++ Q).drop a).take n = (Q.drop (a - l.length)).take n := by
  rw [List.drop_append, List.drop_of_length_le h, List.nil_append]

/-- A read of the whole prefix. -/
theorem slice_append_left {l Q : List Byte} {n : Nat} (h : l.length = n) : ((l ++ Q).drop 0).take n = l := by
  rw [List.drop_zero, List.take_left' h]

/-- A read of all there is. -/
theorem slice_all {l : List Byte} {n : Nat} (h : l.length = n) : (l.drop 0).take n = l := by
  rw [List.drop_zero, List.take_of_length_le h.le]

@[simp] theorem ofNat_beNat_beBytes8 (v : U8) : BitVec.ofNat 8 (beNat (beBytes 1 v.toNat)) = v := by
  rw [beNat_beBytes v.isLt, BitVec.ofNat_toNat, BitVec.setWidth_eq]

@[simp] theorem ofNat_beNat_beBytes16 (v : U16) : BitVec.ofNat 16 (beNat (beBytes 2 v.toNat)) = v := by
  rw [beNat_beBytes v.isLt, BitVec.ofNat_toNat, BitVec.setWidth_eq]

@[simp] theorem ofNat_beNat_beBytes32 (v : U32) : BitVec.ofNat 32 (beNat (beBytes 4 v.toNat)) = v := by
  rw [beNat_beBytes v.isLt, BitVec.ofNat_toNat, BitVec.setWidth_eq]

@[simp] theorem ofNat_beNat_beBytes64 (v : U64) : BitVec.ofNat 64 (beNat (beBytes 8 v.toNat)) = v := by
  rw [beNat_beBytes v.isLt, BitVec.ofNat_toNat, BitVec.setWidth_eq]

/-! ## Readers of present layouts -/

theorem classify_of_lt {P : Packet} (h : P.length < 16) : classify P = .error .shortHeader := if_pos h

theorem classify_of_le {P : Packet} (h : 16 ≤ P.length) :
    classify P = .ok (classifyMagic (BitVec.ofNat 32 (beNat (P.take 4)))) := by
  rw [classify, if_neg (by omega), u32At_of_le (by omega)]
  rfl

theorem decodeHeaderRest_of_le {P : Packet} (h : 16 ≤ P.length) :
    decodeHeaderRest P = .ok { e2eLen := (P.drop 4).take 4, unexamined := (P.drop 8).take 8 } := by
  rw [decodeHeaderRest, memBytes_of_le (by omega), memBytes_of_le (by omega)]
  rfl

/-- Layout S of a packet that has it. -/
def statusWireAt (P : Packet) : StatusWire :=
  let f := fun (w a n : Nat) => BitVec.ofNat w (beNat ((P.drop a).take n))
  { crc := f 16 16 2, len := f 16 18 2, sqc := f 8 20 1, partNumber := f 64 21 8, assemblyPartNumber := f 64 29 8,
    swPartNumber := f 64 37 8, serialNumber := (P.drop 45).take 26, blVersion1 := f 8 71 1, blVersion2 := f 8 72 1,
    blVersion3 := f 8 73 1, blCrc := f 32 74 4, swVersion1 := f 8 78 1, swVersion2 := f 8 79 1, swVersion3 := f 8 80 1,
    swCrc := f 32 81 4, utcTimeStamp := f 64 85 8, timeStamp := f 32 93 4, currentDamping := f 32 97 4,
    opState := f 8 101 1, currentFarCF := f 8 102 1, currentNearCF := f 8 103 1, defective := f 8 104 1,
    supplyVoltLimit := f 8 105 1, sensorOffTemp := f 8 106 1, gmMissing := f 8 107 1, txOutReduced := f 8 108 1,
    maximumRangeFar := f 16 109 2, maximumRangeNear := f 16 111 2 }

/-- Layout E of a packet that has it. -/
def eventWireAt (P : Packet) : EventWire :=
  let f := fun (w a n : Nat) => BitVec.ofNat w (beNat ((P.drop a).take n))
  { crc := f 16 16 2, len := f 16 18 2, sqc := f 8 20 1, messageCounter := f 8 21 1, utcTimeStamp := f 64 22 8,
    timeStamp := f 32 30 4, measureCounter := f 32 34 4, cycleCounter := f 32 38 4, nofDetections := f 16 42 2,
    vambig := f 16 44 2, centerFrequency := f 8 46 1, detectionsInPacket := f 8 47 1 }

/-- Layout D of a packet that has it at offset `base`. -/
def chunkWireAt (P : Packet) (base : Nat) : ChunkWire :=
  let f := fun (w a n : Nat) => BitVec.ofNat w (beNat ((P.drop (base + a)).take n))
  { range := f 16 0 2, vrelRad := f 16 2 2, azAng0 := f 16 4 2, azAng1 := f 16 6 2, elAng := f 16 8 2, rcs0 := f 16 10 2,
    rcs1 := f 16 12 2, prob0 := f 8 14 1, prob1 := f 8 15 1, rangeVar := f 16 16 2, vrelRadVar := f 16 18 2,
    azAngVar0 := f 16 20 2, azAngVar1 := f 16 22 2, elAngVar := f 16 24 2, pdh0 := f 8 26 1, snr := f 8 27 1 }

theorem decodeStatusWire_of_le {P : Packet} (h : 113 ≤ P.length) : decodeStatusWire P = .ok (statusWireAt P) := by
  have r1 : ∀ a, a + 1 ≤ 113 → u8At P a = .ok (BitVec.ofNat 8 (beNat ((P.drop a).take 1))) :=
    fun a ha => u8At_of_le (by omega)
  have r2 : ∀ a, a + 2 ≤ 113 → u16At P a = .ok (BitVec.ofNat 16 (beNat ((P.drop a).take 2))) :=
    fun a ha => u16At_of_le (by omega)
  have r4 : ∀ a, a + 4 ≤ 113 → u32At P a = .ok (BitVec.ofNat 32 (beNat ((P.drop a).take 4))) :=
    fun a ha => u32At_of_le (by omega)
  have r8 : ∀ a, a + 8 ≤ 113 → u64At P a = .ok (BitVec.ofNat 64 (beNat ((P.drop a).take 8))) :=
    fun a ha => u64At_of_le (by omega)
  simp (disch := omega) only [decodeStatusWire, r1, r2, r4, r8, memBytes_of_le]
  rfl

theorem decodeEventWire_of_le {P : Packet} (h : 48 ≤ P.length) : decodeEventWire P = .ok (eventWireAt P) := by
  simp (disch := omega) only [decodeEventWire, u8At_of_le, u16At_of_le, u32At_of_le, u64At_of_le]
  rfl

theorem decodeChunkWire_of_le {P : Packet} {base : Nat} (h : base + 28 ≤ P.length) :
    decodeChunkWire P base = .ok (chunkWireAt P base) := by
  simp (disch := omega) only [decodeChunkWire, u8At_of_le, u16At_of_le]
  rfl

/-- The chunk loop on chunks that are present (R261): `k` chunks, each at its own offset. -/
theorem decodeChunks_of_le {P : Packet} {j k : Nat} (h : 48 + 28 * (j + k) ≤ P.length) :
    decodeChunks P j k = .ok ((List.range' j k).map fun i => chunkWireAt P (48 + 28 * i)) := by
  induction k generalizing j with
  | zero => rfl
  | succ k ih =>
    rw [decodeChunks, decodeChunkWire_of_le (by omega), ih (by omega)]
    rfl

/-- `28 k` bytes are there for the `k` chunks that are counted. -/
theorem chunkCount_le {d n : Nat} : 28 * chunkCount d n ≤ n := by
  have := Nat.min_le_right d (n / 28)
  unfold chunkCount
  omega

theorem decodeStatusPayload_of_lt {P : Packet} (h : P.length - 16 < 97) :
    decodeStatusPayload P = .ok (.short (P.drop 16)) := if_pos h

theorem decodeStatusPayload_of_le {P : Packet} (h : 113 ≤ P.length) :
    decodeStatusPayload P = .ok (.full (statusWireAt P) (P.drop 113)) := by
  rw [decodeStatusPayload, if_neg (by omega), decodeStatusWire_of_le h]
  rfl

theorem decodeEventPayload_of_lt {P : Packet} (h : P.length - 16 < 32) :
    decodeEventPayload P = .ok (.short (P.drop 16)) := if_pos h

theorem decodeEventPayload_of_le {P : Packet} (h : 48 ≤ P.length) :
    decodeEventPayload P =
      let k := chunkCount (eventWireAt P).detectionsInPacket.toNat (P.length - 48)
      .ok (.full (eventWireAt P) ((List.range k).map fun i => chunkWireAt P (48 + 28 * i)) (P.drop (48 + 28 * k))) := by
  have hk := @chunkCount_le (eventWireAt P).detectionsInPacket.toNat (P.length - 48)
  rw [decodeEventPayload, if_neg (by omega), decodeEventWire_of_le h]
  simp only [bind, Except.bind]
  rw [decodeChunks_of_le (by omega), ← List.range_eq_range']
  rfl

/-- The decoder of a payload never fails, whatever the length. -/
theorem decodeStatusPayload_isOk (P : Packet) : ∃ p, decodeStatusPayload P = .ok p := by
  by_cases h : P.length - 16 < 97
  · exact ⟨_, decodeStatusPayload_of_lt h⟩
  · exact ⟨_, decodeStatusPayload_of_le (by omega)⟩

theorem decodeEventPayload_isOk (P : Packet) : ∃ p, decodeEventPayload P = .ok p := by
  by_cases h : P.length - 16 < 32
  · exact ⟨_, decodeEventPayload_of_lt h⟩
  · exact ⟨_, decodeEventPayload_of_le (by omega)⟩

/-- What `decode` answers, once: it follows the classifier, and the payload decoder of the type found. -/
theorem decode_eq (P : Packet) : decode P =
    if P.length < 16 then .error .shortHeader
    else match classifyMagic (BitVec.ofNat 32 (beNat (P.take 4))) with
      | none => .error .unknownMagic
      | some t =>
        let h : HeaderRest := { e2eLen := (P.drop 4).take 4, unexamined := (P.drop 8).take 8 }
        match t with
        | .status => (decodeStatusPayload P).map (.status h)
        | .far0 => (decodeEventPayload P).map (.far0 h)
        | .far1 => (decodeEventPayload P).map (.far1 h)
        | .near0 => (decodeEventPayload P).map (.near0 h)
        | .near1 => (decodeEventPayload P).map (.near1 h)
        | .near2 => (decodeEventPayload P).map (.near2 h) := by
  by_cases h : P.length < 16
  · rw [if_pos h, decode, classify_of_lt h]; rfl
  · rw [if_neg h, decode, classify_of_le (by omega)]
    simp only [bind, Except.bind]
    cases classifyMagic (BitVec.ofNat 32 (beNat (P.take 4))) with
    | none => rfl
    | some t =>
      simp only [decodeHeaderRest_of_le (Nat.le_of_not_lt h)]
      obtain ⟨ps, hs⟩ := decodeStatusPayload_isOk P
      obtain ⟨pe, he⟩ := decodeEventPayload_isOk P
      cases t <;> simp only [hs, he] <;> rfl

/-! ## Lengths of encodings -/

@[simp] theorem encodeHeader_length (t : HeaderType) {h : HeaderRest} (wf : h.wellFormed = true) :
    (encodeHeader t h).length = 16 := by
  simp only [HeaderRest.wellFormed, Bool.and_eq_true, beq_iff_eq] at wf
  simp [encodeHeader, wf]

theorem encodeStatusWire_length {w : StatusWire} (wf : w.wellFormed = true) : (encodeStatusWire w).length = 97 := by
  simp only [StatusWire.wellFormed, beq_iff_eq] at wf
  simp [encodeStatusWire, wf]

@[simp] theorem encodeEventWire_length (w : EventWire) : (encodeEventWire w).length = 32 := by
  simp [encodeEventWire]

@[simp] theorem encodeChunkWire_length (c : ChunkWire) : (encodeChunkWire c).length = 28 := by
  simp [encodeChunkWire]

@[simp] theorem encodeChunks_length (cs : List ChunkWire) : (encodeChunks cs).length = 28 * cs.length := by
  induction cs with
  | nil => rfl
  | cons c cs ih => simp [encodeChunks, ih]; omega

theorem encodeStatusPayload_length {p : StatusPayload} (wf : p.wellFormed = true) :
    (encodeStatusPayload p).length = p.length := by
  cases p with
  | full w rest => simp [encodeStatusPayload, StatusPayload.length, encodeStatusWire_length wf]
  | short bytes => rfl

@[simp] theorem encodeEventPayload_length (p : EventPayload) : (encodeEventPayload p).length = p.length := by
  cases p with
  | full w chunks rest => simp [encodeEventPayload, EventPayload.length]
  | short bytes => rfl

end Sys2Proof
end

