-- ==== Sys2Proof/Laws/State.lean ====
section
/-! SUPPORT. One lemma per field and per update of the state, so that no proof unfolds a record update. -/

namespace Sys2Proof.Machine

variable (s : State) (b b' : Category) (v : Buf) (ts : U32) (list : List EventReport) (e : EventReport)
  (out : List Emission) (res : Res) (rest : List Input) (code : ResCode) (sub : ResSub) (type : Option HeaderType)
  (mm : Bool) (len : Nat) (cfg : Cfg) (input : Input)

/-! ## `setBuf`, `bufSet`, `bufAppend` -/

@[simp] theorem setBuf_far_far : (s.setBuf .far v).far = v := rfl
@[simp] theorem setBuf_far_near : (s.setBuf .far v).near = s.near := rfl
@[simp] theorem setBuf_near_near : (s.setBuf .near v).near = v := rfl
@[simp] theorem setBuf_near_far : (s.setBuf .near v).far = s.far := rfl
@[simp] theorem setBuf_cfg : (s.setBuf b v).cfg = s.cfg := by cases b <;> rfl
@[simp] theorem setBuf_pktIn : (s.setBuf b v).pktIn = s.pktIn := by cases b <;> rfl
@[simp] theorem setBuf_egress : (s.setBuf b v).egress = s.egress := by cases b <;> rfl
@[simp] theorem buf_far : s.buf .far = s.far := rfl
@[simp] theorem buf_near : s.buf .near = s.near := rfl
@[simp] theorem buf_setBuf_self : (s.setBuf b v).buf b = v := by cases b <;> rfl

/-- Writing one buffer leaves the other alone (R41, R42). -/
theorem buf_setBuf_of_ne (h : b' ≠ b) : (s.setBuf b v).buf b' = s.buf b' := by
  cases b <;> cases b' <;> first | rfl | exact absurd rfl h

@[simp] theorem bufSet_eq : bufSet s b ts list = s.setBuf b (.holding ts list) := rfl
@[simp] theorem bufAppend_eq : bufAppend s b ts list e = s.setBuf b (.holding ts (list ++ [e])) := rfl

/-! ## `answer`, `raiseFault` -/

@[simp] theorem answer_near : (s.answer out res).near = s.near := rfl
@[simp] theorem answer_far : (s.answer out res).far = s.far := rfl
@[simp] theorem answer_cfg : (s.answer out res).cfg = s.cfg := rfl
@[simp] theorem answer_pktIn : (s.answer out res).pktIn = s.pktIn := rfl
@[simp] theorem answer_egress : (s.answer out res).egress = s.egress ++ [{ out := out, res := res }] := rfl
@[simp] theorem answer_buf : (s.answer out res).buf b = s.buf b := by cases b <;> rfl
@[simp] theorem raiseFault_near : (raiseFault s code sub type mm len).near = s.near := rfl
@[simp] theorem raiseFault_far : (raiseFault s code sub type mm len).far = s.far := rfl
@[simp] theorem raiseFault_cfg : (raiseFault s code sub type mm len).cfg = s.cfg := rfl
@[simp] theorem raiseFault_pktIn : (raiseFault s code sub type mm len).pktIn = s.pktIn := rfl
@[simp] theorem raiseFault_buf : (raiseFault s code sub type mm len).buf b = s.buf b := by cases b <;> rfl
@[simp] theorem raiseFault_egress : (raiseFault s code sub type mm len).egress =
    s.egress ++ [{ out := [], res := ⟨code, sub, type, .dropped, mm, len⟩ }] := rfl

/-! ## `withPending`, `resetBlock`, `boot` -/

@[simp] theorem withPending_near : (s.withPending rest).near = s.near := rfl
@[simp] theorem withPending_far : (s.withPending rest).far = s.far := rfl
@[simp] theorem withPending_cfg : (s.withPending rest).cfg = s.cfg := rfl
@[simp] theorem withPending_pktIn : (s.withPending rest).pktIn = rest := rfl
@[simp] theorem withPending_egress : (s.withPending rest).egress = s.egress := rfl
@[simp] theorem withPending_buf : (s.withPending rest).buf b = s.buf b := by cases b <;> rfl
@[simp] theorem present_pktIn : (s.present input).pktIn = input :: s.pktIn := rfl
@[simp] theorem resetBlock_near : (resetBlock s).near = .empty := rfl
@[simp] theorem resetBlock_far : (resetBlock s).far = .empty := rfl
@[simp] theorem resetBlock_cfg : (resetBlock s).cfg = s.cfg := rfl
@[simp] theorem resetBlock_pktIn : (resetBlock s).pktIn = s.pktIn := rfl
@[simp] theorem resetBlock_egress : (resetBlock s).egress = s.egress := rfl
@[simp] theorem resetBlock_buf : (resetBlock s).buf b = .empty := by cases b <;> rfl
@[simp] theorem boot_near : (State.boot cfg).near = .empty := rfl
@[simp] theorem boot_far : (State.boot cfg).far = .empty := rfl
@[simp] theorem boot_cfg : (State.boot cfg).cfg = cfg := rfl
@[simp] theorem boot_pktIn : (State.boot cfg).pktIn = [] := rfl
@[simp] theorem boot_egress : (State.boot cfg).egress = [] := rfl
@[simp] theorem boot_buf : (State.boot cfg).buf b = .empty := by cases b <;> rfl

end Sys2Proof.Machine
end

