-- ==== Sys2Proof/Laws/Ops.lean ====
section
/-! SUPPORT. One lemma per shared operation: what it can do, said once. -/

namespace Sys2Proof.Machine

/-! ## The Aggregator -/

section
variable {s : State} {b : Category} {e : EventReport} {mm : Bool} {len : Nat} {ts : U32} {list : List EventReport}

theorem aggArrive_empty (h : s.buf b = .empty) :
    aggArrive s b e mm len =
      (s.setBuf b (.holding e.timestamp [e])).answer [] (eventResult e .buffered mm len) := by
  simp only [aggArrive, h, bufSet_eq]

theorem aggArrive_append (h : s.buf b = .holding ts list) (ht : e.timestamp = ts)
    (hc : limitReached s.cfg.batchCap list.length = false) :
    aggArrive s b e mm len =
      (s.setBuf b (.holding ts (list ++ [e]))).answer [] (eventResult e .buffered mm len) := by
  simp only [aggArrive, h, ht, hc, bufAppend_eq, if_true, Bool.false_eq_true, if_false]

theorem aggArrive_overflow (h : s.buf b = .holding ts list) (ht : e.timestamp = ts)
    (hc : limitReached s.cfg.batchCap list.length = true) :
    aggArrive s b e mm len = raiseFault s .batchOverflow .none (some (headerTypeOf e.eventType)) mm len := by
  simp only [aggArrive, h, ht, hc, if_true]

theorem aggArrive_flush (h : s.buf b = .holding ts list) (ht : e.timestamp ≠ ts) :
    aggArrive s b e mm len =
      (s.setBuf b (.holding e.timestamp [e])).answer [.flushBatch b ts list] (eventResult e .flushed mm len) := by
  simp only [aggArrive, h, if_neg ht, bufSet_eq]

/-- Everything an arrival can do, by the four rows of R317. -/
theorem aggArrive_cases (s : State) (b : Category) (e : EventReport) (mm : Bool) (len : Nat) :
    (s.buf b = .empty ∧ aggArrive s b e mm len =
      (s.setBuf b (.holding e.timestamp [e])).answer [] (eventResult e .buffered mm len)) ∨
    (∃ list, s.buf b = .holding e.timestamp list ∧ limitReached s.cfg.batchCap list.length = false ∧
      aggArrive s b e mm len =
        (s.setBuf b (.holding e.timestamp (list ++ [e]))).answer [] (eventResult e .buffered mm len)) ∨
    (∃ list, s.buf b = .holding e.timestamp list ∧ limitReached s.cfg.batchCap list.length = true ∧
      aggArrive s b e mm len = raiseFault s .batchOverflow .none (some (headerTypeOf e.eventType)) mm len) ∨
    (∃ ts list, s.buf b = .holding ts list ∧ e.timestamp ≠ ts ∧
      aggArrive s b e mm len =
        (s.setBuf b (.holding e.timestamp [e])).answer [.flushBatch b ts list] (eventResult e .flushed mm len)) := by
  cases h : s.buf b with
  | empty => exact .inl ⟨rfl, aggArrive_empty h⟩
  | holding ts list =>
    by_cases ht : e.timestamp = ts
    · subst ht
      cases hc : limitReached s.cfg.batchCap list.length with
      | false => exact .inr (.inl ⟨list, rfl, hc, aggArrive_append h rfl hc⟩)
      | true => exact .inr (.inr (.inl ⟨list, rfl, hc, aggArrive_overflow h rfl hc⟩))
    · exact .inr (.inr (.inr ⟨ts, list, rfl, ht, aggArrive_flush h ht⟩))

end

/-! ## Immediate emission and the event branch -/

/-- Everything immediate emission can do (R147). -/
theorem publishOrSuppress_cases (s : State) (e : EventReport) (mm : Bool) (len : Nat) :
    (0 < e.detectionsInPacket.toNat ∧ publishOrSuppress s e mm len =
      s.answer [.publishEvent e] (eventResult e .eventPublished mm len)) ∨
    (e.detectionsInPacket.toNat = 0 ∧ publishOrSuppress s e mm len =
      s.answer [] (eventResult e .eventSuppressed false len)) := by
  by_cases h : e.detectionsInPacket.toNat > 0
  · exact .inl ⟨h, if_pos h⟩
  · exact .inr ⟨by omega, if_neg h⟩

/-- Everything an event packet can do: too short, immediate, or aggregated (R146). -/
theorem arriveEvent_cases (t : EventType) (p : EventPayload) (s : State) :
    (∃ bytes, p = .short bytes ∧ arriveEvent t p s =
      raiseFault s .truncatedPacket .eventPayload (some (headerTypeOf t)) false (16 + bytes.length)) ∨
    (∃ w chunks rest, p = .full w chunks rest ∧ s.cfg.emitMode = .immediate ∧ arriveEvent t p s =
      publishOrSuppress s (eventReportOf t w chunks) (countMismatch (eventReportOf t w chunks)) (16 + p.length)) ∨
    (∃ w chunks rest, p = .full w chunks rest ∧ s.cfg.emitMode = .aggregated ∧ arriveEvent t p s =
      aggArrive s (cat t) (eventReportOf t w chunks) (countMismatch (eventReportOf t w chunks)) (16 + p.length)) := by
  cases p with
  | short bytes => exact .inl ⟨bytes, rfl, rfl⟩
  | full w chunks rest =>
    cases h : s.cfg.emitMode with
    | immediate => exact .inr (.inl ⟨w, chunks, rest, rfl, rfl, by simp only [arriveEvent, h]⟩)
    | aggregated => exact .inr (.inr ⟨w, chunks, rest, rfl, rfl, by simp only [arriveEvent, h]; rfl⟩)

/-- The meanings of the five event packets are one shared operation. -/
theorem exec_eventInstr (t : EventType) (h : HeaderRest) (p : EventPayload) (s : State) :
    exec (eventInstr t h p) s = .next (arriveEvent t p s) := by
  cases t <;> rfl

/-- Every packet is a STATUS packet or an event packet. -/
theorem instr_cases (i : Instr) : (∃ h p, i = .status h p) ∨ (∃ t h p, i = eventInstr t h p) := by
  cases i with
  | status h p => exact .inl ⟨h, p, rfl⟩
  | far0 h p => exact .inr ⟨.far0, h, p, rfl⟩
  | far1 h p => exact .inr ⟨.far1, h, p, rfl⟩
  | near0 h p => exact .inr ⟨.near0, h, p, rfl⟩
  | near1 h p => exact .inr ⟨.near1, h, p, rfl⟩
  | near2 h p => exact .inr ⟨.near2, h, p, rfl⟩

/-! ## What a decoded packet is -/

/-- A packet that decodes has a header, and its instruction is built from the layouts. -/
theorem decode_ok_cases {P : Packet} {i : Instr} (h : decode P = .ok i) :
    16 ≤ P.length ∧ classifyMagic (BitVec.ofNat 32 (beNat (P.take 4))) = some i.headerType ∧
    ((∃ p, decodeStatusPayload P = .ok p ∧
        i = .status { e2eLen := (P.drop 4).take 4, unexamined := (P.drop 8).take 8 } p) ∨
      (∃ t p, decodeEventPayload P = .ok p ∧
        i = eventInstr t { e2eLen := (P.drop 4).take 4, unexamined := (P.drop 8).take 8 } p)) := by
  rw [decode_eq] at h
  split at h
  · cases h
  · rename_i hlen
    refine ⟨by omega, ?_⟩
    obtain ⟨ps, hs⟩ := decodeStatusPayload_isOk P
    obtain ⟨pe, he⟩ := decodeEventPayload_isOk P
    split at h
    · cases h
    · rename_i t hm
      rw [hs, he] at h
      cases t <;> cases h
      · exact ⟨hm, .inl ⟨ps, hs, rfl⟩⟩
      · exact ⟨hm, .inr ⟨.far0, pe, he, rfl⟩⟩
      · exact ⟨hm, .inr ⟨.far1, pe, he, rfl⟩⟩
      · exact ⟨hm, .inr ⟨.near0, pe, he, rfl⟩⟩
      · exact ⟨hm, .inr ⟨.near1, pe, he, rfl⟩⟩
      · exact ⟨hm, .inr ⟨.near2, pe, he, rfl⟩⟩

/-! ## The step -/

/-- Everything a step can do, said once: idle, a reset, a packet that runs, a packet that is no instruction, a packet the port
cannot carry. -/
theorem step_cases (s : State) :
    (s.pktIn = [] ∧ step s = .next s) ∨
    (∃ rest, s.pktIn = .reset :: rest ∧ step s = .next (resetBlock (s.withPending rest))) ∨
    (∃ P rest, s.pktIn = .packet P :: rest ∧ limitAdmits s.cfg.maxPktLen P.length = true ∧
      ((∃ i, decode P = .ok i ∧ step s = exec i (s.withPending rest)) ∨
       (∃ e, decode P = .error e ∧ step s = rejectPacket e P.length (s.withPending rest)))) ∨
    (∃ P rest, s.pktIn = .packet P :: rest ∧ limitAdmits s.cfg.maxPktLen P.length = false ∧
      step s = .refused (.packetLongerThanPort P.length)) := by
  cases hp : s.pktIn with
  | nil => exact .inl ⟨rfl, by simp only [step, ingress, hp]⟩
  | cons input rest =>
    cases input with
    | reset => exact .inr (.inl ⟨rest, rfl, by simp only [step, ingress, hp]⟩)
    | packet P =>
      cases hm : limitAdmits s.cfg.maxPktLen P.length with
      | false =>
        exact .inr (.inr (.inr ⟨P, rest, rfl, hm, by
          simp only [step, ingress, hp, onPacket, withPending_cfg, hm, Bool.false_eq_true, if_false]⟩))
      | true =>
        refine .inr (.inr (.inl ⟨P, rest, rfl, hm, ?_⟩))
        cases hd : decode P with
        | ok i => exact .inl ⟨i, rfl, by simp only [step, ingress, hp, onPacket, withPending_cfg, hm, if_true, hd]⟩
        | error e => exact .inr ⟨e, rfl, by simp only [step, ingress, hp, onPacket, withPending_cfg, hm, if_true, hd]⟩

/-! ## Runs -/

theorem run_zero (s : State) : Sys2Proof.core.run 0 s = .next s := rfl

/-- One step of a run, for any machine of the host's interface. -/
theorem core_run_next {M : Host.Core} {k : Nat} {x y : M.State} (h : M.step x = .next y) :
    M.run (k + 1) x = M.run k y := by
  rw [Host.Core.run, h]

theorem core_run_fault {M : Host.Core} {k : Nat} {x : M.State} {r : M.Fault} (h : M.step x = .fault r) :
    M.run (k + 1) x = .fault r := by
  rw [Host.Core.run, h]

theorem core_run_refused {M : Host.Core} {k : Nat} {x : M.State} {r : M.Refusal} (h : M.step x = .refused r) :
    M.run (k + 1) x = .refused r := by
  rw [Host.Core.run, h]

theorem run_next {k : Nat} {s s' : State} (h : step s = .next s') :
    Sys2Proof.core.run (k + 1) s = Sys2Proof.core.run k s' :=
  core_run_next (M := Sys2Proof.core) h

theorem run_fault {k : Nat} {s : State} {r : Fault} (h : step s = .fault r) :
    Sys2Proof.core.run (k + 1) s = .fault r :=
  core_run_fault (M := Sys2Proof.core) h

theorem run_refused {k : Nat} {s : State} {r : Refusal} (h : step s = .refused r) :
    Sys2Proof.core.run (k + 1) s = .refused r :=
  core_run_refused (M := Sys2Proof.core) h

/-- A stream is run packet by packet. -/
theorem runStream_nil (s : State) : runStream s [] = .next (s.withStream []) := rfl

theorem runStream_cons {s s' : State} {P : Packet} {ps : List Packet}
    (h : step (s.withStream (P :: ps)) = .next s') (hp : s'.pktIn = ps.map .packet) :
    runStream s (P :: ps) = runStream s' ps := by
  have e : s'.withStream ps = s' := by
    cases s'
    cases hp
    rfl
  rw [runStream, runStream, List.length_cons, run_next h, e]

end Sys2Proof.Machine
end

