-- ==== Sys2Proof/Laws/PerInstr.lean ====
section
/-! SUPPORT. Statements for all packets, one lemma per constructor of `Instr`. -/

/-- A well-formed packet has as many bytes as its `length` says (R100). -/
def Sys2Proof.Laws.EncodedLength.Statement (i : Sys2Proof.Instr) : Prop :=
  i.wellFormed = true → (Sys2Proof.encode i).length = i.length

/-- Every packet begins with the four bytes of its magic, most significant first (R101, R105). -/
def Sys2Proof.Laws.EncodedMagic.Statement (i : Sys2Proof.Instr) : Prop :=
  (Sys2Proof.encode i).take 4 = Sys2Proof.beBytes 4 i.headerType.magic.toNat

namespace Sys2Proof.Laws

theorem encode_length_event (t : HeaderType) (h : HeaderRest) (p : EventPayload)
    (wf : (h.wellFormed && p.wellFormed) = true) :
    (encodeHeader t h ++ encodeEventPayload p).length = 16 + p.length := by
  rw [Bool.and_eq_true] at wf
  simp [wf.1]

theorem take_four_header (t : HeaderType) (h : HeaderRest) (rest : List Byte) :
    (encodeHeader t h ++ rest).take 4 = beBytes 4 t.magic.toNat := by
  rw [encodeHeader, List.append_assoc, List.take_left' (beBytes_length _ _)]

theorem EncodedLength.status (h : HeaderRest) (p : StatusPayload) :
    EncodedLength.Statement (.status h p) := by
  intro wf
  simp only [Instr.wellFormed, Bool.and_eq_true] at wf
  simp [encode, Instr.length, wf.1, encodeStatusPayload_length wf.2]

theorem EncodedLength.far0 (h : HeaderRest) (p : EventPayload) : EncodedLength.Statement (.far0 h p) :=
  encode_length_event .far0 h p

theorem EncodedLength.far1 (h : HeaderRest) (p : EventPayload) : EncodedLength.Statement (.far1 h p) :=
  encode_length_event .far1 h p

theorem EncodedLength.near0 (h : HeaderRest) (p : EventPayload) : EncodedLength.Statement (.near0 h p) :=
  encode_length_event .near0 h p

theorem EncodedLength.near1 (h : HeaderRest) (p : EventPayload) : EncodedLength.Statement (.near1 h p) :=
  encode_length_event .near1 h p

theorem EncodedLength.near2 (h : HeaderRest) (p : EventPayload) : EncodedLength.Statement (.near2 h p) :=
  encode_length_event .near2 h p

theorem EncodedMagic.status (h : HeaderRest) (p : StatusPayload) : EncodedMagic.Statement (.status h p) :=
  take_four_header .status h _

theorem EncodedMagic.far0 (h : HeaderRest) (p : EventPayload) : EncodedMagic.Statement (.far0 h p) :=
  take_four_header .far0 h _

theorem EncodedMagic.far1 (h : HeaderRest) (p : EventPayload) : EncodedMagic.Statement (.far1 h p) :=
  take_four_header .far1 h _

theorem EncodedMagic.near0 (h : HeaderRest) (p : EventPayload) : EncodedMagic.Statement (.near0 h p) :=
  take_four_header .near0 h _

theorem EncodedMagic.near1 (h : HeaderRest) (p : EventPayload) : EncodedMagic.Statement (.near1 h p) :=
  take_four_header .near1 h _

theorem EncodedMagic.near2 (h : HeaderRest) (p : EventPayload) : EncodedMagic.Statement (.near2 h p) :=
  take_four_header .near2 h _

end Sys2Proof.Laws
end

