-- ==== Sys2Proof/Tests/Slice0.lean ====
section
/-! SUPPORT. Named tests, each on a small packet. Expected values are those of spec/95_test_vectors.md (vector names in the
docstrings), never the model's own. The theorems named witness_… show, for a statement with hypotheses, a concrete input
that meets all of them. -/

namespace Sys2Proof.Tests

open Sys2Proof Sys2Proof.Machine

/-! ## Builders -/

/-- Bytes `lo`, `lo + 1`, …: the ramps of V-ST1 and V-EV1. -/
def ramp (lo n : Nat) : List Byte := (List.range n).map fun k => BitVec.ofNat 8 (lo + k)

/-- Zero bytes. -/
def zeros (n : Nat) : List Byte := List.replicate n 0

/-- `EVT(t, ts, d)` of R118, with the last byte of the magic for `t`: FAR0 is 1, FAR1 2, NEAR0 3, NEAR1 4, NEAR2 5. -/
def evt (t ts d : Byte) : Packet :=
  [0x00, 0xDC, 0x00, t] ++ zeros 29 ++ [ts] ++ zeros 13 ++ [d] ++ zeros (28 * d.toNat)

/-- `STATUS` of R117: an all-zero payload. -/
def statusZero : Packet := [0x00, 0xC8, 0x00, 0x00] ++ zeros 109

/-- V-ST1. -/
def statusRamp : Packet := [0x00, 0xC8, 0x00, 0x00] ++ ramp 4 109

/-- V-EV1. -/
def eventRamp : Packet := [0x00, 0xDC, 0x00, 0x04] ++ ramp 4 100

/-- The header bytes of the ramps. -/
def rampHeader : HeaderRest := ⟨[4, 5, 6, 7], [8, 9, 10, 11, 12, 13, 14, 15]⟩

/-- The header bytes of R117. -/
def zeroHeader : HeaderRest := ⟨zeros 4, zeros 8⟩

/-- An event header with this timestamp and declared count, all else 0. -/
def wire (ts : U32) (d : U8) : EventWire := ⟨0, 0, 0, 0, 0, ts, 0, 0, 0, 0, 0, d⟩

/-- The all-zero chunk. -/
def zeroChunk : ChunkWire := ⟨0, 0, 0, 0, 0, 0, 0, 0, 0, 0, 0, 0, 0, 0, 0, 0⟩

/-- The all-zero status payload. -/
def zeroStatus : StatusWire :=
  ⟨0, 0, 0, 0, 0, 0, zeros 26, 0, 0, 0, 0, 0, 0, 0, 0, 0, 0, 0, 0, 0, 0, 0, 0, 0, 0, 0, 0, 0⟩

/-- An Event Report of type `t` with this timestamp and no detection. -/
def report (t : EventType) (ts : U32) : EventReport := eventReportOf t (wire ts 0) []

/-- The immediate mode. -/
def immediate : Cfg := { emitMode := .immediate }

/-- A machine with these buffers and these inputs pending. -/
def machine (cfg : Cfg) (near far : Buf) (inputs : List Input) : State :=
  { near := near, far := far, cfg := cfg, pktIn := inputs, egress := [] }

/-- The state after the pending inputs, where no step stops. -/
def finish (s : State) : Option State :=
  match Sys2Proof.core.run s.pktIn.length s with
  | .next t => some t
  | _ => none

/-- The results of the packets, oldest first. -/
def results (s : State) : Option (List Res) := (finish s).map fun t => t.egress.map Transaction.res

/-- The emissions, oldest first. -/
def outputs (s : State) : Option (List Emission) := (finish s).map fun t => emissions t.egress

/-- The two buffers at the end. -/
def buffers (s : State) : Option (Buf × Buf) := (finish s).map fun t => (t.near, t.far)

/-! ## WellFormed refuses ill-formed terms -/

theorem test_wf_refuses_e2e_length : (Instr.status ⟨zeros 3, zeros 8⟩ (.short [])).wellFormed = false := by decide

theorem test_wf_refuses_header_rest : (Instr.far0 ⟨zeros 4, zeros 9⟩ (.short [])).wellFormed = false := by decide

theorem test_wf_refuses_serial_number :
    (Instr.status zeroHeader (.full { zeroStatus with serialNumber := zeros 25 } [])).wellFormed = false := by decide

theorem test_wf_refuses_long_short_status : (Instr.status zeroHeader (.short (zeros 97))).wellFormed = false := by decide

theorem test_wf_refuses_long_short_event : (Instr.near0 zeroHeader (.short (zeros 32))).wellFormed = false := by decide

theorem test_wf_refuses_surplus_chunk :
    (Instr.far1 zeroHeader (.full (wire 0 0) [zeroChunk] [])).wellFormed = false := by decide

theorem test_wf_refuses_undecoded_chunk :
    (Instr.near2 zeroHeader (.full (wire 0 1) [] (zeros 28))).wellFormed = false := by decide

theorem witness_wf : [Instr.status rampHeader (.full zeroStatus [0xDE, 0xAD]), .status zeroHeader (.short (zeros 96)),
    .far0 zeroHeader (.full (wire 5 1) [zeroChunk] (zeros 28)), .far1 zeroHeader (.full (wire 5 2) [zeroChunk] (zeros 27)),
    .near0 zeroHeader (.short (zeros 31)), .near1 zeroHeader (.full (wire 5 0) [] []),
    .near2 zeroHeader (.full (wire 5 255) [] [])].all Instr.wellFormed = true := by decide

/-! ## Decoding -/

/-- S1, the six magics and fifteen bytes (S9), with `tableWordPacket`'s numbering. -/
theorem test_table_words :
    (decodeTableWord 32 0x00C80000).map Instr.headerType = some .status ∧
    (decodeTableWord 32 0x00DC0001).map Instr.headerType = some .far0 ∧
    (decodeTableWord 32 0x00DC0002).map Instr.headerType = some .far1 ∧
    (decodeTableWord 32 0x00DC0003).map Instr.headerType = some .near0 ∧
    (decodeTableWord 32 0x00DC0004).map Instr.headerType = some .near1 ∧
    (decodeTableWord 32 0x00DC0005).map Instr.headerType = some .near2 := by decide

theorem test_unknown_magics_are_rejected :
    [[0x00, 0xDC, 0x00, 0x00], [0x00, 0xDC, 0x00, 0x06], [0x00, 0xC8, 0x00, 0x01], [0x00, 0x00, 0xC8, 0x00],
      [0x01, 0x00, 0xDC, 0x00], [0xFF, 0xFF, 0xFF, 0xFF], [0x00, 0xDC, 0x01, 0x01], [0x80, 0xDC, 0x00, 0x01]].all
      (fun m => decide (decode (m ++ zeros 12) = .error .unknownMagic)) = true := by decide

theorem test_fifteen_bytes_are_rejected : decode ([0x00, 0xC8, 0x00, 0x00] ++ zeros 11) = .error .shortHeader := by decide

/-- V-ST1, every field of layout S. -/
theorem test_status_ramp_decodes : decode statusRamp = .ok (.status rampHeader (.full
    { crc := 0x1011, len := 0x1213, sqc := 0x14, partNumber := 0x15161718191A1B1C,
      assemblyPartNumber := 0x1D1E1F2021222324, swPartNumber := 0x25262728292A2B2C, serialNumber := ramp 0x2D 26,
      blVersion1 := 0x47, blVersion2 := 0x48, blVersion3 := 0x49, blCrc := 0x4A4B4C4D,
      swVersion1 := 0x4E, swVersion2 := 0x4F, swVersion3 := 0x50, swCrc := 0x51525354,
      utcTimeStamp := 0x55565758595A5B5C, timeStamp := 0x5D5E5F60, currentDamping := 0x61626364, opState := 0x65,
      currentFarCF := 0x66, currentNearCF := 0x67, defective := 0x68, supplyVoltLimit := 0x69, sensorOffTemp := 0x6A,
      gmMissing := 0x6B, txOutReduced := 0x6C, maximumRangeFar := 0x6D6E, maximumRangeNear := 0x6F70 } [])) := by
  decide

/-- V-EV1, every field of layouts E and D. -/
theorem test_event_ramp_decodes : decode eventRamp = .ok (.near1 rampHeader (.full
    { crc := 0x1011, len := 0x1213, sqc := 0x14, messageCounter := 0x15, utcTimeStamp := 0x161718191A1B1C1D,
      timeStamp := 0x1E1F2021, measureCounter := 0x22232425, cycleCounter := 0x26272829, nofDetections := 0x2A2B,
      vambig := 0x2C2D, centerFrequency := 0x2E, detectionsInPacket := 0x2F }
    [⟨0x3031, 0x3233, 0x3435, 0x3637, 0x3839, 0x3A3B, 0x3C3D, 0x3E, 0x3F, 0x4041, 0x4243, 0x4445, 0x4647, 0x4849, 0x4A,
        0x4B⟩,
      ⟨0x4C4D, 0x4E4F, 0x5051, 0x5253, 0x5455, 0x5657, 0x5859, 0x5A, 0x5B, 0x5C5D, 0x5E5F, 0x6061, 0x6263, 0x6465, 0x66,
        0x67⟩] [])) := by
  decide

/-- The encoder writes the ramps back. -/
theorem test_ramps_encode :
    (match decode statusRamp with | .ok i => encode i | .error _ => []) = statusRamp ∧
    (match decode eventRamp with | .ok i => encode i | .error _ => []) = eventRamp := by decide

/-- One packet of each type, written out: its constructor. -/
theorem test_each_type_decodes :
    decode ([0x00, 0xC8, 0x00, 0x00] ++ ramp 4 12) = .ok (.status rampHeader (.short [])) ∧
    decode (evt 1 5 1) = .ok (.far0 zeroHeader (.full (wire 5 1) [zeroChunk] [])) ∧
    decode (evt 2 5 0) = .ok (.far1 zeroHeader (.full (wire 5 0) [] [])) ∧
    decode (evt 3 100 0) = .ok (.near0 zeroHeader (.full (wire 100 0) [] [])) ∧
    decode (evt 4 9 2) = .ok (.near1 zeroHeader (.full (wire 9 2) [zeroChunk, zeroChunk] [])) ∧
    decode (evt 5 0 0 ++ [0xAA]) = .ok (.near2 zeroHeader (.full (wire 0 0) [] [0xAA])) := by decide

/-- V-DT4 in small: declared 2, one whole chunk and 27 bytes: one Detection; declared 1, two chunks: one. -/
theorem test_chunk_count :
    (packetReport ((evt 1 5 2).take 103)).map (fun e => e.detectionList.length) = some 1 ∧
    (packetReport (evt 1 5 1 ++ zeros 28)).map (fun e => e.detectionList.length) = some 1 := by decide

/-! ## Scaled values -/

/-- The constants of R266 and R195 are the numbers they are named for. -/
theorem test_constants : k65534 = toF 65534 ∧ k254 = toF 254 ∧ kTenth = fdiv (toF 1) (toF 10) ∧
    kDampingFactor = fdiv (toF 931322575049159) (toF 1000000000000000) := by decide

/-- V-ST2. -/
theorem test_damping : ([0, 1, 2000000000, 2147483647, 2147483648, 4294967294, 4294967295] : List U32).map scaleDamping =
    [0xC034000000000000, 0xC033FFFFFFD80000, 0xBFF5FA0DFDABF43A, 0xBD001B2B29A4692B, 0x3E43FFFEFE4D4D66,
      0x4033FFFFFFFFFFFC, 0x403400000027FFFC] := by decide

/-- V-ST3. -/
theorem test_max_range : ([0, 1, 3, 1000, 2500, 3000, 65535] : List U16).map scaleMaxRange =
    [0, 0x3FB999999999999A, 0x3FD3333333333334, 0x4059000000000000, 0x406F400000000000, 0x4072C00000000000,
      0x40B9998000000000] := by decide

/-- V-EV2. -/
theorem test_vambig : ([0, 1, 0xFFFF, 257, 1000, 0x7FFF, 0x8001, 0x8000] : List I16).map scaleVambig =
    [0, 0x3F690032006400C8, 0xBF690032006400C8, 0x3FE91932326464C9, 0x40086A30D461A8C3, 0x4059000000000000,
      0xC059000000000000, 0xC0590032006400C8] := by decide

/-- V-DT2: one unit in the last place tells the order of operations. -/
theorem test_span : scaleSpan 261 k300 = 0x3FF31DE63BCC779A ∧ scaleSpan 257 k200 = 0x3FE91932326464CA ∧
    scaleSpan 16384 twoPi = 0x3FF9222D989F5E57 ∧ scaleSpan (-32768) twoPi = 0xC009222D989F5E57 ∧
    scaleSpan 65535 k10 = 0x4024001400280050 := by decide

/-- V-DT1: every field of a Detection at a corner. -/
theorem test_chunk_x : detectionOf
    ⟨0x5555, 0x8000, 0x4000, 0xFFFF, 0x0001, 0x03E8, 0x8001, 0xFE, 0x7F, 0xFFFE, 0x7FFF, 0xFFFF, 0x0001, 0x7FFF, 0xFF, 0x91⟩ =
    ⟨0x5555, 0x4059001900320064, 0x8000, 0xC062C025804B0096, 0x4000, 0x3FF9222D989F5E57, 0xFFFF, 0xBF19222D989F5E57,
      0x0001, 0x3F19222D989F5E57, 0x03E8, 0x40086A30D461A8C3, 0x8001, 0xC059000000000000, 0xFE, 0x3FF0000000000000,
      0x7F, 0x3FE0000000000000, 0xFFFE, 0x4024000000000000, 0x7FFF, 0x4014000000000000, 0xFFFF, 0x3FF0001000200040,
      0x0001, 0x3EF0002000400080, 0x7FFF, 0x3FE0000000000000, 0xFF, 0x3FF0102040810204, 0x91, 0x4039800000000000⟩ := by
  decide

/-- Corners of the arithmetic, from the IEEE 754 definition: ties to even, a subnormal result, overflow, a signed zero. -/
theorem test_float_corners :
    toF 9007199254740993 = 0x4340000000000000 ∧ toF 9007199254740995 = 0x4340000000000002 ∧
    fmul 0x0010000000000000 0x3FE0000000000000 = 0x0008000000000000 ∧
    fmul 0x7FEFFFFFFFFFFFFF 0x4000000000000000 = 0x7FF0000000000000 ∧
    fsub 0x3FF0000000000000 0x3FF0000000000000 = 0 ∧ fdiv 0x8000000000000000 0x3FF0000000000000 = 0x8000000000000000 := by
  decide

/-! ## One step of each instruction -/

/-- V-ST1: the versions and the scaled fields of the report, in either mode. -/
theorem test_status_publishes :
    (outputs (machine immediate .empty .empty [.packet statusRamp])).map (fun o => o.map fun
      | .publishStatus st => (st.blVersion, st.swVersion, st.currentDamping, st.maximumRangeFar, st.maximumRangeNear)
      | _ => (0, 0, 0, 0, 0)) =
      some [(0x00474849, 0x004E4F50, 0xC0132281E1064509, 0x40A5E2CCCCCCCCCD, 0x40A649999999999A)] := by decide

/-- V-CL1 rows 7, 8, 11, 12, 15, 16. -/
theorem test_truncated_and_unknown :
    results (machine {} .empty .empty [.packet (statusZero.take 16), .packet (statusZero.take 112),
      .packet ((evt 1 0 0).take 16), .packet ((evt 5 0 0).take 47), .packet ((evt 9 0 0).take 20)]) =
    some [⟨.truncatedPacket, .statusPayload, some .status, .dropped, false, 16⟩,
      ⟨.truncatedPacket, .statusPayload, some .status, .dropped, false, 112⟩,
      ⟨.truncatedPacket, .eventPayload, some .far0, .dropped, false, 16⟩,
      ⟨.truncatedPacket, .eventPayload, some .near2, .dropped, false, 47⟩,
      ⟨.malformedHeader, .unknownMagic, none, .dropped, false, 20⟩] := by decide

/-- R151: FAR0 and FAR1 share the FAR buffer; its example for FAR0. -/
theorem test_far0_far1_share_a_batch :
    buffers (machine {} .empty .empty [.packet (evt 1 5 0), .packet (evt 2 5 0)]) =
      some (.empty, .holding 5 [report .far0 5, report .far1 5]) := by decide

/-- NEAR0, NEAR1, NEAR2 share the NEAR buffer; another timestamp flushes (R305), a smaller one too (R304). -/
theorem test_near_types_flush :
    (fun s => (buffers s, outputs s)) (machine {} .empty .empty
      [.packet (evt 3 9 0), .packet (evt 4 9 0), .packet (evt 5 7 0)]) =
      (some (.holding 7 [report .near2 7], .empty),
        some [.flushBatch .near 9 [report .near0 9, report .near1 9]]) := by decide

/-- V-EV1: the mismatch flag in both modes. -/
theorem test_near1_mismatch :
    results (machine {} .empty .empty [.packet eventRamp]) =
      some [⟨.ok, .none, some .near1, .buffered, true, 104⟩] ∧
    results (machine immediate .empty .empty [.packet eventRamp, .packet (evt 2 5 0)]) =
      some [⟨.ok, .none, some .near1, .eventPublished, true, 104⟩,
        ⟨.ok, .none, some .far1, .eventSuppressed, false, 48⟩] := by decide

/-- R309: a full buffer drops and keeps its batch; another timestamp still flushes. -/
theorem test_far0_overflow :
    (fun s => (results s, buffers s)) (machine { batchCap := .finite 1 } .empty .empty
      [.packet (evt 1 5 0), .packet (evt 1 5 0), .packet (evt 1 6 0)]) =
      (some [⟨.ok, .none, some .far0, .buffered, false, 48⟩, ⟨.batchOverflow, .none, some .far0, .dropped, false, 48⟩,
        ⟨.ok, .none, some .far0, .flushed, false, 48⟩], some (.empty, .holding 6 [report .far0 6])) := by decide

/-- R381: a reset discards and emits nothing. -/
theorem test_reset_discards :
    (fun s => (outputs s, buffers s)) (machine {} .empty .empty [.packet (evt 3 5 0), .reset]) =
      (some [], some (.empty, .empty)) := by decide

/-- P1 (S5): 5, 5, 5, 7; the witness of the statement about them too. -/
theorem test_five_five_five_seven :
    (fun s => (outputs s, buffers s)) (machine {} .empty .empty
      [.packet (evt 1 5 0), .packet (evt 1 5 0), .packet (evt 2 5 0), .packet (evt 1 7 0)]) =
      (some [.flushBatch .far 5 [report .far0 5, report .far0 5, report .far1 5]],
        some (.empty, .holding 7 [report .far0 7])) := by decide

/-- The word interface of the host: the word of FAR1 runs as the first packet after reset. -/
theorem test_fetch_word : buffers (State.reset.withFetchWord 32 0x00DC0002) =
    some (.empty, .holding 0 [report .far1 0]) := by decide

/-! ## Witnesses: inputs that meet the hypotheses of the statements -/

/-- `DecodeOfEncodedPacketIsThatPacket`: see `witness_wf` for terms that meet its hypothesis.
`EncodeOfDecodedPacketIsItsBytes`: packets that decode, the shortest ones among them. -/
theorem witness_decoded_packets :
    [statusZero, statusZero.take 16, statusZero.take 112, statusZero ++ [0xDE], evt 1 5 1, (evt 5 0 0).take 47,
      evt 2 5 0, (evt 3 5 2).take 103].all (fun P => (decode P).toOption.isSome) = true := by decide

/-- `ClassifierReturnsTheTypeOfTheSixMagics`: 16 bytes, each of its seven clauses. -/
theorem witness_classifier_clauses :
    (statusZero.take 16).length = 16 ∧ (statusZero.take 16).take 4 = [0x00, 0xC8, 0x00, 0x00] ∧
    ((evt 1 5 0).take 16).take 4 = [0x00, 0xDC, 0x00, 0x01] ∧ ((evt 2 5 0).take 16).take 4 = [0x00, 0xDC, 0x00, 0x02] ∧
    ((evt 3 5 0).take 16).take 4 = [0x00, 0xDC, 0x00, 0x03] ∧ ((evt 4 5 0).take 16).take 4 = [0x00, 0xDC, 0x00, 0x04] ∧
    ((evt 5 5 0).take 16).take 4 = [0x00, 0xDC, 0x00, 0x05] ∧ (zeros 16).length = 16 ∧
    (zeros 16).take 4 ∉ ([[0x00, 0xC8, 0x00, 0x00], [0x00, 0xDC, 0x00, 0x01], [0x00, 0xDC, 0x00, 0x02],
      [0x00, 0xDC, 0x00, 0x03], [0x00, 0xDC, 0x00, 0x04], [0x00, 0xDC, 0x00, 0x05]] : List (List Byte)) := by decide

/-- `ClassifierDependsOnTheMagicAlone`: two different packets with the same magic, and two too short ones. -/
theorem witness_same_magic :
    (16 ≤ statusZero.length ↔ 16 ≤ statusRamp.length) ∧ statusZero.take 4 = statusRamp.take 4 ∧ statusZero ≠ statusRamp ∧
    (16 ≤ (zeros 4).length ↔ 16 ≤ (zeros 15).length) ∧ (zeros 4).take 4 = (zeros 15).take 4 := by decide

/-- `MemReadIsTheBigEndianSum`: the last read that is inside, and the first that is not. -/
theorem witness_memory_reads : 12 + 4 ≤ (zeros 16).length ∧ (zeros 16).length < 13 + 4 := by decide

/-- The statements about one packet on the port (`StepIsTheSpecsPseudocode`, `EveryPacketIsAnsweredOnce`,
`StepRunsTheDecodedPacket`): the longest packet that a finite port carries. -/
theorem witness_packet_on_the_port :
    (machine { maxPktLen := .finite 113 } .empty .empty [.packet statusRamp]).pktIn = .packet statusRamp :: [] ∧
    limitAdmits (.finite 113) statusRamp.length = true ∧
    decode statusZero = .ok (.status zeroHeader (.full zeroStatus [])) := by decide

/-- `OnlyOverlongPacketsAreRefused`: one byte too long is refused, and an idle block steps. -/
theorem witness_overlong :
    step (machine { maxPktLen := .finite 112 } .empty .empty [.packet statusRamp]) = .refused (.packetLongerThanPort 113) ∧
    (machine {} .empty .empty []).pktIn = [] := ⟨rfl, rfl⟩

/-- `ShortPacketsAreMalformed` at 15 bytes and at 0; `UnknownMagicsAreDropped` at 16 bytes. -/
theorem witness_malformed :
    (zeros 15).length < 16 ∧ ([] : Packet).length < 16 ∧ 16 ≤ (zeros 16).length ∧ classify (zeros 16) = .ok none := by decide

/-- `StatusNeedsNinetySevenPayloadBytes` and `EventNeedsThirtyTwoPayloadBytes`, each clause at its boundary. -/
theorem witness_truncated :
    classify (statusZero.take 16) = .ok (some .status) ∧ classify (statusZero.take 112) = .ok (some .status) ∧
    (statusZero.take 112).length < 113 ∧ classify statusZero = .ok (some .status) ∧ 113 ≤ statusZero.length ∧
    classify ((evt 5 0 0).take 47) = .ok (some (headerTypeOf .near2)) ∧ ((evt 5 0 0).take 47).length < 48 ∧
    classify ((evt 1 0 3).take 48) = .ok (some (headerTypeOf .far0)) ∧ 48 ≤ ((evt 1 0 3).take 48).length := by decide

/-- `FaultedPacketsHaveNoEffect`, and the statements about a next state (`EveryStepKeepsCfgAndPastEmissions`,
`OthersNeverReachTheAggregator`): a step with a fault, on a machine that holds a batch (V-CL2). -/
theorem witness_faulted_step :
    let held := Buf.holding 5 [report .far0 5]
    let tr : Transaction := ⟨[], ⟨.malformedHeader, .shortHeader, none, .dropped, false, 3⟩⟩
    step (machine {} .empty held [.packet (zeros 3)]) = .next { machine {} .empty held [] with egress := [tr] } ∧
    tr.res.code ≠ .ok ∧ packetReport (zeros 3) = none ∧ packetReport statusZero = none :=
  ⟨rfl, by decide, by decide, by decide⟩

/-- `OthersNeverReachTheAggregator`, its other case: an event packet in Immediate mode. -/
theorem witness_immediate_step :
    immediate.emitMode = .immediate ∧ packetReport (evt 1 5 0) = some (report .far0 5) ∧
    (buffers (machine immediate .empty .empty [.packet (evt 1 5 0)])).isSome = true := by decide

/-- `DontCareBytesNeverChangeTheResult`: two different packets that agree where the rules read. -/
theorem witness_dont_care_bytes :
    let P := evt 1 5 0 ++ [0xAA]
    let Q := [0x00, 0xDC, 0x00, 0x01] ++ ramp 1 12 ++ (evt 1 5 0).drop 16 ++ [0x55]
    (decode P).toOption.map Instr.cursor = some 48 ∧ Q.length = P.length ∧ Q.take 4 = P.take 4 ∧ Q ≠ P ∧
    (List.range 48).all (fun a => decide (a < 16) || decide (Q[a]? = P[a]?)) = true := by decide

/-- `StatusReportFieldsFollowTheirRules` and `EventReportFieldsFollowTheirRules` are met by the packets of
`test_status_ramp_decodes` and `test_event_ramp_decodes`; the statements about the Event Report of a packet
(`DetectionListLengthLaw`, `CountMismatchMeansMissingChunks`, `DetectionFieldsFollowTheirRules`), with missing chunks, with
none declared, and with a last element. -/
theorem witness_reports :
    (packetReport eventRamp).map (fun e => (e.detectionsInPacket, e.detectionList.length, countMismatch e)) =
      some (47, 2, true) ∧
    (packetReport (evt 1 5 0)).map (fun e => (e.detectionsInPacket, e.detectionList.length, countMismatch e)) =
      some (0, 0, false) ∧
    (packetReport eventRamp).map (fun e => (e.detectionList[1]?).isSome) = some true := by decide

/-- `FirstReportSeedsItsBuffer`, `EqualTimestampAppends`, `DifferentTimestampFlushes`, `FullBufferOverflows`,
`ImmediateModePublishesOrSuppresses`: states that meet their hypotheses, for a FAR and a NEAR type, with the last free place and
with none, and with a declared count of 0 and of 1. -/
theorem witness_arrivals :
    let far := machine { batchCap := .finite 2 } .empty (.holding 5 [report .far0 5]) []
    let full := machine { batchCap := .finite 1 } (.holding 5 [report .near0 5]) .empty []
    far.cfg.emitMode = .aggregated ∧ far.buf (cat .near1) = .empty ∧ full.buf (cat .far1) = .empty ∧
    far.buf (cat .far1) = .holding (wire 5 0).timeStamp [report .far0 5] ∧ far.cfg.batchCap ≠ .finite [report .far0 5].length ∧
    full.buf (cat .near2) = .holding 5 [report .near0 5] ∧ (wire 4 0).timeStamp ≠ 5 ∧ full.cfg.emitMode = .aggregated ∧
    full.cfg.batchCap = .finite [report .near0 5].length ∧
    (machine immediate .empty .empty []).cfg.emitMode = .immediate ∧ (wire 5 0).detectionsInPacket = 0 ∧
    (wire 5 1).detectionsInPacket ≠ 0 := by decide

/-- `BuffersNeverInteract`: two categories. -/
theorem witness_two_categories : Category.near ≠ .far := by decide

/-- `HeldBatchWaitsForAnotherTimestamp`: a held batch and a STATUS packet, an equal timestamp, another timestamp, and a
reset. -/
theorem witness_held_batch :
    let s := fun (i : Input) => machine {} .empty (.holding 5 [report .far0 5]) [i]
    (s .reset).pktIn.head? = some .reset ∧ (s (.packet statusZero)).pktIn.head? ≠ some .reset ∧
    buffers (s (.packet statusZero)) = some (.empty, .holding 5 [report .far0 5]) ∧
    buffers (s (.packet (evt 1 5 0))) = some (.empty, .holding 5 [report .far0 5, report .far0 5]) ∧
    buffers (s (.packet (evt 1 7 0))) = some (.empty, .holding 7 [report .far0 7]) ∧
    outputs (s (.packet (evt 1 7 0))) = some [.flushBatch .far 5 [report .far0 5]] ∧ outputs (s .reset) = some [] := by
  decide

/-- `PortsAreDrivenAsTabled`: a step that drives each port. -/
theorem witness_ports :
    (finish (machine {} .empty .empty [.packet statusZero])).map (fun t => t.egress.map portsDriven) =
      some [[.statusOut, .resultOut]] ∧
    (finish (machine immediate .empty .empty [.packet (evt 1 5 1)])).map (fun t => t.egress.map portsDriven) =
      some [[.eventOut, .resultOut]] ∧
    (finish (machine {} .empty .empty [.packet (evt 1 5 0), .packet (evt 2 6 0)])).map (fun t => t.egress.map portsDriven) =
      some [[.resultOut], [.batchOut, .resultOut]] := by decide

/-- `InvariantHoldsAtReset`: a legal `CFG` with the least capacity, and an illegal one. -/
theorem witness_legal_cfg : Cfg.legal { batchCap := .finite 1 } = true ∧ Cfg.legal { batchCap := .finite 0 } = false := by
  decide

/-- `InvariantIsKeptByEveryStep`: a state with a full buffer that meets the invariant, and takes a step. -/
theorem witness_invariant :
    (machine { batchCap := .finite 1 } .empty (.holding 5 [report .far0 5]) [.packet (evt 1 7 0)]).Inv ∧
    (buffers (machine { batchCap := .finite 1 } .empty (.holding 5 [report .far0 5]) [.packet (evt 1 7 0)])).isSome = true :=
  ⟨⟨by decide, trivial, by simp [machine, bufInv, report, eventReportOf, wire, cat, reportInv, detectionsOf, limitAdmits]⟩,
    by decide⟩

/-- `NoReportIsDroppedOrDuplicated`: the modes it is about, on a state that already holds a batch. -/
theorem witness_unbounded :
    let s := machine {} .empty (.holding 5 [report .far0 5]) []
    s.cfg.emitMode = .aggregated ∧ s.cfg.batchCap = .unbounded ∧ s.cfg.maxPktLen = .unbounded := by decide

/-- `CategoriesDoNotInterfere`: two different streams with the same FAR reports, both run. -/
theorem witness_same_arrivals :
    let ps := [evt 1 5 0, evt 3 9 0, evt 1 6 0]
    let qs := [evt 1 5 0, statusZero, evt 1 6 0]
    arrivals .far ps = arrivals .far qs ∧ ps ≠ qs ∧
    (match runStream State.reset ps, runStream State.reset qs with
      | .next s, .next t => decide (s.near ≠ t.near ∧ s.far = t.far)
      | _, _ => false) = true := by decide

/-- `FiveFiveFiveSevenFlushesOnce`: four packets that meet its hypotheses. -/
theorem witness_five_five_five_seven :
    packetReport (evt 1 5 0) = some (report .far0 5) ∧ packetReport (evt 2 5 0) = some (report .far1 5) ∧
    packetReport (evt 1 7 0) = some (report .far0 7) ∧ cat .far0 = .far ∧ cat .far1 = .far ∧
    (report .far0 5).timestamp = 5 ∧ (report .far1 5).timestamp = 5 ∧ (report .far0 7).timestamp = 7 := by decide

/-- `ResultFlagsExactlyTheMissingChunks`: an overflowing packet with a missing chunk, on a step that answers it. -/
theorem witness_flagged_overflow :
    let s := machine { batchCap := .finite 1 } .empty (.holding 5 [report .far0 5]) [.packet ((evt 1 5 1).take 48)]
    (packetReport ((evt 1 5 1).take 48)).map (fun e => e.detectionsInPacket) = some 1 ∧
    results s = some [⟨.batchOverflow, .none, some .far0, .dropped, true, 48⟩] := by decide

/-- `OneStepExtendsOrStartsABatch`, each clause: a packet of the other category, the held timestamp, another timestamp, and an
empty buffer. -/
theorem witness_batch_clauses :
    let s := machine {} .empty (.holding 5 [report .far0 5]) [.packet (evt 1 5 0)]
    limitAdmits s.cfg.maxPktLen (evt 1 5 0).length = true ∧ s.cfg.emitMode = .aggregated ∧ s.cfg.batchCap = .unbounded ∧
    arrivals .far [evt 3 5 0] = [] ∧ packetReport (evt 1 5 0) = some (report .far0 5) ∧
    packetReport (evt 2 6 0) = some (report .far1 6) ∧ cat .far0 = .far ∧ cat .far1 = .far ∧
    s.buf .far = .holding (report .far0 5).timestamp [report .far0 5] ∧ (report .far1 6).timestamp ≠ 5 ∧
    s.buf .near = .empty := by decide

/-- `OneStepKeepsCategoriesApart`: two states that agree on FAR and differ on NEAR, with two different packets, both run. -/
theorem witness_states_apart :
    let s := machine {} .empty (.holding 5 [report .far0 5]) [.packet (evt 3 9 0)]
    let t := machine {} (.holding 8 [report .near0 8]) (.holding 5 [report .far0 5]) [.packet statusZero, .reset]
    s.cfg = t.cfg ∧ s.buf .far = t.buf .far ∧ batches .far s.egress = batches .far t.egress ∧ s ≠ t ∧
    arrivals .far [evt 3 9 0] = arrivals .far [statusZero] ∧ (finish s).isSome = true ∧ (finish t).isSome = true := by decide

/-- `ResetDiscardsAndEmitsNothing`: a reset pending before a packet. -/
theorem witness_reset :
    (machine {} .empty (.holding 5 [report .far0 5]) [.reset, .packet statusZero]).pktIn =
      .reset :: [.packet statusZero] := by decide

/-- `ArithmeticRoundsToNearestEven` and `IntegersConvertExactly`: two finite values with a divisor that is not 0, and the
largest integer. -/
theorem witness_arithmetic :
    fIsFinite (toF 200) = true ∧ fIsFinite k65534 = true ∧ fValue 0x3FF0000000000000 = 1 ∧
    (9007199254740991 : Int).natAbs < 2 ^ 53 := by
  refine ⟨by decide, by decide, ?_, by decide⟩
  have h : fIsFinite 0x3FF0000000000000 = true ∧ fSignedSig 0x3FF0000000000000 = 2 ^ 52 ∧
      fScale 0x3FF0000000000000 = 1022 := by decide
  rw [fValue, if_pos h.1, h.2.1, h.2.2, show 1074 = 52 + 1022 from rfl, pow_add, Int.cast_pow]
  exact div_self (by positivity)

end Sys2Proof.Tests
end

section
/-! The packet buffer as sums of bytes, and the words of a packet (O7, O8, O10). -/

namespace Sys2Proof

/-! ## Reads as ranges and sums -/

/-- A slice that lies within the list, written offset by offset (R11). -/
theorem slice_eq_map_getD {P : Packet} {a n : Nat} (h : a + n ≤ P.length) :
    (P.drop a).take n = (List.range n).map fun k => P.getD (a + k) 0 := by
  apply List.ext_getElem
  · rw [List.length_take, List.length_drop, List.length_map, List.length_range]
    omega
  · intro k hk _
    have hk' : a + k < P.length := by
      rw [List.length_take, List.length_drop] at hk
      omega
    simp [List.getD_eq_getElem?_getD, List.getElem?_eq_getElem hk']

/-- The big-endian number of listed bytes is the weighted sum of R11. -/
theorem beNat_map_range (f : Nat → Byte) (n : Nat) :
    beNat ((List.range n).map f) = ∑ k ∈ Finset.range n, (f k).toNat * 256 ^ (n - 1 - k) := by
  induction n generalizing f with
  | zero => rfl
  | succ n ih =>
    rw [List.range_succ_eq_map, List.map_cons, List.map_map, beNat_cons, ih, List.length_map, List.length_range,
      Finset.sum_range_succ', Nat.add_comm]
    congr 1
    refine Finset.sum_congr rfl fun k _ => ?_
    rw [show n + 1 - 1 - (k + 1) = n - 1 - k by omega]
    rfl

/-- `memRead` fails as `memBytes` does (R76). -/
theorem memRead_of_gt {P : Packet} {a n : Nat} (h : P.length < a + n) :
    memRead P a n = .error (.readPastEnd a) := by
  simp only [memRead, memBytes_of_gt h]

/-- Settles O7: the slice of a present range is its bytes, and its number their weighted sum. -/
theorem memReadIsTheBigEndianSum : Obligations.MemReadIsTheBigEndianSum := by
  intro P a n
  constructor
  · intro h
    rw [memRead_of_le h, memBytes_of_le h, slice_eq_map_getD h, beNat_map_range]
    exact ⟨rfl, rfl⟩
  · intro h
    exact ⟨memBytes_of_gt h, memRead_of_gt h⟩

end Sys2Proof

namespace Sys2Proof.Machine

/-! ## The signed reading -/

/-- `s16` is Lean's two's complement reading (R10). -/
theorem s16_eq_toInt (v : I16) : s16 v = v.toInt := by
  rw [s16, BitVec.toInt_eq_toNat_cond]
  split <;> split <;> omega

/-- Settles O8: the range and the sign bit of a two's complement number of 16 bits. -/
theorem signedFieldsAreTwosComplement : Obligations.SignedFieldsAreTwosComplement := by
  intro v
  have hlt : v.toNat < 65536 := v.isLt
  have hsign : v.msb = true ↔ 32768 ≤ v.toNat := by simp [BitVec.msb_eq_decide]
  refine ⟨s16_eq_toInt v, ?_⟩
  rw [hsign, s16]
  split <;> omega

/-! ## The step on a pending packet -/

section
variable {s : State} {P : Packet} {rest : List Input}

/-- A step on a packet that decodes runs its instruction. -/
theorem step_packet_ok {i : Instr} (hp : s.pktIn = .packet P :: rest)
    (hm : limitAdmits s.cfg.maxPktLen P.length = true) (hd : decode P = .ok i) :
    step s = exec i (s.withPending rest) := by
  simp only [step, ingress, hp, onPacket, withPending_cfg, hm, if_true, hd]

/-- A step on a packet that does not decode rejects it. -/
theorem step_packet_error {e : DecodeError} (hp : s.pktIn = .packet P :: rest)
    (hm : limitAdmits s.cfg.maxPktLen P.length = true) (hd : decode P = .error e) :
    step s = rejectPacket e P.length (s.withPending rest) := by
  simp only [step, ingress, hp, onPacket, withPending_cfg, hm, if_true, hd]

end

/-- Settles O10: `step_packet_ok` for every state. -/
theorem stepRunsTheDecodedPacket : Obligations.StepRunsTheDecodedPacket :=
  fun _ _ _ _ hp hm hd => step_packet_ok hp hm hd

end Sys2Proof.Machine
end

section
/-! The machine's step is the pseudocode of the reference (O9): the readers agree on every layout, the two Aggregators agree
on every buffer, and so do the two steps. -/

namespace Sys2Proof.Machine

/-! ## The reference's reads -/

section
variable {P : Packet} {a n w : Nat}

/-- The reference's `MemRead` is the number of the slice (R11). -/
theorem rd_eq_beNat (h : a + n ≤ P.length) : Reference.rd P a n = beNat ((P.drop a).take n) := by
  rw [slice_eq_map_getD h, beNat_map_range]
  rfl

theorem rdW_eq_ofNat (h : a + n ≤ P.length) :
    Reference.rdW w P a n = BitVec.ofNat w (beNat ((P.drop a).take n)) := by
  rw [Reference.rdW, rd_eq_beNat h]

/-- A read of `n` bytes is a number of `n` bytes. -/
theorem rd_lt (h : a + n ≤ P.length) : Reference.rd P a n < 256 ^ n := by
  have := beNat_lt ((P.drop a).take n)
  rw [rd_eq_beNat h]
  rwa [List.length_take, List.length_drop, Nat.min_eq_left (by omega)] at this

/-- A byte read as an 8-bit field loses nothing. -/
theorem rdW_one_toNat (h : a + 1 ≤ P.length) : (Reference.rdW 8 P a 1).toNat = Reference.rd P a 1 := by
  rw [Reference.rdW, BitVec.toNat_ofNat, Nat.mod_eq_of_lt (show _ < 2 ^ 8 from rd_lt h)]

end

/-! ## The records -/

/-- Shifting three bytes together is adding their weighted values (R111). -/
theorem assembleVersion_eq_ofNat (x y z : U8) :
    assembleVersion x y z = BitVec.ofNat 32 (x.toNat * 2 ^ 16 + y.toNat * 2 ^ 8 + z.toNat) := by
  have hz : z.toNat < 2 ^ 8 := z.isLt
  have hyz : y.toNat * 2 ^ 8 + z.toNat < 2 ^ 16 := by omega
  have sum_eq_or : x.toNat * 2 ^ 16 + y.toNat * 2 ^ 8 + z.toNat =
      x.toNat * 2 ^ 16 ||| y.toNat * 2 ^ 8 ||| z.toNat := by
    rw [Nat.add_assoc, Nat.mul_comm x.toNat, Nat.two_pow_add_eq_or_of_lt hyz, Nat.mul_comm y.toNat,
      Nat.two_pow_add_eq_or_of_lt hz, Nat.or_assoc]
  apply BitVec.eq_of_toNat_eq
  simp only [assembleVersion, sum_eq_or, BitVec.toNat_or, BitVec.toNat_shiftLeft, BitVec.toNat_setWidth,
    BitVec.toNat_ofNat, Nat.shiftLeft_eq, Nat.or_mod_two_pow, Nat.mod_mul_mod]

/-- `DecodeStatus` of the reference is the machine's report of layout S (R172). -/
theorem decodeStatus_eq {P : Packet} (h : 113 ≤ P.length) :
    Reference.decodeStatus P = statusReportOf (statusWireAt P) := by
  have version : ∀ a, a + 3 ≤ 113 →
      BitVec.ofNat 32 (Reference.rd P a 1 * 2 ^ 16 + Reference.rd P (a + 1) 1 * 2 ^ 8 + Reference.rd P (a + 2) 1) =
        assembleVersion (Reference.rdW 8 P a 1) (Reference.rdW 8 P (a + 1) 1) (Reference.rdW 8 P (a + 2) 1) :=
    fun a ha => by
      rw [assembleVersion_eq_ofNat, rdW_one_toNat (by omega), rdW_one_toNat (by omega), rdW_one_toNat (by omega)]
  have serial : (List.range 26).map (fun k => Reference.byte P (45 + k)) = (P.drop 45).take 26 :=
    (slice_eq_map_getD (by omega)).symm
  simp (disch := omega) only [Reference.decodeStatus, version 71, version 78, serial, rdW_eq_ofNat]
  rfl

/-- `DecodeChunk` of the reference is the machine's detection of layout D (R263). -/
theorem decodeChunk_eq {P : Packet} {j : Nat} (h : 48 + 28 * j + 28 ≤ P.length) :
    Reference.decodeChunk P j = detectionOf (chunkWireAt P (48 + 28 * j)) := by
  simp (disch := omega) only [Reference.decodeChunk, rdW_eq_ofNat, ← s16_eq_toInt]
  rfl

/-- The declared count is byte 47 (R103). -/
theorem toNat_detectionsInPacket {P : Packet} (h : 48 ≤ P.length) :
    (eventWireAt P).detectionsInPacket.toNat = Reference.rd P 47 1 := by
  have field : (eventWireAt P).detectionsInPacket = Reference.rdW 8 P 47 1 := (rdW_eq_ofNat (by omega)).symm
  rw [field, rdW_one_toNat (by omega)]

/-- The chunks that layout E declares and the packet carries (R116, R260). -/
def chunksAt (P : Packet) : List ChunkWire :=
  (List.range (Reference.chunkCount P)).map fun j => chunkWireAt P (48 + 28 * j)

theorem decodeEventPayload_eq_chunksAt {P : Packet} (h : 48 ≤ P.length) :
    decodeEventPayload P =
      .ok (.full (eventWireAt P) (chunksAt P) (P.drop (48 + 28 * Reference.chunkCount P))) := by
  have hk : chunkCount (eventWireAt P).detectionsInPacket.toNat (P.length - 48) = Reference.chunkCount P := by
    rw [toNat_detectionsInPacket h]
    rfl
  rw [decodeEventPayload_of_le h, hk]
  rfl

/-- The header, layout E, the chunks and the ignored bytes make up the packet (R100, R116). -/
theorem length_full_chunksAt {P : Packet} (h : 48 ≤ P.length) :
    16 + (EventPayload.full (eventWireAt P) (chunksAt P) (P.drop (48 + 28 * Reference.chunkCount P))).length =
      P.length := by
  have hk : Reference.chunkCount P ≤ (P.length - 48) / 28 := Nat.min_le_right _ _
  rw [EventPayload.length, chunksAt, List.length_map, List.length_range, List.length_drop]
  omega

/-- `DecodeEvent` of the reference is the machine's report of layout E and its chunks (R222, R260). -/
theorem decodeEvent_eq {P : Packet} (t : EventType) (h : 48 ≤ P.length) :
    Reference.decodeEvent t P = eventReportOf t (eventWireAt P) (chunksAt P) := by
  have chunks : (List.range (Reference.chunkCount P)).map (Reference.decodeChunk P) = detectionsOf (chunksAt P) := by
    rw [detectionsOf, chunksAt, List.map_map]
    refine List.map_congr_left fun j hj => decodeChunk_eq ?_
    have hj : j < min (Reference.rd P 47 1) ((P.length - 48) / 28) := List.mem_range.mp hj
    omega
  simp (disch := omega) only [Reference.decodeEvent, chunks, rdW_eq_ofNat]
  rfl

/-! ## What the answer does to the state -/

/-- The state after the reference's answer: its buffers, and its emissions and result as one more transaction. -/
def State.afterAnswer (s : State) (a : Reference.Answer) : State :=
  { near := a.1.1, far := a.1.2, cfg := s.cfg, pktIn := s.pktIn, egress := s.egress ++ [{ out := a.2.1, res := a.2.2 }] }

/-- The status branch of the reference's `Step` (R146). -/
def statusAnswer (S : Buf × Buf) (P : Packet) : Reference.Answer :=
  if P.length - 16 < 97 then Reference.raise S P.length .truncatedPacket .statusPayload (some .status) false
  else (S, [.publishStatus (Reference.decodeStatus P)], ⟨.ok, .none, some .status, .statusPublished, false, P.length⟩)

section
variable (s : State)

theorem afterAnswer_same (out : List Emission) (res : Res) :
    s.afterAnswer ((s.near, s.far), out, res) = s.answer out res := rfl

theorem afterAnswer_raise (n : Nat) (code : ResCode) (sub : ResSub) (t : Option HeaderType) (mm : Bool) :
    s.afterAnswer (Reference.raise (s.near, s.far) n code sub t mm) = raiseFault s code sub t mm n := rfl

/-! ## The Aggregator -/

theorem limitReached_iff (cap : Limit) (k : Nat) : limitReached cap k = true ↔ cap = .finite k := by
  cases cap with
  | unbounded => simp [limitReached]
  | finite n => rw [limitReached, beq_iff_eq, Limit.finite.injEq, eq_comm]

/-- The event branch of the reference on a payload shorter than layout E (R220). -/
theorem eventStep_short {P : Packet} (t : EventType) (h : P.length - 16 < 32) :
    s.afterAnswer (Reference.eventStep s.cfg (s.near, s.far) P t (headerTypeOf t) (cat t)) =
      raiseFault s .truncatedPacket .eventPayload (some (headerTypeOf t)) false P.length := by
  rw [Reference.eventStep, if_pos h]
  rfl

/-- The event branch of the reference in Immediate mode is immediate emission (R148). -/
theorem eventStep_immediate {P : Packet} (t : EventType) (h : 48 ≤ P.length) (hm : s.cfg.emitMode = .immediate) :
    s.afterAnswer (Reference.eventStep s.cfg (s.near, s.far) P t (headerTypeOf t) (cat t)) =
      publishOrSuppress s (Reference.decodeEvent t P) (countMismatch (Reference.decodeEvent t P)) P.length := by
  rw [Reference.eventStep, if_neg (by omega), hm]
  obtain ⟨hd, hs⟩ | ⟨hd, hs⟩ := publishOrSuppress_cases s (Reference.decodeEvent t P)
    (countMismatch (Reference.decodeEvent t P)) P.length
  · rw [hs]
    simp only [gt_iff_lt, if_pos hd]
    rfl
  · rw [hs]
    simp only [gt_iff_lt, hd, Nat.lt_irrefl, if_false]
    rfl

/-- The event branch of the reference when the arrival changes buffer `b` (R300). -/
theorem eventStep_arrived {P : Packet} {t : EventType} {b : Category} {v : Buf} {out : List Emission}
    {act : ResAction} (h : 48 ≤ P.length) (hm : s.cfg.emitMode = .aggregated)
    (ha : Reference.arrive s.cfg.batchCap b (s.buf b) (Reference.decodeEvent t P) = some (v, out, act)) :
    s.afterAnswer (Reference.eventStep s.cfg (s.near, s.far) P t (headerTypeOf t) b) =
      (s.setBuf b v).answer out
        (eventResult (Reference.decodeEvent t P) act (countMismatch (Reference.decodeEvent t P)) P.length) := by
  rw [Reference.eventStep, if_neg (by omega), hm]
  cases b with
  | far => rw [buf_far] at ha; simp only [ha]; rfl
  | near => rw [buf_near] at ha; simp only [ha]; rfl

/-- The event branch of the reference when buffer `b` is full (R309). -/
theorem eventStep_overflowed {P : Packet} {t : EventType} {b : Category} (h : 48 ≤ P.length)
    (hm : s.cfg.emitMode = .aggregated)
    (ha : Reference.arrive s.cfg.batchCap b (s.buf b) (Reference.decodeEvent t P) = none) :
    s.afterAnswer (Reference.eventStep s.cfg (s.near, s.far) P t (headerTypeOf t) b) =
      raiseFault s .batchOverflow .none (some (headerTypeOf t)) (countMismatch (Reference.decodeEvent t P)) P.length := by
  rw [Reference.eventStep, if_neg (by omega), hm]
  cases b with
  | far => rw [buf_far] at ha; simp only [ha]; rfl
  | near => rw [buf_near] at ha; simp only [ha]; rfl

/-- The event branch of the reference in Aggregated mode is the Aggregator, row by row of R317. -/
theorem eventStep_aggregated {P : Packet} (t : EventType) (h : 48 ≤ P.length) (hm : s.cfg.emitMode = .aggregated) :
    s.afterAnswer (Reference.eventStep s.cfg (s.near, s.far) P t (headerTypeOf t) (cat t)) =
      aggArrive s (cat t) (Reference.decodeEvent t P) (countMismatch (Reference.decodeEvent t P)) P.length := by
  obtain ⟨hb, ha⟩ | ⟨list, hb, hc, ha⟩ | ⟨list, hb, hc, ha⟩ | ⟨ts, list, hb, ht, ha⟩ := aggArrive_cases s (cat t)
    (Reference.decodeEvent t P) (countMismatch (Reference.decodeEvent t P)) P.length
  · rw [ha]
    exact eventStep_arrived s h hm (by rw [hb, Reference.arrive])
  · have room : ¬ s.cfg.batchCap = .finite list.length := by
      rw [← limitReached_iff, hc]
      decide
    rw [ha]
    exact eventStep_arrived s h hm (by rw [hb, Reference.arrive, if_pos rfl, if_neg room])
  · rw [ha]
    exact eventStep_overflowed s h hm (by
      rw [hb, Reference.arrive, if_pos rfl, if_pos ((limitReached_iff _ _).mp hc)])
  · rw [ha]
    exact eventStep_arrived s h hm (by rw [hb, Reference.arrive, if_neg ht])

/-! ## The two branches of the step -/

/-- The event branches agree on every packet with a header (R146). -/
theorem arriveEvent_eq_eventStep {P : Packet} {p : EventPayload} (t : EventType) (h : 16 ≤ P.length)
    (hp : decodeEventPayload P = .ok p) :
    arriveEvent t p s =
      s.afterAnswer (Reference.eventStep s.cfg (s.near, s.far) P t (headerTypeOf t) (cat t)) := by
  by_cases hlen : P.length - 16 < 32
  · obtain rfl : .short (P.drop 16) = p := Except.ok.inj ((decodeEventPayload_of_lt hlen).symm.trans hp)
    have len : 16 + (EventPayload.short (P.drop 16)).length = P.length := by
      rw [EventPayload.length, List.length_drop]
      omega
    rw [eventStep_short s t hlen, arriveEvent, len]
  · have h48 : 48 ≤ P.length := by omega
    obtain rfl := Except.ok.inj ((decodeEventPayload_eq_chunksAt h48).symm.trans hp)
    have len := length_full_chunksAt h48
    cases hm : s.cfg.emitMode with
    | immediate => rw [eventStep_immediate s t h48 hm, decodeEvent_eq t h48, arriveEvent, len, hm]
    | aggregated => rw [eventStep_aggregated s t h48 hm, decodeEvent_eq t h48, arriveEvent, len, hm]; rfl

/-- STATUS agrees on every packet with a header (R146, R150). -/
theorem execStatus_eq_statusAnswer {P : Packet} {p : StatusPayload} (hr : HeaderRest) (h : 16 ≤ P.length)
    (hp : decodeStatusPayload P = .ok p) :
    execStatus hr p s = .next (s.afterAnswer (statusAnswer (s.near, s.far) P)) := by
  rw [statusAnswer]
  by_cases hlen : P.length - 16 < 97
  · obtain rfl : .short (P.drop 16) = p := Except.ok.inj ((decodeStatusPayload_of_lt hlen).symm.trans hp)
    have len : 16 + (StatusPayload.short (P.drop 16)).length = P.length := by
      rw [StatusPayload.length, List.length_drop]
      omega
    rw [if_pos hlen, execStatus, len, afterAnswer_raise]
  · have h113 : 113 ≤ P.length := by omega
    obtain rfl := Except.ok.inj ((decodeStatusPayload_of_le h113).symm.trans hp)
    have len : 16 + (StatusPayload.full (statusWireAt P) (P.drop 113)).length = P.length := by
      rw [StatusPayload.length, List.length_drop]
      omega
    rw [if_neg hlen, execStatus, len, decodeStatus_eq h113, afterAnswer_same]

end

/-! ## The steps -/

section
variable {P : Packet}

/-- The classifier finds a type exactly at its magic (R105, R143). -/
theorem classifyMagic_eq_some_iff (m : U32) (ty : HeaderType) : classifyMagic m = some ty ↔ m = ty.magic := by
  constructor
  · intro h
    unfold classifyMagic at h
    split_ifs at h with hm hm hm hm hm hm <;> cases h <;> exact hm
  · rintro rfl
    cases ty <;> rfl

/-- A Header Type is Status or that of an event type (R39). -/
theorem headerType_cases (ty : HeaderType) : ty = .status ∨ ∃ t, ty = headerTypeOf t := by
  cases ty with
  | status => exact .inl rfl
  | far0 => exact .inr ⟨.far0, rfl⟩
  | far1 => exact .inr ⟨.far1, rfl⟩
  | near0 => exact .inr ⟨.near0, rfl⟩
  | near1 => exact .inr ⟨.near1, rfl⟩
  | near2 => exact .inr ⟨.near2, rfl⟩

/-- The first 32-bit word of a packet with a header, as the classifier reads it (R143). -/
def magicAt (P : Packet) : U32 := BitVec.ofNat 32 (beNat (P.take 4))

/-- The reference's magic is the number of the classifier's word. -/
theorem rd_magic (h : 16 ≤ P.length) : Reference.rd P 0 4 = (magicAt P).toNat := by
  have lt : Reference.rd P 0 4 < 2 ^ 32 := rd_lt (Nat.le_trans (by decide) h)
  have eq : Reference.rd P 0 4 = beNat (P.take 4) := rd_eq_beNat (Nat.le_trans (by decide) h)
  rw [magicAt, BitVec.toNat_ofNat, ← eq, Nat.mod_eq_of_lt lt]

theorem decode_short (h : P.length < 16) : decode P = .error .shortHeader := by
  rw [decode_eq, if_pos h]

theorem decode_unknown (h : 16 ≤ P.length) (hc : classifyMagic (magicAt P) = none) :
    decode P = .error .unknownMagic := by
  rw [magicAt] at hc
  rw [decode_eq, if_neg (by omega), hc]

theorem decode_status {p : StatusPayload} (h : 16 ≤ P.length) (hc : magicAt P = HeaderType.magic .status)
    (hp : decodeStatusPayload P = .ok p) :
    decode P = .ok (.status { e2eLen := (P.drop 4).take 4, unexamined := (P.drop 8).take 8 } p) := by
  rw [← classifyMagic_eq_some_iff, magicAt] at hc
  rw [decode_eq, if_neg (by omega), hc, hp]
  rfl

theorem decode_event {t : EventType} {p : EventPayload} (h : 16 ≤ P.length)
    (hc : magicAt P = (headerTypeOf t).magic) (hp : decodeEventPayload P = .ok p) :
    decode P = .ok (eventInstr t { e2eLen := (P.drop 4).take 4, unexamined := (P.drop 8).take 8 } p) := by
  rw [← classifyMagic_eq_some_iff, magicAt] at hc
  rw [decode_eq, if_neg (by omega), hc, hp]
  cases t <;> rfl

/-! ### The reference's step, by what the packet is -/

variable {cfg : Cfg} {S : Buf × Buf}

theorem reference_step_short (h : P.length < 16) :
    Reference.step cfg S P = Reference.raise S P.length .malformedHeader .shortHeader none false := if_pos h

theorem reference_step_unknown (h : 16 ≤ P.length) (hc : classifyMagic (magicAt P) = none) :
    Reference.step cfg S P = Reference.raise S P.length .malformedHeader .unknownMagic none false := by
  have other (ty : HeaderType) : ¬ Reference.rd P 0 4 = ty.magic.toNat := by
    rw [rd_magic h, BitVec.toNat_inj, ← classifyMagic_eq_some_iff, hc]
    exact Option.some_ne_none ty ∘ Eq.symm
  rw [Reference.step, if_neg (by omega)]
  exact (if_neg (other .status)).trans <| (if_neg (other .far0)).trans <| (if_neg (other .far1)).trans <|
    (if_neg (other .near0)).trans <| (if_neg (other .near1)).trans <| if_neg (other .near2)

theorem reference_step_status (h : 16 ≤ P.length) (hc : magicAt P = HeaderType.magic .status) :
    Reference.step cfg S P = statusAnswer S P := by
  rw [Reference.step, if_neg (by omega), rd_magic h, hc]
  rfl

theorem reference_step_event {t : EventType} (h : 16 ≤ P.length) (hc : magicAt P = (headerTypeOf t).magic) :
    Reference.step cfg S P = Reference.eventStep cfg S P t (headerTypeOf t) (cat t) := by
  rw [Reference.step, if_neg (by omega), rd_magic h, hc]
  cases t <;> rfl

end

/-- The machine's step is the reference's on every packet that the port carries: too short, of unknown magic, STATUS, or
one of the five event types (R146). -/
theorem step_eq_afterAnswer {s : State} {P : Packet} {rest : List Input} (hp : s.pktIn = .packet P :: rest)
    (hm : limitAdmits s.cfg.maxPktLen P.length = true) :
    step s = .next ((s.withPending rest).afterAnswer (Reference.step s.cfg (s.near, s.far) P)) := by
  by_cases h : P.length < 16
  · rw [step_packet_error hp hm (decode_short h), reference_step_short h]
    rfl
  have h : 16 ≤ P.length := by omega
  cases hc : classifyMagic (magicAt P) with
  | none =>
    rw [step_packet_error hp hm (decode_unknown h hc), reference_step_unknown h hc]
    rfl
  | some ty =>
    rw [classifyMagic_eq_some_iff] at hc
    obtain rfl | ⟨t, rfl⟩ := headerType_cases ty
    · obtain ⟨p, hpay⟩ := decodeStatusPayload_isOk P
      rw [step_packet_ok hp hm (decode_status h hc hpay), reference_step_status h hc, exec,
        execStatus_eq_statusAnswer (s.withPending rest) _ h hpay]
      rfl
    · obtain ⟨p, hpay⟩ := decodeEventPayload_isOk P
      rw [step_packet_ok hp hm (decode_event h hc hpay), reference_step_event h hc, exec_eventInstr,
        arriveEvent_eq_eventStep (s.withPending rest) t h hpay]
      rfl

/-- Settles O9: the reference's answer, written out as the next state. -/
theorem stepIsTheSpecsPseudocode : Obligations.StepIsTheSpecsPseudocode :=
  fun _ _ _ hp hm => step_eq_afterAnswer hp hm

end Sys2Proof.Machine
end

section
/-! The binary64 operations are exact arithmetic rounded to nearest, ties to even (O47, O48). Magnitudes are counted in units of
`2 ^ -1074`: the magnitude bits of a finite pattern, read as a number, index the magnitudes in rising order, so that
rounding picks one of two consecutive indices. -/

namespace Sys2Proof.Machine

/-! ## Magnitude bits -/

/-- The magnitude, in units of `2 ^ -1074`, that magnitude bits stand for; beyond the finite range it goes on as if the
exponent field had no end. -/
def magUnits (n : Nat) : Nat :=
  (if n / 2 ^ 52 = 0 then n % 2 ^ 52 else 2 ^ 52 + n % 2 ^ 52) * 2 ^ (n / 2 ^ 52 - 1)

/-- The magnitude bits of a significand at a scale; the significand may have rounded up to `2 ^ 53`. -/
theorem magUnits_add {e m : Nat} (hm : m ≤ 2 ^ 53) (he : e = 0 ∨ 2 ^ 52 ≤ m) :
    magUnits (e * 2 ^ 52 + m) = m * 2 ^ e := by
  rcases Nat.lt_or_ge m (2 ^ 52) with hlt | hge
  · obtain rfl : e = 0 := by omega
    have field : (0 * 2 ^ 52 + m) / 2 ^ 52 = 0 := by omega
    rw [magUnits, if_pos field, field, Nat.zero_mul, Nat.zero_add, Nat.mod_eq_of_lt hlt]
  · rcases Nat.lt_or_eq_of_le hm with hlt | rfl
    · have field : (e * 2 ^ 52 + m) / 2 ^ 52 = e + 1 := by omega
      have frac : 2 ^ 52 + (e * 2 ^ 52 + m) % 2 ^ 52 = m := by omega
      rw [magUnits, if_neg (by omega), field, frac, Nat.add_sub_cancel]
    · have field : (e * 2 ^ 52 + 2 ^ 53) / 2 ^ 52 = e + 1 + 1 := by omega
      have frac : 2 ^ 52 + (e * 2 ^ 52 + 2 ^ 53) % 2 ^ 52 = 2 ^ 52 := by omega
      rw [magUnits, if_neg (by omega), field, frac, Nat.add_sub_cancel, pow_succ 2 e]
      ring

/-- All magnitude bits are a significand at a scale. -/
theorem exists_significand (n : Nat) :
    ∃ e m, n = e * 2 ^ 52 + m ∧ m < 2 ^ 53 ∧ (e = 0 ∨ 2 ^ 52 ≤ m) :=
  ⟨n / 2 ^ 52 - 1, n - (n / 2 ^ 52 - 1) * 2 ^ 52, by omega, by omega, by omega⟩

theorem magUnits_strictMono : StrictMono magUnits := by
  refine strictMono_nat_of_lt_succ fun n => ?_
  obtain ⟨e, m, rfl, hm, he⟩ := exists_significand n
  rw [Nat.add_assoc, magUnits_add hm.le he, magUnits_add (by omega) (by omega)]
  exact Nat.mul_lt_mul_of_pos_right (Nat.lt_succ_self m) (by positivity)

/-! ## Patterns -/

/-- The magnitude bits of a pattern: all but the sign bit. -/
def fMag (x : F64) : Nat := x.toNat % 2 ^ 63

/-- The first magnitude bits beyond the finite range: those of the infinities. -/
def infMag : Nat := 2047 * 2 ^ 52

/-- The sign as a factor. -/
def signOf (neg : Bool) : ℚ := if neg then -1 else 1

@[simp] theorem signOf_true : signOf true = -1 := rfl
@[simp] theorem signOf_false : signOf false = 1 := rfl

theorem signOf_bne (p q : Bool) : signOf (p != q) = signOf p * signOf q := by
  cases p <;> cases q <;> norm_num

theorem signOf_not (p : Bool) : signOf (!p) = -signOf p := by
  cases p <;> norm_num

theorem abs_signOf_mul (p : Bool) (q : ℚ) : |signOf p * q| = |q| := by
  cases p <;> simp

section
variable {x : F64}

theorem fMag_div (x : F64) : fMag x / 2 ^ 52 = fExpField x := by
  rw [fMag, fExpField]
  omega

theorem fMag_mod (x : F64) : fMag x % 2 ^ 52 = fFrac x := by
  rw [fMag, fFrac]
  omega

theorem fSig_mul_pow (x : F64) : fSig x * 2 ^ fScale x = magUnits (fMag x) := by
  rw [magUnits, fMag_div, fMag_mod, fSig, fScale]

theorem fIsFinite_iff_fMag (x : F64) : fIsFinite x = true ↔ fMag x < infMag := by
  have lt : fMag x < 2 ^ 63 := Nat.mod_lt _ (by positivity)
  rw [fIsFinite, bne_iff_ne, ← fMag_div, infMag]
  omega

theorem fIsNaN_of_finite (h : fIsFinite x = true) : fIsNaN x = false := by
  rw [fIsFinite, bne_iff_ne] at h
  rw [fIsNaN, beq_false_of_ne h, Bool.false_and]

theorem fIsInf_of_finite (h : fIsFinite x = true) : fIsInf x = false := by
  rw [fIsFinite, bne_iff_ne] at h
  rw [fIsInf, beq_false_of_ne h, Bool.false_and]

theorem cast_fSignedSig (x : F64) : (fSignedSig x : ℚ) = signOf (fSign x) * fSig x := by
  rw [fSignedSig]
  cases fSign x <;> simp

/-- The value of a finite pattern by its significand and scale. -/
theorem fValue_eq_sig (h : fIsFinite x = true) :
    fValue x = signOf (fSign x) * (fSig x * 2 ^ fScale x) / 2 ^ 1074 := by
  rw [fValue, if_pos h, cast_fSignedSig, mul_assoc]

/-- The value of a finite pattern by its sign and magnitude bits. -/
theorem fValue_eq_magUnits (h : fIsFinite x = true) :
    fValue x = signOf (fSign x) * magUnits (fMag x) / 2 ^ 1074 := by
  rw [fValue_eq_sig h, ← fSig_mul_pow]
  push_cast
  rfl

theorem fValue_of_fSig_zero (h : fIsFinite x = true) (h0 : fSig x = 0) : fValue x = 0 := by
  rw [fValue_eq_sig h, h0]
  simp

end

/-! ## Packed patterns -/

section
variable (neg : Bool) (mag : Nat)

/-- Clamped magnitude bits leave the sign bit free. -/
theorem min_infMag_lt : min mag infMag < 2 ^ 63 := (Nat.min_le_right _ _).trans_lt (by decide)

theorem fPack_toNat : (fPack neg mag).toNat = (if neg then 2 ^ 63 else 0) + min mag infMag := by
  have bound := min_infMag_lt mag
  rw [fPack, BitVec.toNat_ofNat, ← infMag]
  refine Nat.mod_eq_of_lt ?_
  split <;> omega

theorem fMag_fPack : fMag (fPack neg mag) = min mag infMag := by
  have bound := min_infMag_lt mag
  rw [fMag, fPack_toNat]
  split <;> omega

theorem fSign_fPack : fSign (fPack neg mag) = neg := by
  have bound := min_infMag_lt mag
  rw [fSign, BitVec.msb_eq_decide, fPack_toNat]
  cases neg with
  | true => exact decide_eq_true (Nat.le_add_right _ _)
  | false => exact decide_eq_false (by simpa only [Bool.false_eq_true, if_false, Nat.zero_add, not_le] using bound)

variable {mag}

theorem fIsFinite_fPack_iff : fIsFinite (fPack neg mag) = true ↔ mag < infMag := by
  rw [fIsFinite_iff_fMag, fMag_fPack]
  omega

theorem fValue_fPack (h : mag < infMag) : fValue (fPack neg mag) = signOf neg * magUnits mag / 2 ^ 1074 := by
  rw [fValue_eq_magUnits ((fIsFinite_fPack_iff neg).mpr h), fSign_fPack, fMag_fPack, Nat.min_eq_left h.le]

theorem fPack_toNat_mod_two (h : mag < infMag) : (fPack neg mag).toNat % 2 = mag % 2 := by
  rw [fPack_toNat, Nat.min_eq_left h.le]
  split <;> omega

theorem fIsFinite_fZero : fIsFinite (fZero neg) = true := (fIsFinite_fPack_iff neg).mpr (by decide)

theorem fValue_fZero : fValue (fZero neg) = 0 := by
  rw [fZero, fValue_fPack neg (by decide), show magUnits 0 = 0 from rfl]
  simp

end

/-! ## The largest finite value -/

/-- The magnitude bits of the largest finite value. -/
def maxMag : Nat := 0x7FEFFFFFFFFFFFFF

theorem lt_infMag_iff (n : Nat) : n < infMag ↔ n ≤ maxMag := by
  rw [infMag, maxMag]
  omega

theorem fValue_max : fValue 0x7FEFFFFFFFFFFFFF = magUnits maxMag / 2 ^ 1074 := by
  have h : (0x7FEFFFFFFFFFFFFF : F64) = fPack false maxMag := by decide
  rw [h, fValue_fPack false (by decide), signOf_false, one_mul]

theorem abs_fValue_le_max {y : F64} (h : fIsFinite y = true) : |fValue y| ≤ fValue 0x7FEFFFFFFFFFFFFF := by
  rw [fValue_max, fValue_eq_magUnits h, mul_div_assoc, abs_signOf_mul,
    abs_of_nonneg (div_nonneg (Nat.cast_nonneg _) (by positivity))]
  refine div_le_div_of_nonneg_right (Nat.cast_le.mpr ?_) (by positivity)
  exact magUnits_strictMono.monotone ((lt_infMag_iff _).mp ((fIsFinite_iff_fMag y).mp h))

/-! ## Rounding to one of two neighbours -/

/-- Magnitude bits `r` are a nearest choice for the magnitude `q`, in units: `q` lies between two consecutive magnitudes, `r`
is the one that is not farther, and the even one half-way. -/
def RoundsTo (r : Nat) (q : ℚ) : Prop :=
  ∃ n, magUnits n ≤ q ∧ q ≤ magUnits (n + 1) ∧
    ((r = n ∧ 2 * q ≤ magUnits n + magUnits (n + 1)) ∨ (r = n + 1 ∧ magUnits n + magUnits (n + 1) ≤ 2 * q)) ∧
    (2 * q = magUnits n + magUnits (n + 1) → r % 2 = 0)

/-- Of two neighbours the one that is not farther from `q` is nearest among all values outside the gap, and another value
is as near only half-way. -/
theorem nearest_of_gap {lo hi q r y : ℚ} (hlo : lo ≤ q) (hhi : q ≤ hi)
    (hr : (r = lo ∧ 2 * q ≤ lo + hi) ∨ (r = hi ∧ lo + hi ≤ 2 * q)) (hy : y ≤ lo ∨ hi ≤ y) :
    |r - q| ≤ |y - q| ∧ (|r - q| = |y - q| → y ≠ r → 2 * q = lo + hi) := by
  obtain ⟨rfl, hq⟩ | ⟨rfl, hq⟩ := hr <;> obtain hy | hy := hy
  · rw [abs_of_nonpos (by linarith), abs_of_nonpos (by linarith)]
    exact ⟨by linarith, fun h hne => absurd (by linarith) hne⟩
  · rw [abs_of_nonpos (by linarith), abs_of_nonneg (by linarith)]
    exact ⟨by linarith, fun h _ => by linarith⟩
  · rw [abs_of_nonneg (by linarith), abs_of_nonpos (by linarith)]
    exact ⟨by linarith, fun h _ => by linarith⟩
  · rw [abs_of_nonneg (by linarith), abs_of_nonneg (by linarith)]
    exact ⟨by linarith, fun h hne => absurd (by linarith) hne⟩

/-- No signed magnitude lies strictly between two consecutive magnitudes. -/
theorem signed_magUnits_gap (neg : Bool) (k n : Nat) :
    signOf neg * magUnits k ≤ magUnits n ∨ (magUnits (n + 1) : ℚ) ≤ signOf neg * magUnits k := by
  cases neg with
  | true =>
    have h1 : (0 : ℚ) ≤ magUnits k := by positivity
    have h2 : (0 : ℚ) ≤ magUnits n := by positivity
    exact .inl (by rw [signOf_true]; linarith)
  | false =>
    rw [signOf_false, one_mul, Nat.cast_le, Nat.cast_le]
    exact (Nat.lt_or_ge n k).symm.imp (magUnits_strictMono.monotone ·) (magUnits_strictMono.monotone ·)

theorem abs_signed_sub {neg : Bool} {c : ℚ} (hc : 0 < c) (p q : ℚ) :
    |signOf neg * p / c - signOf neg * q / c| = |p - q| / c := by
  rw [← sub_div, ← mul_sub, abs_div, abs_signOf_mul, abs_of_pos hc]

section
variable {r : Nat} {q : ℚ} (neg : Bool)

theorem RoundsTo.nonneg (h : RoundsTo r q) : 0 ≤ q := by
  obtain ⟨n, hlo, -⟩ := h
  exact (Nat.cast_nonneg _).trans hlo

/-- A magnitude within the finite range is not rounded beyond it. -/
theorem RoundsTo.le_maxMag (h : RoundsTo r q) (hq : q ≤ magUnits maxMag) : r ≤ maxMag := by
  obtain ⟨n, hlo, -, hr, -⟩ := h
  have hn : n ≤ maxMag := magUnits_strictMono.le_iff_le.mp (by exact_mod_cast hlo.trans hq)
  obtain ⟨rfl, -⟩ | ⟨rfl, hup⟩ := hr
  · exact hn
  · refine Nat.lt_of_le_of_ne hn fun heq => ?_
    have hlt : (magUnits n : ℚ) < magUnits (n + 1) := by exact_mod_cast magUnits_strictMono (Nat.lt_succ_self n)
    rw [← heq] at hq
    linarith

/-- A nearest choice of magnitude bits, with a sign, is the nearest pattern, ties to even (R14). -/
theorem RoundsTo.nearestEven (h : RoundsTo r q) : NearestEven (fPack neg r) (signOf neg * q / 2 ^ 1074) := by
  have hc : (0 : ℚ) < 2 ^ 1074 := by positivity
  generalize hC : (2 : ℚ) ^ 1074 = c at hc
  constructor
  · intro hx
    rw [fValue_max, hC, mul_div_assoc, abs_signOf_mul, abs_of_nonneg (div_nonneg h.nonneg hc.le),
      div_le_div_iff_of_pos_right hc] at hx
    exact (fIsFinite_fPack_iff neg).mpr ((lt_infMag_iff r).mpr (h.le_maxMag hx))
  · intro hfin y hy
    have hr : r < infMag := (fIsFinite_fPack_iff neg).mp hfin
    have value_y : fValue y = signOf neg * (signOf (neg != fSign y) * magUnits (fMag y)) / c := by
      rw [fValue_eq_magUnits hy, hC, signOf_bne]
      cases neg <;> simp
    rw [value_y, fValue_fPack neg hr, hC, abs_signed_sub hc, abs_signed_sub hc, fPack_toNat_mod_two neg hr,
      div_le_div_iff_of_pos_right hc, div_left_inj' hc.ne']
    obtain ⟨n, hlo, hhi, hrn, heven⟩ := h
    have hrq : ((magUnits r : ℚ) = magUnits n ∧ 2 * q ≤ magUnits n + magUnits (n + 1)) ∨
        ((magUnits r : ℚ) = magUnits (n + 1) ∧ magUnits n + magUnits (n + 1) ≤ 2 * q) :=
      hrn.imp (fun ⟨e, h⟩ => ⟨by rw [e], h⟩) (fun ⟨e, h⟩ => ⟨by rw [e], h⟩)
    obtain ⟨near, tie⟩ := nearest_of_gap hlo hhi hrq (signed_magUnits_gap (neg != fSign y) (fMag y) n)
    exact ⟨near, fun heq hne => heven (tie heq fun e => hne (by rw [e]))⟩

end

/-- A significand `m` at scale `e` and a fraction `f` of its last place: the nearest choice is `m` or `m + 1`, by how `f`
compares with a half. -/
theorem roundsTo_fraction {m e r : Nat} {f : ℚ} (hm : m < 2 ^ 53) (he : e = 0 ∨ 2 ^ 52 ≤ m) (hf0 : 0 ≤ f) (hf1 : f ≤ 1)
    (hr : (r = e * 2 ^ 52 + m ∧ 2 * f ≤ 1) ∨ (r = e * 2 ^ 52 + m + 1 ∧ 1 ≤ 2 * f)) (heven : 2 * f = 1 → r % 2 = 0) :
    RoundsTo r ((m + f) * 2 ^ e) := by
  have hpow : (0 : ℚ) < 2 ^ e := by positivity
  have lo : (magUnits (e * 2 ^ 52 + m) : ℚ) = m * 2 ^ e := by
    rw [magUnits_add hm.le he]
    push_cast
    rfl
  have hi : (magUnits (e * 2 ^ 52 + m + 1) : ℚ) = (m + 1) * 2 ^ e := by
    rw [Nat.add_assoc, magUnits_add (by omega) (by omega)]
    push_cast
    rfl
  have twice : 2 * ((m + f) * 2 ^ e) = (2 * m + 2 * f) * 2 ^ e := by ring
  have sum : (m : ℚ) * 2 ^ e + (m + 1) * 2 ^ e = (2 * m + 1) * 2 ^ e := by ring
  have scaled {p q : ℚ} (h : p ≤ q) : p * 2 ^ e ≤ q * 2 ^ e := mul_le_mul_of_nonneg_right h hpow.le
  refine ⟨e * 2 ^ 52 + m, ?_⟩
  rw [lo, hi, twice, sum]
  exact ⟨scaled (by linarith), scaled (by linarith),
    hr.imp (And.imp_right fun h => scaled (by linarith)) (And.imp_right fun h => scaled (by linarith)),
    fun h => heven (add_left_cancel (mul_right_cancel₀ hpow.ne' h))⟩

/-- Rounding the quotient `n / d`, a significand at scale `e`, by its remainder: the rule of `roundMag`. -/
theorem roundsTo_quotient {n d e : Nat} (hd : 0 < d) (hm : n / d < 2 ^ 53) (he : e = 0 ∨ 2 ^ 52 ≤ n / d) :
    RoundsTo (e * 2 ^ 52 + n / d +
      (if 2 * (n % d) > d ∨ (2 * (n % d) = d ∧ n / d % 2 = 1) then 1 else 0)) ((n : ℚ) / d * 2 ^ e) := by
  have hrem : n % d < d := Nat.mod_lt _ hd
  have hdq : (0 : ℚ) < d := Nat.cast_pos.mpr hd
  have value : (n : ℚ) / d = (n / d : Nat) + (n % d : Nat) / d := by
    rw [eq_comm, eq_div_iff hdq.ne', add_mul, div_mul_cancel₀ _ hdq.ne']
    exact_mod_cast Nat.div_add_mod' n d
  rw [value]
  generalize n / d = m at *
  generalize n % d = k at *
  have twice : 2 * ((k : ℚ) / d) = (2 * k : Nat) / d := by push_cast; ring
  refine roundsTo_fraction hm he (by positivity) ((div_le_one hdq).mpr (Nat.cast_le.mpr hrem.le)) ?_ ?_ <;> rw [twice]
  · rw [div_le_one hdq, one_le_div hdq, Nat.cast_le, Nat.cast_le]
    split
    · exact .inr ⟨rfl, by omega⟩
    · exact .inl ⟨Nat.add_zero _, by omega⟩
  · rw [div_eq_one_iff_eq hdq.ne', Nat.cast_inj]
    intro hhalf
    split <;> omega

/-- An integer power of two as a quotient of natural ones. -/
theorem zpow_eq_toNat_div (t : Int) : (2 : ℚ) ^ t = 2 ^ t.toNat / 2 ^ (-t).toNat := by
  rw [← zpow_natCast, ← zpow_natCast, ← zpow_sub₀ two_ne_zero]
  congr 1
  omega

section
variable {num den l a b : Nat}

/-- The scaled quotient has at most 53 bits. -/
theorem scaled_div_lt (hden : 0 < den) (h : num < den * 2 ^ (l + 1)) (hab : l + 1 + a ≤ 53 + b) :
    num * 2 ^ a / (den * 2 ^ b) < 2 ^ 53 := by
  rw [Nat.div_lt_iff_lt_mul (by positivity)]
  calc num * 2 ^ a < den * 2 ^ (l + 1) * 2 ^ a := Nat.mul_lt_mul_of_pos_right h (by positivity)
    _ = den * 2 ^ (l + 1 + a) := by rw [Nat.mul_assoc, ← pow_add]
    _ ≤ den * 2 ^ (53 + b) := Nat.mul_le_mul_left _ (Nat.pow_le_pow_right (by decide) hab)
    _ = 2 ^ 53 * (den * 2 ^ b) := by rw [pow_add]; ring

/-- The scaled quotient has at least 53 bits. -/
theorem le_scaled_div (hden : 0 < den) (h : den * 2 ^ l ≤ num) (hab : 52 + b ≤ l + a) :
    2 ^ 52 ≤ num * 2 ^ a / (den * 2 ^ b) := by
  rw [Nat.le_div_iff_mul_le (by positivity)]
  calc 2 ^ 52 * (den * 2 ^ b) = den * 2 ^ (52 + b) := by rw [pow_add]; ring
    _ ≤ den * 2 ^ (l + a) := Nat.mul_le_mul_left _ (Nat.pow_le_pow_right (by decide) hab)
    _ = den * 2 ^ l * 2 ^ a := by rw [Nat.mul_assoc, ← pow_add]
    _ ≤ num * 2 ^ a := Nat.mul_le_mul_right _ h

/-- Scaling both sides of a quotient moves its exponent. -/
theorem scaled_div_value (num den : Nat) (x : Int) {e : Int} (he : 0 ≤ e) :
    ((num * 2 ^ (-(e - x)).toNat : Nat) : ℚ) / ((den * 2 ^ (e - x).toNat : Nat) : ℚ) * 2 ^ e.toNat =
      (num : ℚ) / den * 2 ^ x := by
  have hx : (2 : ℚ) ^ x = 2 ^ (-(e - x)) * 2 ^ e.toNat := by
    rw [← zpow_natCast, ← zpow_add₀ two_ne_zero]
    congr 1
    omega
  rw [hx, zpow_eq_toNat_div, neg_neg]
  push_cast
  ring

/-- The quotient's own bit length bounds the dividend. -/
theorem log2_div_bounds (hden : 0 < den) (hle : den ≤ num) :
    den * 2 ^ (num / den).log2 ≤ num ∧ num < den * 2 ^ ((num / den).log2 + 1) := by
  have hq : num / den ≠ 0 := (Nat.div_pos hle hden).ne'
  rw [Nat.mul_comm den, Nat.mul_comm den, ← Nat.le_div_iff_mul_le hden, ← Nat.div_lt_iff_lt_mul hden]
  exact ⟨Nat.log2_self_le hq, Nat.lt_log2_self⟩

/-- `roundMag` rounds `num / den * 2 ^ x` units. -/
theorem roundMag_roundsTo (hden : 0 < den) (hle : den ≤ num) (x : Int) :
    RoundsTo (roundMag num den x) ((num : ℚ) / den * 2 ^ x) := by
  obtain ⟨hlow, hhigh⟩ := log2_div_bounds hden hle
  rw [roundMag]
  generalize (num / den).log2 = l at *
  generalize he : max 0 ((l : Int) + x - 52) = e
  rw [← scaled_div_value num den x (he ▸ le_max_left _ _)]
  refine roundsTo_quotient (by positivity) (scaled_div_lt hden hhigh (by omega)) ?_
  exact or_iff_not_imp_left.mpr fun hpos => le_scaled_div hden hlow (by omega)

end

/-- A sign on what `roundMag` rounds gives the nearest pattern. -/
theorem nearestEven_fPack_roundMag {num den : Nat} (neg : Bool) (hden : 0 < den) (hle : den ≤ num) (x : Int) :
    NearestEven (fPack neg (roundMag num den x)) (signOf neg * ((num : ℚ) / den * 2 ^ x) / 2 ^ 1074) :=
  (roundMag_roundsTo hden hle x).nearestEven neg

/-! ## Exact results -/

/-- A finite pattern is nearest to its own value. -/
theorem nearestEven_fValue {r : F64} (h : fIsFinite r = true) : NearestEven r (fValue r) := by
  refine ⟨fun _ => h, fun _ y _ => ?_⟩
  rw [sub_self, abs_zero]
  exact ⟨abs_nonneg _, fun heq hne => absurd (sub_eq_zero.mp (abs_eq_zero.mp heq.symm)) hne⟩

/-- A finite pattern is nearest to the value that it has. -/
theorem nearestEven_of_fValue_eq {r : F64} {x : ℚ} (h : fIsFinite r = true) (hx : fValue r = x) : NearestEven r x :=
  hx ▸ nearestEven_fValue h

theorem nearestEven_fZero (neg : Bool) : NearestEven (fZero neg) 0 :=
  nearestEven_of_fValue_eq (fIsFinite_fZero neg) (fValue_fZero neg)

/-- Rounding a value that some finite pattern has is exact. -/
theorem NearestEven.exact {r y : F64} (h : NearestEven r (fValue y)) (hy : fIsFinite y = true) :
    fIsFinite r = true ∧ fValue r = fValue y := by
  obtain ⟨hrange, hnear⟩ := h
  have hr := hrange (abs_fValue_le_max hy)
  obtain ⟨hle, -⟩ := hnear hr y hy
  rw [sub_self, abs_zero] at hle
  exact ⟨hr, sub_eq_zero.mp (abs_nonpos_iff.mp hle)⟩

/-! ## Integers -/

theorem signOf_mul_natAbs (v : Int) : signOf (decide (v < 0)) * (v.natAbs : ℚ) = v := by
  rw [Nat.cast_natAbs, Int.cast_abs]
  rcases lt_or_ge v 0 with h | h
  · rw [decide_eq_true h, signOf_true, abs_of_neg (by exact_mod_cast h)]
    ring
  · rw [decide_eq_false h.not_gt, signOf_false, abs_of_nonneg (by exact_mod_cast h), one_mul]

/-- `fOfScaled` rounds the integer `v` times `2 ^ scale` units. -/
theorem fOfScaled_nearestEven {v : Int} (h : v ≠ 0) (scale : Nat) :
    NearestEven (fOfScaled v scale) (v * 2 ^ scale / 2 ^ 1074) := by
  have key := nearestEven_fPack_roundMag (decide (v < 0)) Nat.one_pos (Int.natAbs_pos.mpr h) scale
  rwa [Nat.cast_one, div_one, ← mul_assoc, signOf_mul_natAbs, zpow_natCast] at key

/-- `toF` rounds an integer of any size. -/
theorem toF_nearestEven (v : Int) : NearestEven (toF v) v := by
  by_cases h : v = 0
  · rw [toF, if_pos h, h, Int.cast_zero]
    exact nearestEven_fZero false
  · have key := fOfScaled_nearestEven h 1074
    rw [mul_div_assoc, div_self (by positivity), mul_one] at key
    rw [toF, if_neg h]
    exact key

/-- A positive integer below `2 ^ 53` has magnitude bits: shifted to 53 bits, at the scale that undoes the shift. -/
theorem exists_magUnits_eq_nat {k : Nat} (h0 : k ≠ 0) (h : k < 2 ^ 53) :
    ∃ n, n < infMag ∧ magUnits n = k * 2 ^ 1074 := by
  have hl : k.log2 ≤ 52 := by
    have := (Nat.log2_lt h0).mpr h
    omega
  have pows : 2 ^ (52 - k.log2) * 2 ^ (1022 + k.log2) = 2 ^ 1074 := by
    rw [← pow_add]
    congr 1
    omega
  have lower : 2 ^ 52 ≤ k * 2 ^ (52 - k.log2) := by
    calc 2 ^ 52 = 2 ^ k.log2 * 2 ^ (52 - k.log2) := by rw [← pow_add, Nat.add_sub_cancel' hl]
      _ ≤ k * 2 ^ (52 - k.log2) := Nat.mul_le_mul_right _ (Nat.log2_self_le h0)
  have upper : k * 2 ^ (52 - k.log2) < 2 ^ 53 := by
    calc k * 2 ^ (52 - k.log2) < 2 ^ (k.log2 + 1) * 2 ^ (52 - k.log2) :=
          Nat.mul_lt_mul_of_pos_right Nat.lt_log2_self (by positivity)
      _ = 2 ^ 53 := by rw [← pow_add]; congr 1; omega
  refine ⟨(1022 + k.log2) * 2 ^ 52 + k * 2 ^ (52 - k.log2), ?_, ?_⟩
  · rw [infMag]
    omega
  · rw [magUnits_add upper.le (.inr lower), Nat.mul_assoc, pows]

/-- Every integer below `2 ^ 53` in magnitude is the value of a finite pattern. -/
theorem exists_fValue_eq_int {v : Int} (h : v.natAbs < 2 ^ 53) : ∃ y : F64, fIsFinite y = true ∧ fValue y = v := by
  by_cases h0 : v = 0
  · exact ⟨fZero false, fIsFinite_fZero false, by rw [fValue_fZero, h0, Int.cast_zero]⟩
  · obtain ⟨n, hn, hv⟩ := exists_magUnits_eq_nat (Int.natAbs_ne_zero.mpr h0) h
    refine ⟨fPack (decide (v < 0)) n, (fIsFinite_fPack_iff _).mpr hn, ?_⟩
    rw [fValue_fPack _ hn, hv, Nat.cast_mul, Nat.cast_pow, Nat.cast_ofNat, ← mul_assoc, signOf_mul_natAbs,
      mul_div_assoc, div_self (by positivity), mul_one]

/-- Settles O48: rounding an integer that binary64 has is exact. -/
theorem integersConvertExactly : Obligations.IntegersConvertExactly := by
  intro v h
  obtain ⟨y, hy, hv⟩ := exists_fValue_eq_int h
  have nearest := toF_nearestEven v
  rw [← hv] at nearest ⊢
  exact nearest.exact hy

/-! ## The four operations -/

section
variable {a b : F64}

/-- A sum of finite values as an integer of units at the smaller scale. -/
theorem fValue_add_eq {scale : Nat} (ha : fIsFinite a = true) (hb : fIsFinite b = true) (hsa : scale ≤ fScale a)
    (hsb : scale ≤ fScale b) :
    fValue a + fValue b =
      ((fSignedSig a * 2 ^ (fScale a - scale) + fSignedSig b * 2 ^ (fScale b - scale) : Int) : ℚ) * 2 ^ scale /
        2 ^ 1074 := by
  rw [fValue, fValue, if_pos ha, if_pos hb, ← add_div]
  congr 1
  push_cast
  rw [add_mul, mul_assoc, mul_assoc, ← pow_add, ← pow_add, Nat.sub_add_cancel hsa, Nat.sub_add_cancel hsb]

theorem fadd_nearestEven (ha : fIsFinite a = true) (hb : fIsFinite b = true) :
    NearestEven (fadd a b) (fValue a + fValue b) := by
  simp only [fadd, fIsNaN_of_finite ha, fIsNaN_of_finite hb, fIsInf_of_finite ha, fIsInf_of_finite hb, Bool.or_false,
    Bool.false_eq_true, if_false]
  split_ifs with ha0 hb0 hb0 hv
  · rw [fValue_of_fSig_zero ha ha0, fValue_of_fSig_zero hb hb0, add_zero]
    exact nearestEven_fZero _
  · exact nearestEven_of_fValue_eq hb (by rw [fValue_of_fSig_zero ha ha0, zero_add])
  · exact nearestEven_of_fValue_eq ha (by rw [fValue_of_fSig_zero hb hb0, add_zero])
  · rw [fValue_add_eq ha hb (Nat.min_le_left _ _) (Nat.min_le_right _ _), hv, Int.cast_zero, zero_mul, zero_div]
    exact nearestEven_fZero _
  · rw [fValue_add_eq ha hb (Nat.min_le_left _ _) (Nat.min_le_right _ _)]
    exact fOfScaled_nearestEven hv _

theorem fMag_fneg (x : F64) : fMag (fneg x) = fMag x := by
  rw [fMag, fneg, BitVec.toNat_xor, Nat.xor_mod_two_pow]
  exact Nat.xor_zero _

theorem fSign_fneg (x : F64) : fSign (fneg x) = !fSign x := by
  rw [fSign, fneg, BitVec.msb_xor]
  exact Bool.xor_true _

theorem fIsFinite_fneg (x : F64) : fIsFinite (fneg x) = fIsFinite x := by
  rw [Bool.eq_iff_iff, fIsFinite_iff_fMag, fIsFinite_iff_fMag, fMag_fneg]

theorem fValue_fneg (hb : fIsFinite b = true) : fValue (fneg b) = -fValue b := by
  rw [fValue_eq_magUnits hb, fValue_eq_magUnits ((fIsFinite_fneg b).trans hb), fMag_fneg, fSign_fneg, signOf_not,
    neg_mul, neg_div]

theorem fsub_nearestEven (ha : fIsFinite a = true) (hb : fIsFinite b = true) :
    NearestEven (fsub a b) (fValue a - fValue b) := by
  rw [fsub, fIsNaN_of_finite hb, if_neg Bool.false_ne_true, sub_eq_add_neg, ← fValue_fneg hb]
  exact fadd_nearestEven ha ((fIsFinite_fneg b).trans hb)

/-- A product of finite values in units. -/
theorem fValue_mul_eq (ha : fIsFinite a = true) (hb : fIsFinite b = true) :
    fValue a * fValue b = signOf (fSign a != fSign b) *
      (((fSig a * fSig b : Nat) : ℚ) / (1 : Nat) * 2 ^ ((fScale a : Int) + fScale b - 1074)) / 2 ^ 1074 := by
  have scale : (2 : ℚ) ^ ((fScale a : Int) + fScale b - 1074) = 2 ^ fScale a * 2 ^ fScale b / 2 ^ 1074 := by
    rw [zpow_sub₀ two_ne_zero, zpow_add₀ two_ne_zero, zpow_natCast, zpow_natCast]
    rfl
  rw [fValue_eq_sig ha, fValue_eq_sig hb, scale, signOf_bne]
  generalize (2 : ℚ) ^ 1074 = c
  push_cast
  ring

theorem fmul_nearestEven (ha : fIsFinite a = true) (hb : fIsFinite b = true) :
    NearestEven (fmul a b) (fValue a * fValue b) := by
  simp only [fmul, fIsNaN_of_finite ha, fIsNaN_of_finite hb, fIsInf_of_finite ha, fIsInf_of_finite hb, Bool.or_false,
    Bool.false_eq_true, if_false]
  split_ifs with h0
  · rw [mul_eq_zero.mpr (h0.imp (fValue_of_fSig_zero ha) (fValue_of_fSig_zero hb))]
    exact nearestEven_fZero _
  · obtain ⟨ha0, hb0⟩ := not_or.mp h0
    rw [fValue_mul_eq ha hb]
    exact nearestEven_fPack_roundMag _ Nat.one_pos (Nat.mul_pos (Nat.pos_of_ne_zero ha0) (Nat.pos_of_ne_zero hb0)) _

/-- A significand has at most 53 bits. -/
theorem fSig_lt (x : F64) : fSig x < 2 ^ 53 := by
  have : fFrac x < 2 ^ 52 := Nat.mod_lt _ (by positivity)
  rw [fSig]
  split <;> omega

/-- A quotient of finite values in units, with the dividend's significand shifted by 110 bits. -/
theorem fValue_div_eq (ha : fIsFinite a = true) (hb : fIsFinite b = true) :
    fValue a / fValue b = signOf (fSign a != fSign b) *
      (((fSig a * 2 ^ 110 : Nat) : ℚ) / (fSig b : Nat) * 2 ^ ((fScale a : Int) - fScale b + 1074 - 110)) /
        2 ^ 1074 := by
  have scale : (2 : ℚ) ^ ((fScale a : Int) - fScale b + 1074 - 110) =
      2 ^ fScale a / 2 ^ fScale b * 2 ^ 1074 / 2 ^ 110 := by
    rw [zpow_sub₀ two_ne_zero, zpow_add₀ two_ne_zero, zpow_sub₀ two_ne_zero, zpow_natCast, zpow_natCast]
    rfl
  have unit_ne : (2 : ℚ) ^ 1074 ≠ 0 := by positivity
  have shift_ne : (2 : ℚ) ^ 110 ≠ 0 := by positivity
  have sign_inv : (signOf (fSign b))⁻¹ = signOf (fSign b) := by cases fSign b <;> norm_num
  rw [fValue_eq_sig ha, fValue_eq_sig hb, scale, signOf_bne, Nat.cast_mul, Nat.cast_pow, Nat.cast_ofNat]
  generalize (2 : ℚ) ^ 1074 = c at *
  generalize (2 : ℚ) ^ 110 = k at *
  rw [div_div_div_cancel_right₀ unit_ne, mul_div_mul_comm, div_eq_mul_inv (signOf _), sign_inv]
  field_simp

theorem fdiv_nearestEven (ha : fIsFinite a = true) (hb : fIsFinite b = true) (hb0 : fValue b ≠ 0) :
    NearestEven (fdiv a b) (fValue a / fValue b) := by
  have hsb : fSig b ≠ 0 := hb0 ∘ fValue_of_fSig_zero hb
  simp only [fdiv, fIsNaN_of_finite ha, fIsNaN_of_finite hb, fIsInf_of_finite ha, fIsInf_of_finite hb, Bool.or_false,
    Bool.false_eq_true, if_false, if_neg hsb]
  split_ifs with ha0
  · rw [fValue_of_fSig_zero ha ha0, zero_div]
    exact nearestEven_fZero _
  · have hle : fSig b ≤ fSig a * 2 ^ 110 := by
      have := fSig_lt b
      omega
    rw [fValue_div_eq ha hb]
    exact nearestEven_fPack_roundMag _ (Nat.pos_of_ne_zero hsb) hle _

end

/-- Settles O47, operation by operation. -/
theorem arithmeticRoundsToNearestEven : Obligations.ArithmeticRoundsToNearestEven :=
  fun _ _ ha hb =>
    ⟨fadd_nearestEven ha hb, fsub_nearestEven ha hb, fmul_nearestEven ha hb, fdiv_nearestEven ha hb⟩

end Sys2Proof.Machine
end

section
/-! The Event Report of a packet, and everything that a step on a packet can answer. -/

namespace Sys2Proof.Machine

/-! ## The report that a packet stands for -/

section
variable {P : Packet} {e : EventReport} {t : EventType}

/-- The four kinds of byte sequence that the classifier tells apart (R142, R143). -/
theorem packet_cases (P : Packet) :
    P.length < 16 ∨
    (16 ≤ P.length ∧ classifyMagic (magicAt P) = none) ∨
    (16 ≤ P.length ∧ magicAt P = HeaderType.magic .status) ∨
    (16 ≤ P.length ∧ ∃ t, magicAt P = (headerTypeOf t).magic) := by
  rcases Nat.lt_or_ge P.length 16 with h | h
  · exact .inl h
  cases hc : classifyMagic (magicAt P) with
  | none => exact .inr (.inl ⟨h, rfl⟩)
  | some ty =>
    rw [classifyMagic_eq_some_iff] at hc
    obtain rfl | ⟨t, rfl⟩ := headerType_cases ty
    · exact .inr (.inr (.inl ⟨h, hc⟩))
    · exact .inr (.inr (.inr ⟨h, t, hc⟩))

theorem packetReport_of_error {err : DecodeError} (h : decode P = .error err) : packetReport P = none := by
  rw [packetReport, h]

theorem packetReport_status (h : 16 ≤ P.length) (hc : magicAt P = HeaderType.magic .status) :
    packetReport P = none := by
  obtain ⟨p, hp⟩ := decodeStatusPayload_isOk P
  rw [packetReport, decode_status h hc hp]
  rfl

theorem reportOf_eventInstr (t : EventType) (h : HeaderRest) (p : EventPayload) :
    reportOf (eventInstr t h p) = reportOf.payloadReport t p := by
  cases t <;> rfl

theorem packetReport_event_short (h : 16 ≤ P.length) (h48 : P.length < 48)
    (hc : magicAt P = (headerTypeOf t).magic) : packetReport P = none := by
  rw [packetReport, decode_event h hc (decodeEventPayload_of_lt (by omega))]
  exact reportOf_eventInstr t _ _

/-- An event packet with layout E whole has the report of `DecodeEvent` (R222). -/
theorem packetReport_event (h : 48 ≤ P.length) (hc : magicAt P = (headerTypeOf t).magic) :
    packetReport P = some (Reference.decodeEvent t P) := by
  rw [packetReport, decode_event (by omega) hc (decodeEventPayload_eq_chunksAt h), decodeEvent_eq t h]
  exact reportOf_eventInstr t _ _

/-- A packet with a report has layout E whole, and the report is that of `DecodeEvent` (R220, R222). -/
theorem packetReport_eq_some (h : packetReport P = some e) :
    48 ≤ P.length ∧ ∃ t, magicAt P = (headerTypeOf t).magic ∧ e = Reference.decodeEvent t P := by
  obtain hs | ⟨hl, hc⟩ | ⟨hl, hc⟩ | ⟨hl, t, hc⟩ := packet_cases P
  · rw [packetReport_of_error (decode_short hs)] at h
    cases h
  · rw [packetReport_of_error (decode_unknown hl hc)] at h
    cases h
  · rw [packetReport_status hl hc] at h
    cases h
  · rcases Nat.lt_or_ge P.length 48 with h48 | h48
    · rw [packetReport_event_short hl h48 hc] at h
      cases h
    · rw [packetReport_event h48 hc] at h
      exact ⟨h48, t, hc, (Option.some.inj h).symm⟩

/-- The length law of R238. -/
theorem length_detectionList_of_packetReport (h : packetReport P = some e) :
    e.detectionList.length = min e.detectionsInPacket.toNat ((P.length - 48) / 28) := by
  obtain ⟨h48, t, -, rfl⟩ := packetReport_eq_some h
  have declared : (Reference.decodeEvent t P).detectionsInPacket.toNat = Reference.rd P 47 1 :=
    rdW_one_toNat (by omega)
  rw [declared, Reference.decodeEvent, List.length_map, List.length_range, Reference.chunkCount]

/-- The warning says that whole chunks are missing (R285). -/
theorem countMismatch_iff_of_packetReport (h : packetReport P = some e) :
    countMismatch e = true ↔ (P.length - 48) / 28 < e.detectionsInPacket.toNat := by
  rw [countMismatch, decide_eq_true_iff, length_detectionList_of_packetReport h]
  omega

/-- A decoded report satisfies R39 by itself. -/
theorem reportInv_of_packetReport (h : packetReport P = some e) : reportInv e := by
  have hlen := length_detectionList_of_packetReport h
  obtain ⟨-, t, -, rfl⟩ := packetReport_eq_some h
  exact ⟨by omega, rfl⟩

end

/-! ## The step on a packet -/

section
variable {s s' : State} {P : Packet} {rest : List Input}

/-- A packet step that answers a next state had a packet that the port carries (R72). -/
theorem limitAdmits_of_step_next (hp : s.pktIn = .packet P :: rest) (hstep : step s = .next s') :
    limitAdmits s.cfg.maxPktLen P.length = true := by
  cases hm : limitAdmits s.cfg.maxPktLen P.length with
  | true => rfl
  | false =>
    simp only [step, ingress, hp, onPacket, withPending_cfg, hm, Bool.false_eq_true, if_false] at hstep
    cases hstep

/-- Everything a step on a packet can answer: a fault before the Aggregator, a published Status Report, immediate emission
of the packet's report, or its arrival at the Aggregator (R146, R307). -/
theorem step_packet_cases (hp : s.pktIn = .packet P :: rest) (hstep : step s = .next s') :
    (packetReport P = none ∧ ∃ code sub type,
      s' = raiseFault (s.withPending rest) code sub type false P.length) ∨
    (packetReport P = none ∧
      s' = (s.withPending rest).answer [.publishStatus (Reference.decodeStatus P)]
        ⟨.ok, .none, some .status, .statusPublished, false, P.length⟩) ∨
    (∃ e, packetReport P = some e ∧ s.cfg.emitMode = .immediate ∧
      s' = publishOrSuppress (s.withPending rest) e (countMismatch e) P.length) ∨
    (∃ e, packetReport P = some e ∧ s.cfg.emitMode = .aggregated ∧
      s' = aggArrive (s.withPending rest) (cat e.eventType) e (countMismatch e) P.length) := by
  rw [step_eq_afterAnswer hp (limitAdmits_of_step_next hp hstep)] at hstep
  obtain rfl := Host.Outcome.next.inj hstep
  obtain hs | ⟨hl, hc⟩ | ⟨hl, hc⟩ | ⟨hl, t, hc⟩ := packet_cases P
  · rw [reference_step_short hs]
    exact .inl ⟨packetReport_of_error (decode_short hs), _, _, _, rfl⟩
  · rw [reference_step_unknown hl hc]
    exact .inl ⟨packetReport_of_error (decode_unknown hl hc), _, _, _, rfl⟩
  · rw [reference_step_status hl hc, statusAnswer]
    split
    · exact .inl ⟨packetReport_status hl hc, _, _, _, rfl⟩
    · exact .inr (.inl ⟨packetReport_status hl hc, rfl⟩)
  · rw [reference_step_event hl hc]
    rcases Nat.lt_or_ge P.length 48 with h48 | h48
    · exact .inl ⟨packetReport_event_short hl h48 hc, _, _, _,
        eventStep_short (s.withPending rest) t (by omega)⟩
    · have hrep := packetReport_event h48 hc
      cases hm : s.cfg.emitMode with
      | immediate => exact .inr (.inr (.inl ⟨_, hrep, rfl, eventStep_immediate (s.withPending rest) t h48 hm⟩))
      | aggregated => exact .inr (.inr (.inr ⟨_, hrep, rfl, eventStep_aggregated (s.withPending rest) t h48 hm⟩))

end

end Sys2Proof.Machine
end

section
/-! The invariant of R31: it holds at reset, and every step keeps it (O38, O39); and the reset state itself (O45). -/

namespace Sys2Proof.Machine

/-! ## One buffer -/

section
variable {cap : Limit} {b : Category} {e : EventReport} {list : List EventReport}

/-- A report alone makes a well-formed buffer, whatever the legal capacity (R302, R305). -/
theorem bufInv_singleton (hcap : limitAdmits cap 1 = true) (he : reportInv e) :
    bufInv cap (cat e.eventType) (.holding e.timestamp [e]) := by
  refine ⟨List.cons_ne_nil _ _, fun r hr => ?_, hcap⟩
  obtain rfl := List.mem_singleton.mp hr
  exact ⟨rfl, rfl, he⟩

/-- A length within the bound that has not reached it leaves room for one more (R300). -/
theorem limitAdmits_succ {n : Nat} (h : limitAdmits cap n = true) (hr : limitReached cap n = false) :
    limitAdmits cap (n + 1) = true := by
  cases cap with
  | unbounded => rfl
  | finite k =>
    simp only [limitAdmits, limitReached, decide_eq_true_eq, beq_eq_false_iff_ne] at h hr ⊢
    omega

/-- Appending a report of the held timestamp and category where there is room (R303). -/
theorem bufInv_append (h : bufInv cap (cat e.eventType) (.holding e.timestamp list)) (he : reportInv e)
    (hr : limitReached cap list.length = false) :
    bufInv cap (cat e.eventType) (.holding e.timestamp (list ++ [e])) := by
  obtain ⟨-, hall, hcap⟩ := h
  refine ⟨by simp, fun r hmem => ?_, ?_⟩
  · obtain hmem | hmem := List.mem_append.mp hmem
    · exact hall r hmem
    · obtain rfl := List.mem_singleton.mp hmem
      exact ⟨rfl, rfl, he⟩
  · rw [List.length_append]
    exact limitAdmits_succ hcap hr

end

/-! ## The state's operations -/

section
variable {s : State} {b : Category} {e : EventReport}

theorem State.Inv.buf (h : s.Inv) (b : Category) : bufInv s.cfg.batchCap b (s.buf b) := by
  cases b with
  | far => exact h.far
  | near => exact h.near

/-- The invariant reads `CFG` and the two buffers only. -/
theorem State.Inv.answer (h : s.Inv) (out : List Emission) (res : Res) : (s.answer out res).Inv :=
  ⟨h.cfgLegal, h.near, h.far⟩

theorem State.Inv.raiseFault (h : s.Inv) (code : ResCode) (sub : ResSub) (type : Option HeaderType) (mm : Bool)
    (len : Nat) : (Machine.raiseFault s code sub type mm len).Inv :=
  h.answer _ _

theorem State.Inv.withPending (h : s.Inv) (rest : List Input) : (s.withPending rest).Inv :=
  ⟨h.cfgLegal, h.near, h.far⟩

theorem State.Inv.resetBlock (h : s.Inv) : (Machine.resetBlock s).Inv :=
  ⟨h.cfgLegal, trivial, trivial⟩

theorem State.Inv.setBuf {v : Buf} (h : s.Inv) (hv : bufInv s.cfg.batchCap b v) : (s.setBuf b v).Inv := by
  cases b with
  | far => exact ⟨h.cfgLegal, h.near, hv⟩
  | near => exact ⟨h.cfgLegal, hv, h.far⟩

theorem State.Inv.publishOrSuppress (h : s.Inv) (e : EventReport) (mm : Bool) (len : Nat) :
    (Machine.publishOrSuppress s e mm len).Inv := by
  obtain ⟨-, hs⟩ | ⟨-, hs⟩ := publishOrSuppress_cases s e mm len
  · rw [hs]
    exact h.answer _ _
  · rw [hs]
    exact h.answer _ _

/-- The Aggregator keeps the invariant, row by row of R317. -/
theorem State.Inv.aggArrive (h : s.Inv) (he : reportInv e) (mm : Bool) (len : Nat) :
    (Machine.aggArrive s (cat e.eventType) e mm len).Inv := by
  have seeded := h.setBuf (bufInv_singleton h.cfgLegal he)
  obtain ⟨-, ha⟩ | ⟨list, hb, hr, ha⟩ | ⟨list, -, -, ha⟩ | ⟨ts, list, -, -, ha⟩ :=
    aggArrive_cases s (cat e.eventType) e mm len
  · rw [ha]
    exact seeded.answer _ _
  · have held := h.buf (cat e.eventType)
    rw [hb] at held
    rw [ha]
    exact (h.setBuf (bufInv_append held he hr)).answer _ _
  · rw [ha]
    exact h.raiseFault _ _ _ _ _
  · rw [ha]
    exact seeded.answer _ _

end

/-! ## Reset and the step -/

theorem boot_inv {cfg : Cfg} (h : Cfg.legal cfg = true) : (State.boot cfg).Inv :=
  ⟨h, trivial, trivial⟩

/-- Settles O38: the buffers are empty, and the default capacity is legal. -/
theorem invariantHoldsAtReset : Obligations.InvariantHoldsAtReset :=
  ⟨boot_inv rfl, fun _ h => boot_inv h⟩

/-- A step on a packet keeps the invariant, whatever the packet is. -/
theorem State.Inv.step_packet {s s' : State} {P : Packet} {rest : List Input} (h : s.Inv)
    (hp : s.pktIn = .packet P :: rest) (hstep : step s = .next s') : s'.Inv := by
  have hw := h.withPending rest
  obtain ⟨-, code, sub, type, rfl⟩ | ⟨-, rfl⟩ | ⟨e, -, -, rfl⟩ | ⟨e, hrep, -, rfl⟩ := step_packet_cases hp hstep
  · exact hw.raiseFault _ _ _ _ _
  · exact hw.answer _ _
  · exact hw.publishOrSuppress _ _ _
  · exact hw.aggArrive (reportInv_of_packetReport hrep) _ _

/-- Settles O39: an idle step, a reset, or a step on a packet. -/
theorem invariantIsKeptByEveryStep : Obligations.InvariantIsKeptByEveryStep := by
  intro s s' h hstep
  cases hp : s.pktIn with
  | nil =>
    simp only [step, ingress, hp] at hstep
    obtain rfl := Host.Outcome.next.inj hstep
    exact h
  | cons input rest =>
    cases input with
    | packet P => exact h.step_packet hp hstep
    | reset =>
      simp only [step, ingress, hp] at hstep
      obtain rfl := Host.Outcome.next.inj hstep
      exact (h.withPending rest).resetBlock

/-- Settles O45: each field of `State.boot` with the default `CFG`. -/
theorem resetStateIsTheSpecs : Obligations.ResetStateIsTheSpecs :=
  ⟨boot_near _, boot_far _, boot_cfg _, boot_pktIn _, boot_egress _⟩

end Sys2Proof.Machine
end

section
/-! The mismatch flag of a packet's result (O53). -/

namespace Sys2Proof.Machine

variable {s s' : State} {P : Packet} {rest : List Input} {e : EventReport}

/-- A declared count of 0 has no missing chunk (R285). -/
theorem countMismatch_of_declared_zero (h : e.detectionsInPacket.toNat = 0) : countMismatch e = false := by
  rw [countMismatch, h, decide_eq_false_iff_not]
  exact Nat.not_lt_zero _

/-- Immediate emission answers with the report's own flag and `Ok`, suppressed or not (R241, R353). -/
theorem publishOrSuppress_res (s : State) (e : EventReport) (len : Nat) :
    ∃ tr, (publishOrSuppress s e (countMismatch e) len).egress = s.egress ++ [tr] ∧
      tr.res.countMismatch = countMismatch e ∧ tr.res.code = .ok := by
  obtain ⟨-, hs⟩ | ⟨hzero, hs⟩ := publishOrSuppress_cases s e (countMismatch e) len
  · rw [hs]
    exact ⟨_, rfl, rfl, rfl⟩
  · rw [hs]
    exact ⟨_, rfl, (countMismatch_of_declared_zero hzero).symm, rfl⟩

/-- The Aggregator answers with the flag that it is given, beside `Ok` or `BatchOverflow` (R345, R353). -/
theorem aggArrive_res (s : State) (b : Category) (e : EventReport) (mm : Bool) (len : Nat) :
    ∃ tr, (aggArrive s b e mm len).egress = s.egress ++ [tr] ∧
      tr.res.countMismatch = mm ∧ (tr.res.code = .ok ∨ tr.res.code = .batchOverflow) := by
  obtain ⟨-, ha⟩ | ⟨list, -, -, ha⟩ | ⟨list, -, -, ha⟩ | ⟨ts, list, -, -, ha⟩ := aggArrive_cases s b e mm len
  · rw [ha, answer_egress, setBuf_egress]
    exact ⟨_, rfl, rfl, .inl rfl⟩
  · rw [ha, answer_egress, setBuf_egress]
    exact ⟨_, rfl, rfl, .inl rfl⟩
  · rw [ha, raiseFault_egress]
    exact ⟨_, rfl, rfl, .inr rfl⟩
  · rw [ha, answer_egress, setBuf_egress]
    exact ⟨_, rfl, rfl, .inl rfl⟩

/-- Every packet step that answers adds one transaction. Its flag is that of the packet's report, and false without one;
with a report the code is `Ok` or `BatchOverflow`. -/
theorem step_packet_res (hp : s.pktIn = .packet P :: rest) (hstep : step s = .next s') :
    ∃ tr, s'.egress = s.egress ++ [tr] ∧
      ((packetReport P = none ∧ tr.res.countMismatch = false) ∨
        ∃ e, packetReport P = some e ∧ tr.res.countMismatch = countMismatch e ∧
          (tr.res.code = .ok ∨ tr.res.code = .batchOverflow)) := by
  obtain ⟨hrep, code, sub, type, rfl⟩ | ⟨hrep, rfl⟩ | ⟨e, hrep, -, rfl⟩ | ⟨e, hrep, -, rfl⟩ :=
    step_packet_cases hp hstep
  · exact ⟨_, rfl, .inl ⟨hrep, rfl⟩⟩
  · exact ⟨_, rfl, .inl ⟨hrep, rfl⟩⟩
  · obtain ⟨tr, htr, hflag, hcode⟩ := publishOrSuppress_res (s.withPending rest) e P.length
    exact ⟨tr, htr, .inr ⟨e, hrep, hflag, .inl hcode⟩⟩
  · obtain ⟨tr, htr, hflag, hcode⟩ := aggArrive_res (s.withPending rest) (cat e.eventType) e (countMismatch e) P.length
    exact ⟨tr, htr, .inr ⟨e, hrep, hflag, hcode⟩⟩

/-- Settles O53: the flag of `step_packet_res`, read as missing chunks. -/
theorem resultFlagsExactlyTheMissingChunks : Obligations.ResultFlagsExactlyTheMissingChunks := by
  intro s s' P rest tr hp hstep htr
  obtain ⟨tr', htr', hres⟩ := step_packet_res hp hstep
  obtain rfl : tr' = tr := List.singleton_inj.mp (List.append_cancel_left (htr'.symm.trans htr))
  obtain ⟨hnone, hflag⟩ | ⟨e, hrep, hflag, hcode⟩ := hres
  · simp [hnone, hflag]
  · refine ⟨?_, fun _ => hcode⟩
    rw [hflag, countMismatch_iff_of_packetReport hrep]
    simp [hrep]

end Sys2Proof.Machine
end

section
/-! Where a step can stop: never at a fault, and at a refusal exactly for a packet longer than the port (O12, O13). -/

namespace Sys2Proof.Machine

/-- A length beyond a bound is beyond a finite one (R72). -/
theorem limitAdmits_eq_false_iff (cap : Limit) (k : Nat) :
    limitAdmits cap k = false ↔ ∃ n, cap = .finite n ∧ n < k := by
  cases cap with
  | unbounded => simp [limitAdmits]
  | finite n => simp [limitAdmits]

theorem step_packet_refused {s : State} {P : Packet} {rest : List Input} (hp : s.pktIn = .packet P :: rest)
    (hm : limitAdmits s.cfg.maxPktLen P.length = false) : step s = .refused (.packetLongerThanPort P.length) := by
  simp only [step, ingress, hp, onPacket, withPending_cfg, hm, Bool.false_eq_true, if_false]

/-- A step answers a next state, or refuses an overlong packet: the packets that the port carries are all answered, whether
or not they decode (R76, R340). -/
theorem step_next_or_refused (s : State) :
    (∃ s', step s = .next s') ∨
    (∃ P rest, s.pktIn = .packet P :: rest ∧ limitAdmits s.cfg.maxPktLen P.length = false ∧
      step s = .refused (.packetLongerThanPort P.length)) := by
  obtain ⟨-, hidle⟩ | ⟨rest, -, hreset⟩ | ⟨P, rest, hp, hm, -⟩ | hrefused := step_cases s
  · exact .inl ⟨_, hidle⟩
  · exact .inl ⟨_, hreset⟩
  · exact .inl ⟨_, step_eq_afterAnswer hp hm⟩
  · exact .inr hrefused

/-- Settles O12, by induction on the number of steps: no step of the run is a fault. -/
theorem noRunEndsInAFault : Obligations.NoRunEndsInAFault := by
  intro s k r
  induction k generalizing s with
  | zero => simp [run_zero]
  | succ k ih =>
    obtain ⟨s', hnext⟩ | ⟨P, rest, -, -, hrefused⟩ := step_next_or_refused s
    · rw [run_next hnext]
      exact ih s'
    · simp [run_refused hrefused]

/-- Settles O13: the refusal of `step_next_or_refused` is the only one, and it needs a finite bound. -/
theorem onlyOverlongPacketsAreRefused : Obligations.OnlyOverlongPacketsAreRefused := by
  refine ⟨fun s r => ⟨fun hstep => ?_, ?_⟩, fun s hp => ?_⟩
  · obtain ⟨s', hnext⟩ | ⟨P, rest, hp, hm, hrefused⟩ := step_next_or_refused s
    · rw [hnext] at hstep
      cases hstep
    · obtain ⟨n, hcap, hlong⟩ := (limitAdmits_eq_false_iff _ _).mp hm
      exact ⟨P, rest, n, hp, hcap, hlong, Host.Outcome.refused.inj (hstep.symm.trans hrefused)⟩
  · rintro ⟨P, rest, n, hp, hcap, hlong, rfl⟩
    exact step_packet_refused hp ((limitAdmits_eq_false_iff _ _).mpr ⟨n, hcap, hlong⟩)
  · simp only [step, ingress, hp]

end Sys2Proof.Machine
end

section
/-! The two categories do not interfere (O55, O42). What the block holds and has flushed of one category is a fold over the
reports of that category alone; both statements follow from that. -/

namespace Sys2Proof.Machine

/-! ## What one category sees -/

/-- The part of a state that belongs to category `b`: its buffer, and its batches flushed so far. -/
def State.view (s : State) (b : Category) : Buf × List (U32 × List EventReport) :=
  (s.buf b, batches b s.egress)

/-- What the arrival of a report of a category makes of that category's part (R307 in Immediate mode, R317 in Aggregated
mode). It sees nothing else of the state than `CFG`; `view_publishOrSuppress` and `view_aggArrive_self` tie it to the
machine. -/
def absorb (cfg : Cfg) (v : Buf × List (U32 × List EventReport)) (e : EventReport) :
    Buf × List (U32 × List EventReport) :=
  match cfg.emitMode, v.1 with
  | .immediate, _ => v
  | .aggregated, .empty => (.holding e.timestamp [e], v.2)
  | .aggregated, .holding ts list =>
    if e.timestamp = ts then
      if limitReached cfg.batchCap list.length then v else (.holding ts (list ++ [e]), v.2)
    else (.holding e.timestamp [e], v.2 ++ [(ts, list)])

theorem batches_append (b : Category) (log log' : List Transaction) :
    batches b (log ++ log') = batches b log ++ batches b log' := by
  rw [batches, emissions, List.flatMap_append, List.filterMap_append]
  rfl

section
variable (s : State) (b : Category) (e : EventReport) (mm : Bool) (len : Nat)

@[simp] theorem view_withPending (rest : List Input) : (s.withPending rest).view b = s.view b := by
  simp only [State.view, withPending_buf, withPending_egress]

/-- An answer adds the batches that it flushes, and touches no buffer. -/
theorem view_answer (out : List Emission) (res : Res) :
    (s.answer out res).view b = (s.buf b, batches b s.egress ++ batches b [⟨out, res⟩]) := by
  rw [State.view, answer_buf, answer_egress, batches_append]

/-- An answer without a flush of the category leaves the category's part. -/
theorem view_answer_of_no_batch {out : List Emission} {res : Res} (h : batches b [⟨out, res⟩] = []) :
    (s.answer out res).view b = s.view b := by
  rw [view_answer, h, List.append_nil]
  rfl

theorem view_raiseFault (code : ResCode) (sub : ResSub) (type : Option HeaderType) :
    (raiseFault s code sub type mm len).view b = s.view b :=
  view_answer_of_no_batch s b rfl

/-- Immediate emission leaves both categories as they are (R307). -/
theorem view_publishOrSuppress : (publishOrSuppress s e mm len).view b = s.view b := by
  obtain ⟨-, hs⟩ | ⟨-, hs⟩ := publishOrSuppress_cases s e mm len
  · rw [hs]
    exact view_answer_of_no_batch s b rfl
  · rw [hs]
    exact view_answer_of_no_batch s b rfl

/-- A write to a buffer with its answer, as the buffer's own category sees it. -/
theorem view_answer_setBuf_self (v : Buf) (out : List Emission) (res : Res) :
    ((s.setBuf b v).answer out res).view b = (v, batches b s.egress ++ batches b [⟨out, res⟩]) := by
  rw [view_answer, buf_setBuf_self, setBuf_egress]

/-- A write to a buffer with an answer that flushes nothing of another category, as that category sees it. -/
theorem view_answer_setBuf_of_ne {b' : Category} (hne : b ≠ b') (v : Buf) {out : List Emission} {res : Res}
    (h : batches b [⟨out, res⟩] = []) : ((s.setBuf b' v).answer out res).view b = s.view b := by
  rw [view_answer, buf_setBuf_of_ne _ _ _ _ hne, setBuf_egress, h, List.append_nil]
  rfl

/-- An arrival in the Aggregator, as its own category sees it, row by row of R317. -/
theorem view_aggArrive_self (hm : s.cfg.emitMode = .aggregated) :
    (aggArrive s b e mm len).view b = absorb s.cfg (s.view b) e := by
  obtain ⟨hb, ha⟩ | ⟨list, hb, hr, ha⟩ | ⟨list, hb, hr, ha⟩ | ⟨ts, list, hb, ht, ha⟩ := aggArrive_cases s b e mm len
  · rw [ha, view_answer_setBuf_self]
    simp [absorb, State.view, hm, hb, batches, emissions]
  · rw [ha, view_answer_setBuf_self]
    simp [absorb, State.view, hm, hb, hr, batches, emissions]
  · rw [ha, view_raiseFault]
    simp [absorb, State.view, hm, hb, hr]
  · rw [ha, view_answer_setBuf_self]
    simp [absorb, State.view, hm, hb, ht, batches, emissions]

/-- An arrival of one category leaves the other category's part (R83, R314): the flush it may cause is of its own. -/
theorem view_aggArrive_of_ne {b' : Category} (hne : b ≠ b') : (aggArrive s b' e mm len).view b = s.view b := by
  obtain ⟨-, ha⟩ | ⟨list, -, -, ha⟩ | ⟨list, -, -, ha⟩ | ⟨ts, list, -, -, ha⟩ := aggArrive_cases s b' e mm len
  · rw [ha]
    exact view_answer_setBuf_of_ne s b hne _ rfl
  · rw [ha]
    exact view_answer_setBuf_of_ne s b hne _ rfl
  · rw [ha, view_raiseFault]
  · rw [ha]
    exact view_answer_setBuf_of_ne s b hne _ (by simp [batches, emissions, hne.symm])

end

/-! ## The arrivals of a packet and of a stream -/

section
variable {b : Category} {P : Packet} {e : EventReport}

theorem arrivals_cons (b : Category) (P : Packet) (ps : List Packet) :
    arrivals b (P :: ps) = arrivals b [P] ++ arrivals b ps := by
  simp only [arrivals, ← List.filter_append, ← List.filterMap_append, List.singleton_append]

theorem arrivals_singleton_of_none (h : packetReport P = none) : arrivals b [P] = [] := by
  simp [arrivals, h]

theorem arrivals_singleton_self (h : packetReport P = some e) : arrivals (cat e.eventType) [P] = [e] := by
  simp [arrivals, h]

theorem arrivals_singleton_of_ne (h : packetReport P = some e) (hne : b ≠ cat e.eventType) : arrivals b [P] = [] := by
  simp [arrivals, h, hne.symm]

end

/-! ## The step and the run -/

section
variable {s s' : State} {P : Packet} {rest : List Input}

/-- A packet step keeps `CFG` and takes the one packet (R82, R383). -/
theorem step_packet_cfg_pktIn (hp : s.pktIn = .packet P :: rest) (hstep : step s = .next s') :
    s'.cfg = s.cfg ∧ s'.pktIn = rest := by
  rw [step_eq_afterAnswer hp (limitAdmits_of_step_next hp hstep)] at hstep
  obtain rfl := Host.Outcome.next.inj hstep
  exact ⟨rfl, rfl⟩

theorem foldl_absorb_of_immediate (cfg : Cfg) (hm : cfg.emitMode = .immediate) (es : List EventReport)
    (v : Buf × List (U32 × List EventReport)) : es.foldl (absorb cfg) v = v := by
  induction es with
  | nil => rfl
  | cons e es ih => rw [List.foldl_cons, absorb, hm, ih]

/-- A packet step lets a category absorb the packet's report of that category, if it has one, and nothing else. -/
theorem view_step_packet (b : Category) (hp : s.pktIn = .packet P :: rest) (hstep : step s = .next s') :
    s'.view b = (arrivals b [P]).foldl (absorb s.cfg) (s.view b) := by
  obtain ⟨hrep, code, sub, type, rfl⟩ | ⟨hrep, rfl⟩ | ⟨e, hrep, hm, rfl⟩ | ⟨e, hrep, hm, rfl⟩ :=
    step_packet_cases hp hstep
  · rw [arrivals_singleton_of_none hrep, view_raiseFault, view_withPending, List.foldl_nil]
  · rw [arrivals_singleton_of_none hrep, view_answer_of_no_batch _ _ rfl, view_withPending, List.foldl_nil]
  · rw [foldl_absorb_of_immediate _ hm, view_publishOrSuppress, view_withPending]
  · by_cases hb : b = cat e.eventType
    · subst hb
      rw [arrivals_singleton_self hrep, view_aggArrive_self (s.withPending rest) _ _ _ _ hm, view_withPending, List.foldl_cons,
        List.foldl_nil, withPending_cfg]
    · rw [arrivals_singleton_of_ne hrep hb, view_aggArrive_of_ne _ _ _ _ _ hb, view_withPending, List.foldl_nil]

/-- A run over a stream that ends in a next state took a first step that does, on its first packet. -/
theorem runStream_cons_next {ps : List Packet} (h : runStream s (P :: ps) = .next s') :
    ∃ s₁, step (s.withStream (P :: ps)) = .next s₁ ∧ runStream s₁ ps = .next s' := by
  obtain ⟨s₁, hstep⟩ | ⟨_, _, -, -, hrefused⟩ := step_next_or_refused (s.withStream (P :: ps))
  · refine ⟨s₁, hstep, ?_⟩
    rw [← h, runStream_cons hstep (step_packet_cfg_pktIn rfl hstep).2]
  · rw [runStream, List.length_cons, run_refused hrefused] at h
    cases h

/-- A run over a stream lets a category absorb the stream's reports of that category in arrival order. -/
theorem view_runStream (b : Category) {ps : List Packet} (h : runStream s ps = .next s') :
    s'.view b = (arrivals b ps).foldl (absorb s.cfg) (s.view b) := by
  induction ps generalizing s with
  | nil =>
    obtain rfl := Host.Outcome.next.inj h
    exact view_withPending s b []
  | cons P ps ih =>
    obtain ⟨s₁, hstep, hrun⟩ := runStream_cons_next h
    have hcfg : s₁.cfg = s.cfg := (step_packet_cfg_pktIn rfl hstep).1
    have hview : s₁.view b = (arrivals b [P]).foldl (absorb s.cfg) (s.view b) :=
      (view_step_packet b rfl hstep).trans (by rw [State.withStream, view_withPending, withPending_cfg])
    rw [ih hrun, hcfg, hview, arrivals_cons b P ps, List.foldl_append]

end

/-- Settles O55: both steps let the category absorb the same reports into the same part, under the same `CFG`. -/
theorem oneStepKeepsCategoriesApart : Obligations.OneStepKeepsCategoriesApart := by
  intro s t s' t' P Q ps qs b hcfg hbuf hbatches hps hqs harr hs ht
  have hstart : s.view b = t.view b := Prod.ext hbuf hbatches
  have hend : s'.view b = t'.view b := by
    rw [view_step_packet b hps hs, view_step_packet b hqs ht, harr, hcfg, hstart]
  have hcfg' : s'.cfg = t'.cfg := by
    rw [(step_packet_cfg_pktIn hps hs).1, (step_packet_cfg_pktIn hqs ht).1, hcfg]
  exact ⟨hcfg', congrArg Prod.fst hend, congrArg Prod.snd hend⟩

/-- Settles O42: both runs let the category absorb the same reports from the same reset state. -/
theorem categoriesDoNotInterfere : Obligations.CategoriesDoNotInterfere := by
  intro cfg b ps qs s t harr hs ht
  have hend : s.view b = t.view b := by
    rw [view_runStream b hs, view_runStream b ht, harr]
  exact ⟨congrArg Prod.fst hend, congrArg Prod.snd hend⟩

end Sys2Proof.Machine
end

section
/-! The decoder against the encoder (O2, O3, O4): every byte sequence is of one of three kinds, and a decoded packet is
well-formed and encodes to its own bytes. -/

namespace Sys2Proof

/-! ## Slices of a packet -/

/-- Two adjacent slices are one slice. -/
theorem slice_append_slice {P : Packet} {a b n m : Nat} (h : b = a + n) :
    (P.drop a).take n ++ (P.drop b).take m = (P.drop a).take (n + m) := by
  rw [h, List.take_add, List.drop_drop]

/-- The number that bytes spell, held in as many bits as they have, has those bytes (R74, R109). -/
theorem beBytes_ofNat_beNat {l : List Byte} {n w : Nat} (hl : l.length = n) (hw : w = 8 * n) :
    beBytes n (BitVec.ofNat w (beNat l)).toNat = l := by
  have fits : beNat l < 2 ^ w := by
    rw [hw, pow_mul, ← hl]
    exact beNat_lt l
  rw [BitVec.toNat_ofNat, Nat.mod_eq_of_lt fits, ← hl, beBytes_beNat]

/-- A field that was read from a packet is written as the bytes it was read from (R109). -/
theorem beBytes_field {P : Packet} {a n w : Nat} (h : a + n ≤ P.length) (hw : w = 8 * n) :
    beBytes n (BitVec.ofNat w (beNat ((P.drop a).take n))).toNat = (P.drop a).take n :=
  beBytes_ofNat_beNat (by rw [List.length_take, List.length_drop]; omega) hw

/-! ## The layouts written back -/

/-- Layout S is written back at offsets 16 to 112 (R102). -/
theorem encodeStatusWire_statusWireAt {P : Packet} (h : 113 ≤ P.length) :
    encodeStatusWire (statusWireAt P) = (P.drop 16).take 97 := by
  simp (disch := omega) only [encodeStatusWire, statusWireAt, beBytes_field, slice_append_slice]

/-- Layout E is written back at offsets 16 to 47 (R103). -/
theorem encodeEventWire_eventWireAt {P : Packet} (h : 48 ≤ P.length) :
    encodeEventWire (eventWireAt P) = (P.drop 16).take 32 := by
  simp (disch := omega) only [encodeEventWire, eventWireAt, beBytes_field, slice_append_slice]

/-- Layout D is written back where it was read (R104). -/
theorem encodeChunkWire_chunkWireAt {P : Packet} {base : Nat} (h : base + 28 ≤ P.length) :
    encodeChunkWire (chunkWireAt P base) = (P.drop base).take 28 := by
  simp (disch := omega) only [encodeChunkWire, chunkWireAt, beBytes_field, slice_append_slice]
  rfl

/-- Consecutive chunks are written back as one run of bytes (R104, R261). -/
theorem encodeChunks_chunkWireAt {P : Packet} {j k : Nat} (h : 48 + 28 * (j + k) ≤ P.length) :
    encodeChunks ((List.range' j k).map fun i => chunkWireAt P (48 + 28 * i)) =
      (P.drop (48 + 28 * j)).take (28 * k) := by
  induction k generalizing j with
  | zero => rfl
  | succ k ih =>
    rw [List.range'_succ, List.map_cons, encodeChunks, encodeChunkWire_chunkWireAt (by omega), ih (by omega),
      slice_append_slice (by omega), Nat.mul_succ, Nat.add_comm]

end Sys2Proof

namespace Sys2Proof.Machine

/-! ## The event packets of one shape -/

section
variable (t : EventType) (h : HeaderRest) (p : EventPayload)

@[simp] theorem encode_eventInstr :
    encode (eventInstr t h p) = encodeHeader (headerTypeOf t) h ++ encodeEventPayload p := by
  cases t <;> rfl

@[simp] theorem wellFormed_eventInstr : (eventInstr t h p).wellFormed = (h.wellFormed && p.wellFormed) := by
  cases t <;> rfl

@[simp] theorem headerType_eventInstr : (eventInstr t h p).headerType = headerTypeOf t := by
  cases t <;> rfl

@[simp] theorem length_eventInstr : (eventInstr t h p).length = 16 + p.length := by
  cases t <;> rfl

@[simp] theorem cursor_eventInstr_full (w : EventWire) (chunks : List ChunkWire) (rest : List Byte) :
    (eventInstr t h (.full w chunks rest)).cursor = 48 + 28 * chunks.length := by
  cases t <;> rfl

@[simp] theorem cursor_eventInstr_short (bytes : List Byte) : (eventInstr t h (.short bytes)).cursor = 16 := by
  cases t <;> rfl

end

/-! ## Lengths and the cursor -/

/-- A well-formed packet has as many bytes as its `length` says (R100). -/
theorem length_encode {i : Instr} (wf : i.wellFormed = true) : (encode i).length = i.length := by
  obtain ⟨h, p, rfl⟩ | ⟨t, h, p, rfl⟩ := instr_cases i
  · exact Laws.EncodedLength.status h p wf
  · rw [wellFormed_eventInstr] at wf
    rw [encode_eventInstr, length_eventInstr, Laws.encode_length_event _ h p wf]

/-- The parse cursor never passes the end of the packet (R35). -/
theorem cursor_le_length (i : Instr) : i.cursor ≤ i.length := by
  obtain ⟨h, p, rfl⟩ | ⟨t, h, p, rfl⟩ := instr_cases i
  · cases p with
    | full w rest =>
      rw [Instr.cursor, Instr.length, StatusPayload.length]
      omega
    | short bytes => exact Nat.le_add_right 16 _
  · cases p with
    | full w chunks rest =>
      rw [cursor_eventInstr_full, length_eventInstr, EventPayload.length]
      omega
    | short bytes =>
      rw [cursor_eventInstr_short, length_eventInstr]
      exact Nat.le_add_right 16 _

/-! ## A decoded packet is well-formed and encodes to its bytes -/

section
variable {P : Packet}

/-- The twelve header bytes after the magic (R101). -/
theorem headerRest_wellFormed (h : 16 ≤ P.length) :
    HeaderRest.wellFormed { e2eLen := (P.drop 4).take 4, unexamined := (P.drop 8).take 8 } = true := by
  simp only [HeaderRest.wellFormed, Bool.and_eq_true, beq_iff_eq, List.length_take, List.length_drop]
  omega

/-- Layout H is written back at offsets 0 to 15 (R101). -/
theorem encodeHeader_of_magicAt {ty : HeaderType} (h : 16 ≤ P.length) (hc : magicAt P = ty.magic) :
    encodeHeader ty { e2eLen := (P.drop 4).take 4, unexamined := (P.drop 8).take 8 } = P.take 16 := by
  have magic : beBytes 4 ty.magic.toNat = P.take 4 := by
    rw [← hc]
    exact beBytes_ofNat_beNat (by rw [List.length_take]; omega) rfl
  rw [encodeHeader, magic, slice_append_slice rfl, ← List.take_add]

/-- A STATUS payload is well-formed and is written back from offset 16 on (R170, R198). -/
theorem decodeStatusPayload_roundTrip {p : StatusPayload} (hp : decodeStatusPayload P = .ok p) :
    p.wellFormed = true ∧ encodeStatusPayload p = P.drop 16 := by
  by_cases hlen : P.length - 16 < 97
  · obtain rfl : .short (P.drop 16) = p := Except.ok.inj ((decodeStatusPayload_of_lt hlen).symm.trans hp)
    exact ⟨decide_eq_true (by rwa [List.length_drop]), rfl⟩
  · have h113 : 113 ≤ P.length := by omega
    obtain rfl := Except.ok.inj ((decodeStatusPayload_of_le h113).symm.trans hp)
    constructor
    · simp only [StatusPayload.wellFormed, StatusWire.wellFormed, statusWireAt, List.length_take, List.length_drop,
        beq_iff_eq]
      omega
    · have tail : P.drop 113 = (P.drop 16).drop 97 := by rw [List.drop_drop]
      rw [encodeStatusPayload, encodeStatusWire_statusWireAt h113, tail, List.take_append_drop]

/-- The chunks are written back from offset 48 on. -/
theorem encodeChunks_chunksAt (h : 48 ≤ P.length) :
    encodeChunks (chunksAt P) = (P.drop 48).take (28 * Reference.chunkCount P) := by
  have hk : Reference.chunkCount P ≤ (P.length - 48) / 28 := Nat.min_le_right _ _
  rw [chunksAt, List.range_eq_range', encodeChunks_chunkWireAt (by omega)]

theorem length_chunksAt : (chunksAt P).length = Reference.chunkCount P := by
  rw [chunksAt, List.length_map, List.length_range]

/-- An event payload is well-formed and is written back from offset 16 on (R116, R220, R261). -/
theorem decodeEventPayload_roundTrip {p : EventPayload} (hp : decodeEventPayload P = .ok p) :
    p.wellFormed = true ∧ encodeEventPayload p = P.drop 16 := by
  by_cases hlen : P.length - 16 < 32
  · obtain rfl : .short (P.drop 16) = p := Except.ok.inj ((decodeEventPayload_of_lt hlen).symm.trans hp)
    exact ⟨decide_eq_true (by rwa [List.length_drop]), rfl⟩
  · have h48 : 48 ≤ P.length := by omega
    obtain rfl := Except.ok.inj ((decodeEventPayload_eq_chunksAt h48).symm.trans hp)
    constructor
    · simp only [EventPayload.wellFormed, toNat_detectionsInPacket h48, length_chunksAt, List.length_drop,
        Reference.chunkCount, Bool.and_eq_true, Bool.or_eq_true, decide_eq_true_eq, beq_iff_eq]
      omega
    · have chunksTail : P.drop (48 + 28 * Reference.chunkCount P) =
          (P.drop 48).drop (28 * Reference.chunkCount P) := by rw [List.drop_drop]
      have wireTail : P.drop 48 = (P.drop 16).drop 32 := by rw [List.drop_drop]
      rw [encodeEventPayload, encodeEventWire_eventWireAt h48, encodeChunks_chunksAt h48, chunksTail,
        List.take_append_drop, wireTail, List.take_append_drop]

/-- Decoding loses nothing: the instruction is well-formed and its encoding is the packet (R107, R116). -/
theorem decode_roundTrip {i : Instr} (hd : decode P = .ok i) : i.wellFormed = true ∧ encode i = P := by
  obtain ⟨hlen, hc, hi⟩ := decode_ok_cases hd
  have hmagic : magicAt P = i.headerType.magic := (classifyMagic_eq_some_iff _ _).mp hc
  have wfHeader := headerRest_wellFormed hlen
  obtain ⟨p, hp, rfl⟩ | ⟨t, p, hp, rfl⟩ := hi
  · obtain ⟨wf, bytes⟩ := decodeStatusPayload_roundTrip hp
    have hmagic : magicAt P = HeaderType.magic .status := hmagic
    constructor
    · rw [Instr.wellFormed, wfHeader, wf, Bool.and_self]
    · rw [encode, encodeHeader_of_magicAt hlen hmagic, bytes, List.take_append_drop]
  · obtain ⟨wf, bytes⟩ := decodeEventPayload_roundTrip hp
    rw [headerType_eventInstr] at hmagic
    constructor
    · rw [wellFormed_eventInstr, wfHeader, wf, Bool.and_self]
    · rw [encode_eventInstr, encodeHeader_of_magicAt hlen hmagic, bytes, List.take_append_drop]

end

/-- Settles O2: `decode_roundTrip`, and the length and the cursor of a well-formed instruction. -/
theorem encodeOfDecodedPacketIsItsBytes : Obligations.EncodeOfDecodedPacketIsItsBytes := by
  intro P i hd
  obtain ⟨wf, bytes⟩ := decode_roundTrip hd
  have len : i.length = P.length := by rw [← length_encode wf, bytes]
  exact ⟨wf, bytes, len, len ▸ cursor_le_length i⟩

/-! ## The three kinds of byte sequence -/

/-- The classifier's word is the number of the first four bytes. -/
theorem toNat_magicAt (P : Packet) : (magicAt P).toNat = beNat (P.take 4) := by
  have lt : beNat (P.take 4) < 2 ^ 32 :=
    (beNat_lt _).trans_le (Nat.pow_le_pow_right (by decide) (List.length_take_le 4 P))
  rw [magicAt, BitVec.toNat_ofNat, Nat.mod_eq_of_lt lt]

/-- A packet with a header and a magic of R105 decodes to an instruction of that type. -/
theorem decode_of_magicAt {P : Packet} {ty : HeaderType} (h : 16 ≤ P.length) (hc : magicAt P = ty.magic) :
    ∃ i, decode P = .ok i ∧ i.headerType = ty := by
  obtain rfl | ⟨t, rfl⟩ := headerType_cases ty
  · obtain ⟨p, hp⟩ := decodeStatusPayload_isOk P
    exact ⟨_, decode_status h hc hp, rfl⟩
  · obtain ⟨p, hp⟩ := decodeEventPayload_isOk P
    exact ⟨_, decode_event h hc hp, headerType_eventInstr t _ p⟩

/-- Settles O3: too short, or the classifier's answer on the first word decides. -/
theorem decoderIsTotalOnAnyBytes : Obligations.DecoderIsTotalOnAnyBytes := by
  intro P
  rcases Nat.lt_or_ge P.length 16 with h | h
  · exact .inl ⟨h, decode_short h⟩
  have hcl : classify P = .ok (classifyMagic (magicAt P)) := classify_of_le h
  cases hc : classifyMagic (magicAt P) with
  | some ty =>
    have hmagic := (classifyMagic_eq_some_iff _ _).mp hc
    obtain ⟨i, hd, rfl⟩ := decode_of_magicAt h hmagic
    exact .inr (.inl ⟨h, i, hd, by rw [hcl, hc], by rw [← hmagic, toNat_magicAt]⟩)
  | none =>
    refine .inr (.inr ⟨h, decode_unknown h hc, by rw [hcl, hc], fun ty heq => ?_⟩)
    have hmagic : magicAt P = ty.magic := BitVec.eq_of_toNat_eq (by rw [toNat_magicAt, heq])
    rw [(classifyMagic_eq_some_iff _ _).mpr hmagic] at hc
    cases hc

/-- Settles O4: the decoder run on each of the seven packets. -/
theorem writtenPacketsDecode : Obligations.WrittenPacketsDecode :=
  ⟨by decide, by decide, by decide, by decide, by decide, by decide, by decide⟩

end Sys2Proof.Machine
end

section
/-! The bytes that no rule reads (O18): what a step does with a packet depends on its length, its magic and the bytes from
offset 16 to the parse cursor. -/

namespace Sys2Proof.Machine

/-- Two packets have the same bytes from the payload's start up to offset `c`. -/
def SamePayloadBytes (c : Nat) (Q P : Packet) : Prop := ∀ a, 16 ≤ a → a < c → Q[a]? = P[a]?

/-! ## Equal bytes are read equally -/

section
variable {c : Nat} {P Q : Packet}

theorem SamePayloadBytes.mono {c' : Nat} (h : SamePayloadBytes c Q P) (hc : c' ≤ c) : SamePayloadBytes c' Q P :=
  fun a ha ha' => h a ha (Nat.lt_of_lt_of_le ha' hc)

/-- A slice within the equal bytes is the same slice (R11). -/
theorem SamePayloadBytes.slice {a n : Nat} (h : SamePayloadBytes c Q P) (ha : 16 ≤ a) (hn : a + n ≤ c) :
    (Q.drop a).take n = (P.drop a).take n := by
  apply List.ext_getElem?
  intro k
  rw [List.getElem?_take, List.getElem?_take, List.getElem?_drop, List.getElem?_drop]
  split
  · exact h (a + k) (by omega) (by omega)
  · rfl

theorem SamePayloadBytes.statusWireAt (h : SamePayloadBytes 113 Q P) : statusWireAt Q = statusWireAt P := by
  simp (disch := omega) only [Sys2Proof.statusWireAt, h.slice]

theorem SamePayloadBytes.eventWireAt (h : SamePayloadBytes 48 Q P) : eventWireAt Q = eventWireAt P := by
  simp (disch := omega) only [Sys2Proof.eventWireAt, h.slice]

theorem SamePayloadBytes.chunkWireAt {base : Nat} (h : SamePayloadBytes c Q P) (h16 : 16 ≤ base)
    (hbase : base + 28 ≤ c) : chunkWireAt Q base = chunkWireAt P base := by
  simp (disch := omega) only [Sys2Proof.chunkWireAt, h.slice]

/-- The declared count and the length fix the number of chunks (R116). -/
theorem SamePayloadBytes.chunkCount (h : SamePayloadBytes 48 Q P) (h48 : 48 ≤ P.length)
    (hlen : Q.length = P.length) : Reference.chunkCount Q = Reference.chunkCount P := by
  rw [Reference.chunkCount, Reference.chunkCount, ← toNat_detectionsInPacket h48,
    ← toNat_detectionsInPacket (hlen ▸ h48), h.eventWireAt, hlen]

/-- The chunks are read from offset 48 to the cursor (R104). -/
theorem SamePayloadBytes.chunksAt (h : SamePayloadBytes (48 + 28 * Reference.chunkCount P) Q P) (h48 : 48 ≤ P.length)
    (hlen : Q.length = P.length) : chunksAt Q = chunksAt P := by
  rw [Machine.chunksAt, Machine.chunksAt, (h.mono (Nat.le_add_right 48 _)).chunkCount h48 hlen]
  refine List.map_congr_left fun j hj => ?_
  have hj : j < Reference.chunkCount P := List.mem_range.mp hj
  exact h.chunkWireAt (by omega) (by omega)

end

/-! ## Equal readings run equally -/

section
variable {s : State}

/-- Of a payload too short to decode, only the length has an effect (R170, R220). -/
theorem arriveEvent_short_congr (t : EventType) {l m : List Byte} (h : l.length = m.length) :
    arriveEvent t (.short l) s = arriveEvent t (.short m) s := by
  simp only [arriveEvent, EventPayload.length, h]

/-- Of the bytes after the decoded chunks, only the number has an effect (R239). -/
theorem arriveEvent_full_congr (t : EventType) (w : EventWire) (chunks : List ChunkWire) {l m : List Byte}
    (h : l.length = m.length) : arriveEvent t (.full w chunks l) s = arriveEvent t (.full w chunks m) s := by
  simp only [arriveEvent, EventPayload.length, h]

theorem execStatus_short_congr (hr hr' : HeaderRest) {l m : List Byte} (h : l.length = m.length) :
    execStatus hr (.short l) s = execStatus hr' (.short m) s := by
  simp only [execStatus, StatusPayload.length, h]

/-- Of the header bytes and the bytes from 113 on, only the number has an effect (R115, R198). -/
theorem execStatus_full_congr (hr hr' : HeaderRest) (w : StatusWire) {l m : List Byte} (h : l.length = m.length) :
    execStatus hr (.full w l) s = execStatus hr' (.full w m) s := by
  simp only [execStatus, StatusPayload.length, h]

end

/-! ## Equal bytes run equally -/

section
variable {P Q : Packet}

theorem length_drop_congr (hlen : Q.length = P.length) (a : Nat) : (Q.drop a).length = (P.drop a).length := by
  rw [List.length_drop, List.length_drop, hlen]

/-- A STATUS packet with the same bytes up to the cursor has the same effect. -/
theorem execStatus_congr (s : State) {hr : HeaderRest} {p : StatusPayload} (hr' : HeaderRest)
    (hp : decodeStatusPayload P = .ok p) (hlen : Q.length = P.length)
    (hsame : SamePayloadBytes (Instr.status hr p).cursor Q P) :
    ∃ q, decodeStatusPayload Q = .ok q ∧ execStatus hr' q s = execStatus hr p s := by
  by_cases hshort : P.length - 16 < 97
  · obtain rfl : .short (P.drop 16) = p := Except.ok.inj ((decodeStatusPayload_of_lt hshort).symm.trans hp)
    exact ⟨_, decodeStatusPayload_of_lt (hlen ▸ hshort), execStatus_short_congr _ _ (length_drop_congr hlen 16)⟩
  · have h113 : 113 ≤ P.length := by omega
    obtain rfl := Except.ok.inj ((decodeStatusPayload_of_le h113).symm.trans hp)
    refine ⟨_, decodeStatusPayload_of_le (hlen ▸ h113), ?_⟩
    rw [hsame.statusWireAt]
    exact execStatus_full_congr _ _ _ (length_drop_congr hlen 113)

/-- An event packet with the same bytes up to the cursor has the same effect. -/
theorem arriveEvent_congr (s : State) {t : EventType} {hr : HeaderRest} {p : EventPayload}
    (hp : decodeEventPayload P = .ok p) (hlen : Q.length = P.length)
    (hsame : SamePayloadBytes (eventInstr t hr p).cursor Q P) :
    ∃ q, decodeEventPayload Q = .ok q ∧ arriveEvent t q s = arriveEvent t p s := by
  by_cases hshort : P.length - 16 < 32
  · obtain rfl : .short (P.drop 16) = p := Except.ok.inj ((decodeEventPayload_of_lt hshort).symm.trans hp)
    exact ⟨_, decodeEventPayload_of_lt (hlen ▸ hshort), arriveEvent_short_congr t (length_drop_congr hlen 16)⟩
  · have h48 : 48 ≤ P.length := by omega
    obtain rfl := Except.ok.inj ((decodeEventPayload_eq_chunksAt h48).symm.trans hp)
    rw [cursor_eventInstr_full, length_chunksAt] at hsame
    have hwire : SamePayloadBytes 48 Q P := hsame.mono (Nat.le_add_right 48 _)
    refine ⟨_, decodeEventPayload_eq_chunksAt (hlen ▸ h48), ?_⟩
    rw [hwire.eventWireAt, hsame.chunksAt h48 hlen, hwire.chunkCount h48 hlen]
    exact arriveEvent_full_congr t _ _ (length_drop_congr hlen _)

/-- The decoded packet of the same bytes up to the cursor has the same effect (R115, R79). -/
theorem exec_congr (s : State) {i : Instr} (hd : decode P = .ok i) (hlen : Q.length = P.length)
    (hmagic : Q.take 4 = P.take 4) (hsame : SamePayloadBytes i.cursor Q P) :
    ∃ j, decode Q = .ok j ∧ exec j s = exec i s := by
  obtain ⟨h16, hc, hi⟩ := decode_ok_cases hd
  have hQ : 16 ≤ Q.length := hlen ▸ h16
  have hc : magicAt Q = i.headerType.magic := by
    rw [magicAt, hmagic]
    exact (classifyMagic_eq_some_iff _ _).mp hc
  obtain ⟨p, hp, rfl⟩ | ⟨t, p, hp, rfl⟩ := hi
  · obtain ⟨q, hq, heq⟩ := execStatus_congr s { e2eLen := (Q.drop 4).take 4, unexamined := (Q.drop 8).take 8 }
      hp hlen hsame
    exact ⟨_, decode_status hQ hc hq, heq⟩
  · obtain ⟨q, hq, heq⟩ := arriveEvent_congr s hp hlen hsame
    rw [headerType_eventInstr] at hc
    exact ⟨_, decode_event hQ hc hq, by rw [exec_eventInstr, exec_eventInstr, heq]⟩

end

/-- A step with a packet first in line is the ingress of that packet (R141). -/
theorem step_withPending_packet (s : State) (P : Packet) (rest : List Input) :
    step (s.withPending (.packet P :: rest)) = onPacket P (s.withPending rest) := rfl

/-- Settles O18: both packets have one length, so the port carries both or neither, and `exec_congr`. -/
theorem dontCareBytesNeverChangeTheResult : Obligations.DontCareBytesNeverChangeTheResult := by
  intro s P Q rest i hd hlen hmagic hsame
  obtain ⟨j, hj, hexec⟩ := exec_congr (s.withPending rest) hd hlen hmagic hsame
  rw [step_withPending_packet, step_withPending_packet]
  simp only [onPacket, hlen, hd, hj, hexec]

end Sys2Proof.Machine
end

section
/-! The three bytes of a version field (O22), and the numeric codes (O46). -/

namespace Sys2Proof.Machine

/-- Settles O22: the three weighted bytes stay below 2^24, so 32 bits hold their sum. -/
theorem versionBytesSpellOneNumber : Obligations.VersionBytesSpellOneNumber := by
  intro b1 b2 b3
  have h1 : b1.toNat < 2 ^ 8 := b1.isLt
  have h2 : b2.toNat < 2 ^ 8 := b2.isLt
  have h3 : b3.toNat < 2 ^ 8 := b3.isLt
  have sum : (assembleVersion b1 b2 b3).toNat = b1.toNat * 2 ^ 16 + b2.toNat * 2 ^ 8 + b3.toNat := by
    rw [assembleVersion_eq_ofNat, BitVec.toNat_ofNat, Nat.mod_eq_of_lt (by omega)]
  have spelled : beNat [b1, b2, b3] = b1.toNat * 2 ^ 16 + b2.toNat * 2 ^ 8 + b3.toNat := by
    simp [beNat_cons, Nat.add_assoc]
  exact ⟨sum, by rw [sum, spelled], by omega⟩

/-- Settles O46: the code tables are the listed ones. -/
theorem codesAreTheTabledOnes : Obligations.CodesAreTheTabledOnes :=
  ⟨rfl, rfl, rfl, rfl, rfl⟩

end Sys2Proof.Machine
end

section
/-! The Header Classifier (O5, O6): its answer is a function of the first four bytes of a packet that has a header. -/

namespace Sys2Proof.Machine

section
variable {P : Packet}

/-- The classifier's word is a magic exactly when the first four bytes spell it, most significant first (R105, R143). -/
theorem magicAt_eq_magic_iff (h : 16 ≤ P.length) (ty : HeaderType) :
    magicAt P = ty.magic ↔ P.take 4 = beBytes 4 ty.magic.toNat := by
  constructor
  · intro hm
    have four : (P.take 4).length = 4 := by rw [List.length_take]; omega
    rw [← hm, magicAt, beBytes_ofNat_beNat four rfl]
  · intro hb
    rw [magicAt, hb, beNat_beBytes ty.magic.isLt, BitVec.ofNat_toNat, BitVec.setWidth_eq]

theorem classify_eq_some_iff (h : 16 ≤ P.length) (ty : HeaderType) :
    classify P = .ok (some ty) ↔ P.take 4 = beBytes 4 ty.magic.toNat := by
  rw [← magicAt_eq_magic_iff h, ← classifyMagic_eq_some_iff, classify_of_le h, Except.ok.injEq, magicAt]

/-- The classifier answers `none` when the first four bytes are the magic of no type (R143). -/
theorem classify_eq_none (h : 16 ≤ P.length) (hno : ∀ ty : HeaderType, P.take 4 ≠ beBytes 4 ty.magic.toNat) :
    classify P = .ok none := by
  have hcl : classify P = .ok (classifyMagic (magicAt P)) := classify_of_le h
  cases hc : classifyMagic (magicAt P) with
  | none => rw [hcl, hc]
  | some ty => exact absurd ((classify_eq_some_iff h ty).mp (by rw [hcl, hc])) (hno ty)

end

/-- Settles O5: the listed bytes are those of the six magics. -/
theorem classifierReturnsTheTypeOfTheSixMagics : Obligations.ClassifierReturnsTheTypeOfTheSixMagics := by
  intro P h
  have found (ty : HeaderType) : P.take 4 = beBytes 4 ty.magic.toNat → classify P = .ok (some ty) :=
    (classify_eq_some_iff h ty).mpr
  refine ⟨found .status, found .far0, found .far1, found .near0, found .near1, found .near2, fun hno => ?_⟩
  refine classify_eq_none h fun ty hb => hno ?_
  rw [hb]
  cases ty <;> decide

/-- Settles O6: two short packets have one answer, and two longer ones have one word to classify. -/
theorem classifierDependsOnTheMagicAlone : Obligations.ClassifierDependsOnTheMagicAlone := by
  intro P Q hlen hbytes
  rcases Nat.lt_or_ge P.length 16 with hP | hP
  · rw [classify_of_lt hP, classify_of_lt (by omega)]
  · rw [classify_of_le hP, classify_of_le (hlen.mp hP), hbytes]

end Sys2Proof.Machine
end

section
/-! The answer to a packet (O11): one transaction for each, with the whole answer for a byte sequence that is no instruction
(O15, O16). -/

namespace Sys2Proof.Machine

/-! ## One transaction, with at most one emission -/

/-- `s'` has one transaction more than `s`, for a packet of `len` bytes, with at most one emission (R141). -/
def AnsweredOnce (s s' : State) (len : Nat) : Prop :=
  ∃ tr, s'.egress = s.egress ++ [tr] ∧ tr.out.length ≤ 1 ∧ tr.res.len = len

/-- An answer adds its one transaction, whatever was written to the state before it. -/
theorem answeredOnce_answer {s s₀ : State} {out : List Emission} {res : Res} (he : s₀.egress = s.egress)
    (hout : out.length ≤ 1) : AnsweredOnce s (s₀.answer out res) res.len :=
  ⟨⟨out, res⟩, by rw [answer_egress, he], hout, rfl⟩

theorem answeredOnce_raiseFault (s : State) (code : ResCode) (sub : ResSub) (type : Option HeaderType) (mm : Bool)
    (len : Nat) : AnsweredOnce s (raiseFault s code sub type mm len) len :=
  answeredOnce_answer rfl (Nat.zero_le 1)

/-- Immediate emission emits one report or nothing (R147). -/
theorem answeredOnce_publishOrSuppress (s : State) (e : EventReport) (mm : Bool) (len : Nat) :
    AnsweredOnce s (publishOrSuppress s e mm len) len := by
  obtain ⟨-, hs⟩ | ⟨-, hs⟩ := publishOrSuppress_cases s e mm len
  · rw [hs]
    exact answeredOnce_answer rfl (Nat.le_refl 1)
  · rw [hs]
    exact answeredOnce_answer rfl (Nat.zero_le 1)

/-- The Aggregator emits one flushed batch or nothing (R317). -/
theorem answeredOnce_aggArrive (s : State) (b : Category) (e : EventReport) (mm : Bool) (len : Nat) :
    AnsweredOnce s (aggArrive s b e mm len) len := by
  obtain ⟨-, ha⟩ | ⟨list, -, -, ha⟩ | ⟨list, -, -, ha⟩ | ⟨ts, list, -, -, ha⟩ := aggArrive_cases s b e mm len
  · rw [ha]
    exact answeredOnce_answer (setBuf_egress _ _ _) (Nat.zero_le 1)
  · rw [ha]
    exact answeredOnce_answer (setBuf_egress _ _ _) (Nat.zero_le 1)
  · rw [ha]
    exact answeredOnce_raiseFault _ _ _ _ _ _
  · rw [ha]
    exact answeredOnce_answer (setBuf_egress _ _ _) (Nat.le_refl 1)

/-! ## The step -/

/-- Whatever a step on a packet answers, it answers once: `step_packet_cases`, case by case (R141, R146). -/
theorem answeredOnce_step_packet {s s' : State} {P : Packet} {rest : List Input} (hp : s.pktIn = .packet P :: rest)
    (hstep : step s = .next s') : AnsweredOnce s s' P.length := by
  obtain ⟨-, code, sub, type, rfl⟩ | ⟨-, rfl⟩ | ⟨e, -, -, rfl⟩ | ⟨e, -, -, rfl⟩ := step_packet_cases hp hstep
  · exact answeredOnce_raiseFault (s.withPending rest) _ _ _ _ _
  · exact answeredOnce_answer (withPending_egress s rest) (Nat.le_refl 1)
  · exact answeredOnce_publishOrSuppress (s.withPending rest) _ _ _
  · exact answeredOnce_aggArrive (s.withPending rest) _ _ _ _

/-- Settles O11: the port carries the packet, so the step answers a next state, and it answers once. -/
theorem everyPacketIsAnsweredOnce : Obligations.EveryPacketIsAnsweredOnce := by
  intro s P rest hp hm
  have hstep := step_eq_afterAnswer hp hm
  obtain ⟨tr, hegress, hout, hlen⟩ := answeredOnce_step_packet hp hstep
  obtain ⟨hcfg, hpending⟩ := step_packet_cfg_pktIn hp hstep
  exact ⟨_, tr, hstep, hegress, hout, hlen, hpending, hcfg⟩

/-! ## Byte sequences that are no instruction -/

/-- Settles O15: a packet without a header does not decode, and its rejection raises the fault. -/
theorem shortPacketsAreMalformed : Obligations.ShortPacketsAreMalformed :=
  fun _ _ _ hp hm hshort => step_packet_error hp hm (decode_short hshort)

/-- Settles O16: a packet that the classifier knows no type for does not decode, and its rejection raises the fault. -/
theorem unknownMagicsAreDropped : Obligations.UnknownMagicsAreDropped := by
  intro s P rest hp hm h hnone
  have hc : classifyMagic (magicAt P) = none := Except.ok.inj ((classify_of_le h).symm.trans hnone)
  exact step_packet_error hp hm (decode_unknown h hc)

end Sys2Proof.Machine
end

section
/-! What is published on arrival: a Status Report in either mode (O19), and an Event Report in Immediate mode (O33). -/

namespace Sys2Proof.Machine

/-- The header and layout S take 113 bytes (R100, R102). -/
theorem length_status_full (w : StatusWire) (rest : List Byte) :
    16 + (StatusPayload.full w rest).length = 113 + rest.length := by
  rw [StatusPayload.length]
  omega

/-- The header and layout E take 48 bytes (R100, R103). -/
theorem length_event_full (w : EventWire) (chunks : List ChunkWire) (rest : List Byte) :
    16 + (EventPayload.full w chunks rest).length = 48 + (28 * chunks.length + rest.length) := by
  rw [EventPayload.length]
  omega

/-- Settles O19: the full payload of `execStatus`, and its length. -/
theorem statusPublishesItsReport : Obligations.StatusPublishesItsReport := by
  intro h w rest s
  rw [← length_status_full w rest]
  rfl

/-- A report has one detection for each chunk, so its flag compares the declared count with the chunks (R260, R285). -/
theorem countMismatch_eventReportOf (t : EventType) (w : EventWire) (chunks : List ChunkWire) :
    countMismatch (eventReportOf t w chunks) = decide (w.detectionsInPacket.toNat > chunks.length) := by
  rw [countMismatch, eventReportOf, detectionsOf, List.length_map]

theorem arriveEvent_full_immediate {s : State} (hm : s.cfg.emitMode = .immediate) (t : EventType) (w : EventWire)
    (chunks : List ChunkWire) (rest : List Byte) :
    arriveEvent t (.full w chunks rest) s = publishOrSuppress s (eventReportOf t w chunks)
      (decide (w.detectionsInPacket.toNat > chunks.length)) (48 + (28 * chunks.length + rest.length)) := by
  simp only [arriveEvent, hm, countMismatch_eventReportOf, length_event_full]

/-- Settles O33: the event branch is immediate emission, whose gate is the declared count. -/
theorem immediateModePublishesOrSuppresses : Obligations.ImmediateModePublishesOrSuppresses := by
  intro t h w chunks rest s hm
  rw [exec_eventInstr, arriveEvent_full_immediate hm]
  obtain ⟨hpos, hs⟩ | ⟨hzero, hs⟩ := publishOrSuppress_cases s (eventReportOf t w chunks)
    (decide (w.detectionsInPacket.toNat > chunks.length)) (48 + (28 * chunks.length + rest.length))
  · have declared : w.detectionsInPacket ≠ 0 := fun h0 => by
      rw [eventReportOf, h0] at hpos
      exact Nat.lt_irrefl 0 hpos
    rw [hs, if_neg declared]
    rfl
  · have none_declared : w.detectionsInPacket = 0 := BitVec.eq_of_toNat_eq hzero
    rw [hs, if_pos none_declared]
    rfl

end Sys2Proof.Machine
end

section
/-! The encoder against the decoder (O1). No two well-formed instructions have the same bytes, and what decodes encodes to its
own bytes; so the bytes of an instruction decode to that instruction. -/

namespace Sys2Proof.Machine

/-! ## The encoders determine their operands -/

/-- A number of `n` bytes is determined by its bytes, whatever follows them. -/
theorem beBytes_append_inj {n w : Nat} (hw : w = 8 * n) {u v : BitVec w} {l m : List Byte} :
    beBytes n u.toNat ++ l = beBytes n v.toNat ++ m ↔ u = v ∧ l = m := by
  refine ⟨fun h => ?_, fun ⟨hu, hl⟩ => by rw [hu, hl]⟩
  obtain ⟨hbytes, hl⟩ := List.append_inj h (by rw [beBytes_length, beBytes_length])
  have fits (x : BitVec w) : beNat (beBytes n x.toNat) = x.toNat :=
    beNat_beBytes (x.isLt.trans_eq (by norm_num [hw, pow_mul]))
  exact ⟨BitVec.eq_of_toNat_eq (by rw [← fits u, hbytes, fits v]), hl⟩

theorem beBytes_inj {n w : Nat} (hw : w = 8 * n) {u v : BitVec w} :
    beBytes n u.toNat = beBytes n v.toNat ↔ u = v := by
  simpa using beBytes_append_inj hw (u := u) (v := v) (l := []) (m := [])

/-- Layout S (R102), field by field. -/
theorem encodeStatusWire_inj {w w' : StatusWire} (wf : w.wellFormed = true) (wf' : w'.wellFormed = true)
    (h : encodeStatusWire w = encodeStatusWire w') : w = w' := by
  simp only [StatusWire.wellFormed, beq_iff_eq] at wf wf'
  have serial {l m : List Byte} :
      w.serialNumber ++ l = w'.serialNumber ++ m ↔ w.serialNumber = w'.serialNumber ∧ l = m :=
    ⟨fun h => List.append_inj h (wf.trans wf'.symm), fun ⟨hs, hl⟩ => by rw [hs, hl]⟩
  simp only [encodeStatusWire, beBytes_append_inj, beBytes_inj, serial] at h
  cases w
  cases w'
  simpa only [StatusWire.mk.injEq] using h

/-- Layout E (R103), field by field. -/
theorem encodeEventWire_inj {w w' : EventWire} (h : encodeEventWire w = encodeEventWire w') : w = w' := by
  simp only [encodeEventWire, beBytes_append_inj, beBytes_inj] at h
  cases w
  cases w'
  simpa only [EventWire.mk.injEq] using h

/-- Layout D (R104), field by field. -/
theorem encodeChunkWire_inj {c c' : ChunkWire} (h : encodeChunkWire c = encodeChunkWire c') : c = c' := by
  simp only [encodeChunkWire, beBytes_append_inj, beBytes_inj] at h
  cases c
  cases c'
  simpa only [ChunkWire.mk.injEq] using h

/-- Consecutive chunks, given how many there are (R104, R261). -/
theorem encodeChunks_inj {cs cs' : List ChunkWire} (hlen : cs.length = cs'.length)
    (h : encodeChunks cs = encodeChunks cs') : cs = cs' := by
  induction cs generalizing cs' with
  | nil => exact (List.length_eq_zero_iff.mp hlen.symm).symm
  | cons c cs ih =>
    obtain _ | ⟨c', cs'⟩ := cs'
    · cases hlen
    · obtain ⟨hc, hcs⟩ := List.append_inj h (by rw [encodeChunkWire_length, encodeChunkWire_length])
      rw [encodeChunkWire_inj hc, ih (Nat.succ.inj hlen) hcs]

/-- The two fields of a header of one type (R101), whatever follows it. -/
theorem encodeHeader_append_inj {t : HeaderType} {h h' : HeaderRest} {l m : List Byte} (wf : h.wellFormed = true)
    (wf' : h'.wellFormed = true) (heq : encodeHeader t h ++ l = encodeHeader t h' ++ m) : h = h' ∧ l = m := by
  obtain ⟨hheader, hl⟩ := List.append_inj heq (by rw [encodeHeader_length t wf, encodeHeader_length t wf'])
  have hrest := List.append_cancel_left hheader
  simp only [HeaderRest.wellFormed, Bool.and_eq_true, beq_iff_eq] at wf wf'
  obtain ⟨four, -⟩ := wf
  obtain ⟨four', -⟩ := wf'
  obtain ⟨he2e, hunexamined⟩ := List.append_inj hrest (four.trans four'.symm)
  cases h
  cases h'
  cases he2e
  cases hunexamined
  exact ⟨rfl, hl⟩

/-- The length tells a short STATUS payload from a full one (R170). -/
theorem encodeStatusPayload_inj {p p' : StatusPayload} (wf : p.wellFormed = true) (wf' : p'.wellFormed = true)
    (h : encodeStatusPayload p = encodeStatusPayload p') : p = p' := by
  have hlen : p.length = p'.length := by
    rw [← encodeStatusPayload_length wf, ← encodeStatusPayload_length wf', h]
  cases p with
  | full w rest =>
    cases p' with
    | full w' rest' =>
      obtain ⟨hw, hrest⟩ := List.append_inj h (by rw [encodeStatusWire_length wf, encodeStatusWire_length wf'])
      rw [encodeStatusWire_inj wf wf' hw, hrest]
    | short bytes' =>
      have short : bytes'.length < 97 := of_decide_eq_true wf'
      simp only [StatusPayload.length] at hlen
      omega
  | short bytes =>
    cases p' with
    | full w' rest' =>
      have short : bytes.length < 97 := of_decide_eq_true wf
      simp only [StatusPayload.length] at hlen
      omega
    | short bytes' => exact congrArg _ h

/-- The length tells a short event payload from a full one (R220), and the declared count with the length tells how many
chunks there are (R116). -/
theorem encodeEventPayload_inj {p p' : EventPayload} (wf : p.wellFormed = true) (wf' : p'.wellFormed = true)
    (h : encodeEventPayload p = encodeEventPayload p') : p = p' := by
  have hlen : p.length = p'.length := by
    rw [← encodeEventPayload_length p, ← encodeEventPayload_length p', h]
  cases p with
  | full w chunks rest =>
    cases p' with
    | full w' chunks' rest' =>
      obtain ⟨hw, htail⟩ := List.append_inj h (by rw [encodeEventWire_length, encodeEventWire_length])
      obtain rfl := encodeEventWire_inj hw
      have hcount : chunks.length = chunks'.length := by
        simp only [EventPayload.wellFormed, Bool.and_eq_true, Bool.or_eq_true, decide_eq_true_eq, beq_iff_eq] at wf wf'
        simp only [EventPayload.length] at hlen
        omega
      obtain ⟨hchunks, hrest⟩ := List.append_inj htail (by rw [encodeChunks_length, encodeChunks_length, hcount])
      rw [encodeChunks_inj hcount hchunks, hrest]
    | short bytes' =>
      have short : bytes'.length < 32 := of_decide_eq_true wf'
      simp only [EventPayload.length] at hlen
      omega
  | short bytes =>
    cases p' with
    | full w' chunks' rest' =>
      have short : bytes.length < 32 := of_decide_eq_true wf
      simp only [EventPayload.length] at hlen
      omega
    | short bytes' => exact congrArg _ h

/-! ## Instructions -/

section
variable (h : HeaderRest) (p : StatusPayload)

@[simp] theorem encode_status : encode (.status h p) = encodeHeader .status h ++ encodeStatusPayload p := rfl

@[simp] theorem wellFormed_status : (Instr.status h p).wellFormed = (h.wellFormed && p.wellFormed) := rfl

end

/-- The classifier's word of an encoding is the magic of its type (R101, R105). -/
theorem magicAt_encode (i : Instr) : magicAt (encode i) = i.headerType.magic := by
  obtain ⟨h, p, rfl⟩ | ⟨t, h, p, rfl⟩ := instr_cases i
  · rw [magicAt, encode, Laws.take_four_header, ofNat_beNat_beBytes32]
    rfl
  · rw [magicAt, encode_eventInstr, Laws.take_four_header, ofNat_beNat_beBytes32, headerType_eventInstr]

theorem magic_injective {t t' : HeaderType} (h : t.magic = t'.magic) : t = t' := by
  rw [← classifyMagic_eq_some_iff, (classifyMagic_eq_some_iff _ _).mpr rfl] at h
  exact Option.some.inj h

theorem headerTypeOf_injective {t t' : EventType} (h : headerTypeOf t = headerTypeOf t') : t = t' := by
  revert h
  cases t <;> cases t' <;> decide

theorem headerTypeOf_ne_status (t : EventType) : headerTypeOf t ≠ .status := by
  cases t <;> exact HeaderType.noConfusion

/-- The bytes of a well-formed instruction determine it: the magic its type, and then header and payload their fields. -/
theorem encode_inj {i j : Instr} (wf : i.wellFormed = true) (wf' : j.wellFormed = true) (h : encode i = encode j) :
    i = j := by
  have htype : i.headerType = j.headerType :=
    magic_injective (by rw [← magicAt_encode, h, magicAt_encode])
  obtain ⟨hr, p, rfl⟩ | ⟨t, hr, p, rfl⟩ := instr_cases i <;>
    obtain ⟨hr', p', rfl⟩ | ⟨t', hr', p', rfl⟩ := instr_cases j
  · rw [wellFormed_status, Bool.and_eq_true] at wf wf'
    obtain ⟨rfl, hp⟩ := encodeHeader_append_inj wf.1 wf'.1 h
    rw [encodeStatusPayload_inj wf.2 wf'.2 hp]
  · rw [headerType_eventInstr] at htype
    exact absurd htype.symm (headerTypeOf_ne_status t')
  · rw [headerType_eventInstr] at htype
    exact absurd htype (headerTypeOf_ne_status t)
  · rw [headerType_eventInstr, headerType_eventInstr] at htype
    obtain rfl := headerTypeOf_injective htype
    rw [wellFormed_eventInstr, Bool.and_eq_true] at wf wf'
    rw [encode_eventInstr, encode_eventInstr] at h
    obtain ⟨rfl, hp⟩ := encodeHeader_append_inj wf.1 wf'.1 h
    rw [encodeEventPayload_inj wf.2 wf'.2 hp]

/-! ## The round trip -/

theorem sixteen_le_length (i : Instr) : 16 ≤ i.length := by
  cases i <;> exact Nat.le_add_right 16 _

/-- Settles O1: the encoding decodes to some instruction, which has the same bytes. -/
theorem decodeOfEncodedPacketIsThatPacket : Obligations.DecodeOfEncodedPacketIsThatPacket := by
  intro i wf
  have h16 : 16 ≤ (encode i).length := by
    rw [length_encode wf]
    exact sixteen_le_length i
  obtain ⟨j, hd, -⟩ := decode_of_magicAt h16 (magicAt_encode i)
  obtain ⟨wf', bytes⟩ := decode_roundTrip hd
  rw [hd, encode_inj wf' wf bytes]

end Sys2Proof.Machine
end

section
/-! The Status Decoder (O20, O21): when a STATUS packet is long enough to decode, and what each field of its report is. -/

namespace Sys2Proof.Machine

/-! ## The length check -/

section
variable {s : State} {P : Packet} {rest : List Input}

/-- A packet that is classified as STATUS has a header and decodes to a STATUS instruction (R142, R143). -/
theorem decode_of_classify_status {p : StatusPayload} (hc : classify P = .ok (some .status))
    (hp : decodeStatusPayload P = .ok p) :
    16 ≤ P.length ∧ ∃ hr, decode P = .ok (.status hr p) := by
  rcases Nat.lt_or_ge P.length 16 with h | h
  · rw [classify_of_lt h] at hc
    cases hc
  · rw [classify_eq_some_iff h, ← magicAt_eq_magic_iff h] at hc
    exact ⟨h, _, decode_status h hc hp⟩

/-- What a STATUS packet that is too short is answered with (R170). -/
theorem step_status_short (hp : s.pktIn = .packet P :: rest) (hm : limitAdmits s.cfg.maxPktLen P.length = true)
    (hc : classify P = .ok (some .status)) (h : P.length < 113) :
    step s = .next (raiseFault (s.withPending rest) .truncatedPacket .statusPayload (some .status) false P.length) := by
  obtain ⟨h16, hr, hd⟩ := decode_of_classify_status hc (decodeStatusPayload_of_lt (by omega))
  have len : 16 + (StatusPayload.short (P.drop 16)).length = P.length := by
    rw [StatusPayload.length, List.length_drop]
    omega
  rw [step_packet_ok hp hm hd, exec, execStatus, len]

/-- What a STATUS packet with a full payload is answered with (R150). -/
theorem step_status_full (hp : s.pktIn = .packet P :: rest) (hm : limitAdmits s.cfg.maxPktLen P.length = true)
    (hc : classify P = .ok (some .status)) (h : 113 ≤ P.length) :
    step s = .next ((s.withPending rest).answer [.publishStatus (statusReportOf (statusWireAt P))]
      ⟨.ok, .none, some .status, .statusPublished, false, P.length⟩) := by
  obtain ⟨-, hr, hd⟩ := decode_of_classify_status hc (decodeStatusPayload_of_le h)
  have len : 113 + (P.drop 113).length = P.length := by
    rw [List.length_drop]
    omega
  rw [step_packet_ok hp hm hd, statusPublishesItsReport, len]
  rfl

end

/-- Settles O20: the length decides between `step_status_short` and `step_status_full`. -/
theorem statusNeedsNinetySevenPayloadBytes : Obligations.StatusNeedsNinetySevenPayloadBytes :=
  fun _ _ _ hp hm hc => ⟨step_status_short hp hm hc, fun h => ⟨_, step_status_full hp hm hc h⟩⟩

/-! ## The fields -/

section
variable {P : Packet}

/-- A packet that decodes as STATUS with a full payload has layout S at its offsets (R170, R172). -/
theorem decode_status_full {hr : HeaderRest} {w : StatusWire} {bytes : List Byte}
    (hd : decode P = .ok (.status hr (.full w bytes))) : 113 ≤ P.length ∧ w = statusWireAt P := by
  obtain ⟨-, -, ⟨p, hp, hi⟩ | ⟨t, p, -, hi⟩⟩ := decode_ok_cases hd
  · obtain ⟨-, rfl⟩ := Instr.status.inj hi
    rcases Nat.lt_or_ge P.length 113 with h | h
    · rw [decodeStatusPayload_of_lt (by omega)] at hp
      cases hp
    · rw [decodeStatusPayload_of_le h] at hp
      cases hp
      exact ⟨h, rfl⟩
  · cases t <;> cases hi

/-- `MemRead` of the bytes of a field is the number that the field holds (R109). -/
theorem memRead_field {a n w : Nat} (h : a + n ≤ P.length) (hw : w = 8 * n) :
    memRead P a n = .ok (BitVec.ofNat w (beNat ((P.drop a).take n))).toNat := by
  have lt := beNat_lt ((P.drop a).take n)
  rw [List.length_take, List.length_drop, Nat.min_eq_left (by omega)] at lt
  rw [memRead_of_le h, BitVec.toNat_ofNat, Nat.mod_eq_of_lt (lt.trans_eq (by norm_num [hw, pow_mul]))]

/-- The version field at offset `a` of a packet. -/
def versionAt (P : Packet) (a : Nat) : U32 :=
  assembleVersion (BitVec.ofNat 8 (beNat ((P.drop a).take 1))) (BitVec.ofNat 8 (beNat ((P.drop (a + 1)).take 1)))
    (BitVec.ofNat 8 (beNat ((P.drop (a + 2)).take 1)))

/-- A version field is `MemRead` of its three bytes (R111). -/
theorem memRead_versionAt {a : Nat} (h : a + 3 ≤ P.length) : memRead P a 3 = .ok (versionAt P a).toNat := by
  have byte (b : Nat) (hb : b + 1 ≤ P.length) :
      BitVec.ofNat 8 (beNat ((P.drop b).take 1)) = P.getD b 0 := by
    simp [slice_eq_map_getD hb, beNat_cons]
  obtain ⟨-, spelled, -⟩ := versionBytesSpellOneNumber (P.getD a 0) (P.getD (a + 1) 0) (P.getD (a + 2) 0)
  rw [versionAt, byte a (by omega), byte (a + 1) (by omega), byte (a + 2) (by omega), spelled, memRead_of_le h,
    slice_eq_map_getD h]
  rfl

/-- Bytes shifted into place and joined: no bit is lost in 32 (R111). -/
theorem toNat_assembleVersion (x y z : U8) :
    (assembleVersion x y z).toNat = (x.toNat <<< 16) ||| (y.toNat <<< 8) ||| z.toNat := by
  have hx : x.toNat < 2 ^ 8 := x.isLt
  have hy : y.toNat < 2 ^ 8 := y.isLt
  have hz : z.toNat < 2 ^ 8 := z.isLt
  simp (disch := omega) only [assembleVersion, BitVec.toNat_or, BitVec.toNat_shiftLeft, BitVec.toNat_setWidth,
    Nat.shiftLeft_eq, Nat.mod_eq_of_lt]

/-- A version field is its three bytes, shifted and joined (R111). -/
theorem toNat_versionAt {a b1 b2 b3 : Nat} (h : a + 3 ≤ P.length) (h1 : memRead P a 1 = .ok b1)
    (h2 : memRead P (a + 1) 1 = .ok b2) (h3 : memRead P (a + 2) 1 = .ok b3) :
    (versionAt P a).toNat = (b1 <<< 16) ||| (b2 <<< 8) ||| b3 := by
  rw [memRead_field (w := 8) (by omega) rfl, Except.ok.injEq] at h1 h2 h3
  rw [versionAt, toNat_assembleVersion, h1, h2, h3]

end

/-- Settles O21: a raw field is the number of its bytes, a version field its three bytes joined, and a scaled field its
formula, whose named constants are the listed bits. -/
theorem statusReportFieldsFollowTheirRules : Obligations.StatusReportFieldsFollowTheirRules := by
  intro P hr w bytes hd
  obtain ⟨h, rfl⟩ := decode_status_full hd
  have field {v : Nat} (a n : Nat) (hv : v = (BitVec.ofNat (8 * n) (beNat ((P.drop a).take n))).toNat := by rfl)
      (ha : a + n ≤ 113 := by decide) : memRead P a n = .ok v := hv ▸ memRead_field (ha.trans h) rfl
  have version (a : Nat) (ha : a + 3 ≤ 113 := by decide) : memRead P a 3 = .ok (versionAt P a).toNat :=
    memRead_versionAt (ha.trans h)
  have serial : memBytes P 45 26 = .ok ((P.drop 45).take 26) := memBytes_of_le (Nat.le_trans (by decide) h)
  exact ⟨field 16 2, field 18 2, field 20 1, field 21 8, field 29 8, field 37 8, serial,
    version 71, fun _ _ _ => toNat_versionAt (by omega), field 74 4,
    version 78, fun _ _ _ => toNat_versionAt (by omega), field 81 4, field 85 8, field 93 4,
    field 97 4, rfl, field 101 1, field 102 1, field 103 1, field 104 1, field 105 1, field 106 1, field 107 1, field 108 1,
    field 109 2, rfl, field 111 2, rfl⟩

end Sys2Proof.Machine
end

section
/-! The scaled values of STATUS and of `Vambig` (O51). An operation whose exact result is zero or in the range of the normal
numbers is off by at most one part in `2 ^ 52`; a scaled value follows its formula through its operations, and through the
constants whose binary64 is not the literal. -/

namespace Sys2Proof.Machine

/-! ## The relative error of one rounding -/

/-- From the smallest normal number on, the next magnitude is at most one part in `2 ^ 52` larger. -/
theorem magUnits_gap_le {n : Nat} (h : 2 ^ 52 ≤ n) :
    ((magUnits (n + 1) : ℚ) - magUnits n) * 2 ^ 52 ≤ magUnits n := by
  obtain ⟨e, m, rfl, hm, he⟩ := exists_significand n
  have hidden : (2 ^ 52 : ℚ) ≤ m := by exact_mod_cast (show 2 ^ 52 ≤ m by omega)
  rw [Nat.add_assoc, magUnits_add hm.le he, magUnits_add (by omega) (by omega)]
  push_cast
  calc ((m + 1) * 2 ^ e - m * 2 ^ e) * 2 ^ 52 = (2 ^ 52 * 2 ^ e : ℚ) := by ring
    _ ≤ m * 2 ^ e := mul_le_mul_of_nonneg_right hidden (by positivity)

/-- Every magnitude lies between two consecutive ones. -/
theorem exists_magUnits_le_lt {q : ℚ} (h : 0 ≤ q) : ∃ n, (magUnits n : ℚ) ≤ q ∧ q < magUnits (n + 1) := by
  have above : ∃ n, q < magUnits n := by
    obtain ⟨n, hn⟩ := exists_nat_gt q
    exact ⟨n, hn.trans_le (by exact_mod_cast magUnits_strictMono.le_apply)⟩
  have zero_below : ¬ q < magUnits 0 := by simpa [magUnits] using h
  obtain ⟨n, hn, habove⟩ := Nat.exists_not_and_succ_of_not_zero_of_exists zero_below above
  exact ⟨n, not_lt.mp hn, habove⟩

/-- The exact values whose rounding is a normal number: neither below the smallest one nor beyond the largest. -/
def InNormalRange (x : ℚ) : Prop :=
  2 ^ 52 ≤ |x| * 2 ^ 1074 ∧ |x| ≤ fValue 0x7FEFFFFFFFFFFFFF

/-- Two bounds well within the range. -/
theorem inNormalRange_of_le {x : ℚ} (hlo : 1 / 2 ^ 100 ≤ |x|) (hhi : |x| ≤ 2 ^ 52) : InNormalRange x := by
  constructor
  · calc (2 : ℚ) ^ 52 ≤ 1 / 2 ^ 100 * 2 ^ 152 := by norm_num
      _ ≤ 1 / 2 ^ 100 * 2 ^ 1074 :=
        mul_le_mul_of_nonneg_left (pow_le_pow_right₀ one_le_two (by decide)) (by positivity)
      _ ≤ |x| * 2 ^ 1074 := mul_le_mul_of_nonneg_right hlo (by positivity)
  · obtain ⟨hfin, hv⟩ := integersConvertExactly (2 ^ 52) (by decide)
    have bound := abs_fValue_le_max hfin
    rw [hv] at bound
    push_cast at bound
    exact hhi.trans ((le_abs_self _).trans bound)

/-- `r` is finite and within one part in `2 ^ 52` of the exact value `x`. -/
def RoundedTo (r : F64) (x : ℚ) : Prop :=
  fIsFinite r = true ∧ |fValue r - x| ≤ |x| / 2 ^ 52

/-- Among the magnitudes of the finite patterns, one is at most one part in `2 ^ 52` below `q` units. -/
theorem exists_magUnits_near {q : ℚ} (hlo : 2 ^ 52 ≤ q) (hhi : q ≤ magUnits maxMag) :
    ∃ n, n < infMag ∧ (magUnits n : ℚ) ≤ q ∧ (q - magUnits n) * 2 ^ 52 ≤ q := by
  obtain ⟨n, hn, hn1⟩ := exists_magUnits_le_lt ((by positivity : (0 : ℚ) ≤ 2 ^ 52).trans hlo)
  have finite : n ≤ maxMag := magUnits_strictMono.le_iff_le.mp (by exact_mod_cast hn.trans hhi)
  have normal : 2 ^ 52 < n + 1 := by
    have smallest : magUnits (2 ^ 52) = 2 ^ 52 := by decide
    refine magUnits_strictMono.lt_iff_lt.mp ?_
    rw [smallest]
    exact_mod_cast hlo.trans_lt hn1
  have gap := magUnits_gap_le (Nat.lt_succ_iff.mp normal)
  exact ⟨n, (lt_infMag_iff n).mpr finite, hn, by linarith⟩

theorem exists_signOf_mul_abs (x : ℚ) : ∃ neg, signOf neg * |x| = x := by
  rcases lt_or_ge x 0 with h | h
  · exact ⟨true, by rw [signOf_true, abs_of_neg h, neg_one_mul, neg_neg]⟩
  · exact ⟨false, by rw [signOf_false, abs_of_nonneg h, one_mul]⟩

/-- Some finite pattern is within one part in `2 ^ 52` of a value in the range of the normal numbers. -/
theorem exists_roundedTo {x : ℚ} (hx : InNormalRange x) : ∃ y, RoundedTo y x := by
  obtain ⟨hlo, hhi⟩ := hx
  have hc : (0 : ℚ) < 2 ^ 1074 := by positivity
  rw [fValue_max, le_div_iff₀ hc] at hhi
  obtain ⟨n, hmag, hn, gap⟩ := exists_magUnits_near hlo hhi
  obtain ⟨neg, hneg⟩ := exists_signOf_mul_abs x
  have value : fValue (fPack neg n) = signOf neg * magUnits n / 2 ^ 1074 := fValue_fPack neg hmag
  generalize (2 : ℚ) ^ 1074 = c at *
  have hsign : signOf neg * (|x| * c) / c = x := by
    rw [← mul_assoc, mul_div_cancel_right₀ _ hc.ne', hneg]
  have herr : |fValue (fPack neg n) - x| = (|x| * c - magUnits n) / c := by
    rw [value, ← hsign, abs_signed_sub hc, hsign, abs_sub_comm, abs_of_nonneg (sub_nonneg.mpr hn)]
  refine ⟨fPack neg n, (fIsFinite_fPack_iff neg).mpr hmag, ?_⟩
  rw [herr, div_le_div_iff₀ hc (by positivity)]
  exact gap

/-- Rounding is at least as near as any other pattern. -/
theorem NearestEven.roundedTo {r : F64} {x : ℚ} (h : NearestEven r x) (hx : x ≠ 0 → InNormalRange x) :
    RoundedTo r x := by
  by_cases h0 : x = 0
  · subst h0
    rw [← fValue_fZero false] at h ⊢
    obtain ⟨hr, hv⟩ := h.exact (fIsFinite_fZero false)
    exact ⟨hr, by rw [hv, sub_self, abs_zero]; positivity⟩
  · obtain ⟨hrange, hnear⟩ := h
    obtain ⟨y, hy, herr⟩ := exists_roundedTo (hx h0)
    have hr := hrange (hx h0).2
    exact ⟨hr, (hnear hr y hy).1.trans herr⟩

/-- The size of a rounded value, up to a factor of 2. -/
theorem RoundedTo.abs_bounds {r : F64} {x : ℚ} (h : RoundedTo r x) : |x| / 2 ≤ |fValue r| ∧ |fValue r| ≤ 2 * |x| := by
  obtain ⟨-, herr⟩ := h
  obtain ⟨lo, hi⟩ := abs_le.mp ((abs_abs_sub_abs_le_abs_sub (fValue r) x).trans herr)
  have := abs_nonneg x
  constructor <;> linarith

/-! ## The constants -/

/-- The value of a positive pattern as its significand over a power of two. -/
theorem fValue_of_parts {x : F64} {m k : Nat} (hx : fIsFinite x = true) (hs : fSign x = false) (hm : fSig x = m)
    (hk : fScale x + k = 1074) : fValue x = m / 2 ^ k := by
  rw [fValue_eq_sig hx, hs, hm, ← hk, pow_add, signOf_false, one_mul, mul_comm ((2 : ℚ) ^ fScale x),
    mul_div_mul_right _ _ (by positivity)]

theorem fValue_kTenth : fValue kTenth = 7205759403792794 / 2 ^ 56 := by
  exact_mod_cast fValue_of_parts (x := kTenth) (m := 7205759403792794) (k := 56) rfl rfl rfl rfl

theorem fValue_kDampingFactor : fValue kDampingFactor = 8388608003906247 / 2 ^ 53 := by
  exact_mod_cast fValue_of_parts (x := kDampingFactor) (m := 8388608003906247) (k := 53) rfl rfl rfl rfl

/-- The quotient `200/65534.0` of R232. -/
theorem k200_div_k65534 : fdiv k200 k65534 = 0x3F690032006400C8 := by decide

theorem fValue_k200_div_k65534 : fValue (fdiv k200 k65534) = 7037089172685000 / 2 ^ 61 := by
  rw [k200_div_k65534]
  exact_mod_cast fValue_of_parts (x := 0x3F690032006400C8) (m := 7037089172685000) (k := 61) rfl rfl rfl rfl

theorem kDampingOffset_exact : fIsFinite kDampingOffset = true ∧ fValue kDampingOffset = 2000000000 := by
  obtain ⟨hfin, hv⟩ := integersConvertExactly 2000000000 (by decide)
  exact ⟨hfin, by rw [kDampingOffset, hv, Int.cast_ofNat]⟩

theorem kDampingDivisor_exact : fIsFinite kDampingDivisor = true ∧ fValue kDampingDivisor = 100000000 := by
  obtain ⟨hfin, hv⟩ := integersConvertExactly 100000000 (by decide)
  exact ⟨hfin, by rw [kDampingDivisor, hv, Int.cast_ofNat]⟩

/-! ## An integer times a constant -/

section
variable {v : Int} {k : F64}

/-- The product of an integer and a constant is off by its rounding alone. -/
theorem fmul_toF_roundedTo (hv : v.natAbs < 2 ^ 40) (hk : fIsFinite k = true) (hlo : 1 / 2 ^ 40 ≤ fValue k)
    (hhi : fValue k ≤ 1) : RoundedTo (fmul (toF v) k) (v * fValue k) := by
  obtain ⟨hfin, hval⟩ := integersConvertExactly v (hv.trans (by decide))
  have nearest := fmul_nearestEven hfin hk
  rw [hval] at nearest
  refine nearest.roundedTo fun h0 => ?_
  have one_le : (1 : ℚ) ≤ |(v : ℚ)| := by exact_mod_cast Int.one_le_abs (Int.cast_ne_zero.mp (left_ne_zero_of_mul h0))
  have lt : |(v : ℚ)| ≤ 2 ^ 40 := by
    rw [← Int.cast_abs, ← Nat.cast_natAbs]
    exact_mod_cast hv.le
  have hpos : 0 ≤ fValue k := (by positivity : (0 : ℚ) ≤ 1 / 2 ^ 40).trans hlo
  apply inNormalRange_of_le <;> rw [abs_mul, abs_of_nonneg hpos]
  · calc (1 : ℚ) / 2 ^ 100 ≤ 1 * (1 / 2 ^ 40) := by norm_num
      _ ≤ |(v : ℚ)| * fValue k := mul_le_mul one_le hlo (by positivity) (abs_nonneg _)
  · calc |(v : ℚ)| * fValue k ≤ 2 ^ 40 * 1 := mul_le_mul lt hhi hpos (by positivity)
      _ ≤ 2 ^ 52 := by norm_num

/-- The product of an integer and a constant that stands for `c` is within the document's tolerance (D7). -/
theorem fmul_toF_withinTolerance {c : ℚ} (hv : v.natAbs < 2 ^ 40) (hk : fIsFinite k = true) (hlo : 1 / 2 ^ 40 ≤ fValue k)
    (hhi : fValue k ≤ 1) (hc : |fValue k - c| ≤ c / 10 ^ 10) : WithinTolerance (fmul (toF v) k) (v * c) := by
  obtain ⟨hfin, herr⟩ := fmul_toF_roundedTo hv hk hlo hhi
  refine ⟨hfin, ?_⟩
  have hkpos : 0 < fValue k := (by positivity : (0 : ℚ) < 1 / 2 ^ 40).trans_le hlo
  have hcpos : 0 ≤ c := by
    have := (abs_nonneg _).trans hc
    linarith
  have hkc : fValue k ≤ 2 * c := by
    have := (abs_le.mp hc).2
    linarith
  rw [abs_mul, abs_of_pos hkpos] at herr
  calc |fValue (fmul (toF v) k) - v * c|
      = |(fValue (fmul (toF v) k) - v * fValue k) + v * (fValue k - c)| := by ring_nf
    _ ≤ |(v : ℚ)| * fValue k / 2 ^ 52 + |(v : ℚ)| * |fValue k - c| := by
      rw [← abs_mul]
      exact (abs_add_le _ _).trans (add_le_add_left herr _)
    _ ≤ |(v : ℚ)| * (2 * c) / 2 ^ 52 + |(v : ℚ)| * (c / 10 ^ 10) := by gcongr
    _ = |(v : ℚ)| * c * (2 / 2 ^ 52 + 1 / 10 ^ 10) := by ring
    _ ≤ |(v : ℚ)| * c * (1 / 10 ^ 9) := by
      have := mul_nonneg (abs_nonneg (v : ℚ)) hcpos
      gcongr
      norm_num
    _ = |v * c| / 10 ^ 9 := by rw [abs_mul, abs_of_nonneg hcpos, mul_one_div]

end

theorem scaleMaxRange_withinTolerance (raw : U16) : WithinTolerance (scaleMaxRange raw) ((raw.toNat : ℚ) / 10) := by
  have small : raw.toNat < 2 ^ 16 := raw.isLt
  have key := fmul_toF_withinTolerance (v := raw.toNat) (k := kTenth) (c := 1 / 10) (by omega) rfl
    (by norm_num [fValue_kTenth]) (by norm_num [fValue_kTenth]) (by norm_num [fValue_kTenth, abs_le])
  rwa [Int.cast_natCast, mul_one_div] at key

theorem scaleVambig_withinTolerance (raw : I16) : WithinTolerance (scaleVambig raw) (raw.toInt * (200 / 65534)) := by
  have small : raw.toInt.natAbs < 2 ^ 40 := by
    have lo := BitVec.le_toInt raw
    have hi := BitVec.toInt_lt (x := raw)
    omega
  rw [scaleVambig, s16_eq_toInt]
  exact fmul_toF_withinTolerance small rfl (by norm_num [fValue_k200_div_k65534]) (by norm_num [fValue_k200_div_k65534])
    (by norm_num [fValue_k200_div_k65534, abs_le])

/-! ## `CurrentDamping` -/

/-- `raw * 0.931322575049159` of R186. -/
def dampingProduct (raw : U32) : F64 := fmul (toF raw.toNat) kDampingFactor

/-- `raw * 0.931322575049159 - 2000000000.0` of R186. -/
def dampingDifference (raw : U32) : F64 := fsub (dampingProduct raw) kDampingOffset

theorem scaleDamping_eq_fdiv (raw : U32) : scaleDamping raw = fdiv (dampingDifference raw) kDampingDivisor := rfl

section
variable (raw : U32)

theorem dampingProduct_roundedTo :
    RoundedTo (dampingProduct raw) (raw.toNat * (8388608003906247 / 2 ^ 53)) := by
  have small : raw.toNat < 2 ^ 32 := raw.isLt
  rw [← fValue_kDampingFactor]
  exact fmul_toF_roundedTo (v := raw.toNat) (by omega) rfl (by norm_num [fValue_kDampingFactor])
    (by norm_num [fValue_kDampingFactor])

/-- The error of the product, as a share of the raw value. -/
theorem dampingProduct_error :
    |fValue (dampingProduct raw) - (raw.toNat : ℚ) * (8388608003906247 / 2 ^ 53)| ≤ (raw.toNat : ℚ) / 2 ^ 52 := by
  obtain ⟨-, herr⟩ := dampingProduct_roundedTo raw
  refine herr.trans (div_le_div_of_nonneg_right ?_ (by positivity))
  rw [abs_of_nonneg (by positivity)]
  have : (0 : ℚ) ≤ raw.toNat := Nat.cast_nonneg _
  linarith

/-- No raw value has a product near 2000000000: that of 2147483647 is below, and the next one above. -/
theorem dampingProduct_gap : 1 / 10 ^ 7 ≤ |fValue (dampingProduct raw) - 2000000000| := by
  obtain ⟨lo, hi⟩ := abs_le.mp (dampingProduct_error raw)
  rcases Nat.lt_or_ge raw.toNat 2147483648 with h | h
  · have : (raw.toNat : ℚ) ≤ 2147483647 := by exact_mod_cast Nat.lt_succ_iff.mp h
    exact le_abs.mpr (.inr (by linarith))
  · have : (2147483648 : ℚ) ≤ raw.toNat := by exact_mod_cast h
    exact le_abs.mpr (.inl (by linarith))

theorem dampingProduct_range : |fValue (dampingProduct raw) - 2000000000| ≤ 3000000000 := by
  obtain ⟨lo, hi⟩ := abs_le.mp (dampingProduct_error raw)
  have small : (raw.toNat : ℚ) ≤ 2 ^ 32 := by exact_mod_cast raw.isLt.le
  have : (0 : ℚ) ≤ raw.toNat := Nat.cast_nonneg _
  exact abs_le.mpr ⟨by linarith, by linarith⟩

theorem dampingDifference_roundedTo :
    RoundedTo (dampingDifference raw) (fValue (dampingProduct raw) - 2000000000) := by
  obtain ⟨hfin, -⟩ := dampingProduct_roundedTo raw
  obtain ⟨hoffset, hval⟩ := kDampingOffset_exact
  have lo := dampingProduct_gap raw
  have hi := dampingProduct_range raw
  rw [← hval] at lo hi ⊢
  exact (fsub_nearestEven hfin hoffset).roundedTo fun _ => inNormalRange_of_le (by linarith) (by linarith)

/-- The size of the difference; it is never 0. -/
theorem dampingDifference_bounds :
    1 / 10 ^ 8 ≤ |fValue (dampingDifference raw)| ∧ |fValue (dampingDifference raw)| ≤ 6000000000 := by
  obtain ⟨lo, hi⟩ := (dampingDifference_roundedTo raw).abs_bounds
  have gap := dampingProduct_gap raw
  have range := dampingProduct_range raw
  constructor <;> linarith

theorem abs_dampingQuotient :
    |fValue (dampingDifference raw) / 100000000| = |fValue (dampingDifference raw)| / 100000000 := by
  rw [abs_div, abs_of_pos (by norm_num : (0 : ℚ) < 100000000)]

theorem scaleDamping_roundedTo : RoundedTo (scaleDamping raw) (fValue (dampingDifference raw) / 100000000) := by
  obtain ⟨hfin, -⟩ := dampingDifference_roundedTo raw
  obtain ⟨hdivisor, hval⟩ := kDampingDivisor_exact
  obtain ⟨lo, hi⟩ := dampingDifference_bounds raw
  have nearest := fdiv_nearestEven hfin hdivisor (by rw [hval]; norm_num)
  rw [hval, ← scaleDamping_eq_fdiv] at nearest
  refine nearest.roundedTo fun _ => inNormalRange_of_le ?_ ?_ <;> rw [abs_dampingQuotient] <;> linarith

/-- No raw value is scaled to 0. -/
theorem fValue_scaleDamping_ne_zero : fValue (scaleDamping raw) ≠ 0 := by
  obtain ⟨hquotient, -⟩ := (scaleDamping_roundedTo raw).abs_bounds
  obtain ⟨hdifference, -⟩ := dampingDifference_bounds raw
  rw [abs_dampingQuotient] at hquotient
  exact abs_pos.mp (by linarith)

/-- The errors of the factor and of the three operations add up to less than 1e-9 of 20 dB (D7). -/
theorem scaleDamping_near :
    |fValue (scaleDamping raw) - ((raw.toNat : ℚ) * (931322575049159 / 10 ^ 15) - 2000000000) / 100000000| ≤
      20 / 10 ^ 9 := by
  obtain ⟨-, difference⟩ := dampingDifference_roundedTo raw
  obtain ⟨-, quotient⟩ := scaleDamping_roundedTo raw
  obtain ⟨-, hi⟩ := dampingDifference_bounds raw
  have range := dampingProduct_range raw
  rw [abs_dampingQuotient] at quotient
  obtain ⟨p1, p2⟩ := abs_le.mp (dampingProduct_error raw)
  obtain ⟨d1, d2⟩ := abs_le.mp difference
  obtain ⟨q1, q2⟩ := abs_le.mp quotient
  have small : (raw.toNat : ℚ) ≤ 2 ^ 32 := by exact_mod_cast raw.isLt.le
  have : (0 : ℚ) ≤ raw.toNat := Nat.cast_nonneg _
  exact abs_le.mpr ⟨by linarith, by linarith⟩

end

/-- Settles O51: the three scalings, each by the errors of its operations. -/
theorem statusAndVambigValuesAreWithinTolerance : Obligations.StatusAndVambigValuesAreWithinTolerance :=
  ⟨fun raw => ⟨(scaleDamping_roundedTo raw).1, fValue_scaleDamping_ne_zero raw, scaleDamping_near raw⟩,
    scaleMaxRange_withinTolerance, scaleVambig_withinTolerance⟩

end Sys2Proof.Machine
end

section
/-! The Event Decoder (O23, O25, O27): when an event packet is long enough to decode, what each field of its report is, and
how long its list is. -/

namespace Sys2Proof.Machine

section
variable {s : State} {P : Packet} {rest : List Input} {t : EventType}

/-- The classifier's answer, on a packet of any length: a type is found at its magic, behind a whole header (R142, R143). -/
theorem classify_eq_some_iff_magicAt (ty : HeaderType) :
    classify P = .ok (some ty) ↔ 16 ≤ P.length ∧ magicAt P = ty.magic := by
  rcases Nat.lt_or_ge P.length 16 with h | h
  · rw [classify_of_lt h]
    exact ⟨nofun, fun ⟨h16, _⟩ => absurd h16 (Nat.not_le.mpr h)⟩
  · rw [classify_eq_some_iff h, ← magicAt_eq_magic_iff h]
    exact (and_iff_right h).symm

/-! ## The length check -/

/-- What an event packet that is too short is answered with (R220). -/
theorem step_event_short (hp : s.pktIn = .packet P :: rest) (hm : limitAdmits s.cfg.maxPktLen P.length = true)
    (h16 : 16 ≤ P.length) (hc : magicAt P = (headerTypeOf t).magic) (h : P.length < 48) :
    step s = .next (raiseFault (s.withPending rest) .truncatedPacket .eventPayload (some (headerTypeOf t)) false
      P.length) := by
  rw [step_eq_afterAnswer hp hm, reference_step_event h16 hc]
  exact congrArg _ (eventStep_short (s.withPending rest) t (by omega))

end

/-- Settles O27: the length decides between `step_event_short`, with no report, and the report of `DecodeEvent`. -/
theorem eventNeedsThirtyTwoPayloadBytes : Obligations.EventNeedsThirtyTwoPayloadBytes := by
  intro s P rest t hp hm hc
  obtain ⟨h16, hc⟩ := (classify_eq_some_iff_magicAt _).mp hc
  exact ⟨fun h => ⟨packetReport_event_short h16 h hc, step_event_short hp hm h16 hc h⟩,
    fun h => ⟨_, packetReport_event h hc, rfl⟩⟩

/-! ## The list -/

/-- Settles O25: `length_detectionList_of_packetReport`, since a report is always that of `DecodeEvent`. -/
theorem detectionListLengthLaw : Obligations.DetectionListLengthLaw :=
  fun _ _ => length_detectionList_of_packetReport

/-! ## The fields -/

section
variable {P : Packet}

/-- An event instruction with a full payload is a packet's report (R222, R236). -/
theorem packetReport_of_decode_event {t : EventType} {hr : HeaderRest} {w : EventWire} {chunks : List ChunkWire}
    {bytes : List Byte} (hd : decode P = .ok (eventInstr t hr (.full w chunks bytes))) :
    packetReport P = some (eventReportOf t w chunks) := by
  rw [packetReport, hd]
  exact reportOf_eventInstr t hr _

/-- `MemRead` is the number that the reference's field holds (R11, R109). -/
theorem memRead_rdW {a n w : Nat} (h : a + n ≤ P.length) (hw : w = 8 * n) :
    memRead P a n = .ok (Reference.rdW w P a n).toNat := by
  rw [rdW_eq_ofNat h, memRead_field h hw]

/-- The divisor's bits are those of the integer 65534, which binary64 holds exactly (R14, R232). -/
theorem k65534_eq_toF : k65534 = toF 65534 := by decide

/-- `Vambig` is the operations of R232, the quotient first. -/
theorem scaleVambig_eq (raw : I16) : scaleVambig raw = fmul (toF (s16 raw)) (fdiv (toF 200) (toF 65534)) := by
  rw [← k65534_eq_toF]
  rfl

/-- The list of `DecodeEvent` is counted by its declared count and by the chunks that are there (R238, R260). -/
theorem detectionList_decodeEvent (t : EventType) (h : 48 ≤ P.length) :
    (Reference.decodeEvent t P).detectionList =
      (List.range (min (Reference.decodeEvent t P).detectionsInPacket.toNat ((P.length - 48) / 28))).map
        (Reference.decodeChunk P) := by
  have declared : (Reference.decodeEvent t P).detectionsInPacket.toNat = Reference.rd P 47 1 :=
    rdW_one_toNat (by omega)
  rw [declared]
  rfl

end

/-- Settles O23: the report is that of `DecodeEvent` at the packet's magic, whose raw fields are the numbers of their bytes
and whose list follows the declared count. -/
theorem eventReportFieldsFollowTheirRules : Obligations.EventReportFieldsFollowTheirRules := by
  intro P t hr w chunks bytes hd ev
  obtain ⟨h48, t', hc, hev⟩ := packetReport_eq_some (packetReport_of_decode_event hd)
  have hev : ev = Reference.decodeEvent t' P := hev
  have list := detectionList_decodeEvent t' h48
  have field (a n : Nat) (ha : a + n ≤ 48 := by decide) :
      memRead P a n = .ok (Reference.rdW (8 * n) P a n).toNat := memRead_rdW (ha.trans h48) rfl
  rw [hev]
  refine ⟨field 16 2, field 18 2, field 20 1, field 21 1, field 22 8, field 30 4, field 34 4, field 38 4, field 42 2,
    field 44 2, scaleVambig_eq _, field 46 1, field 47 1, fun _ => list, fun none_declared => ?_, ?_⟩
  · rw [list, none_declared, Nat.zero_min, List.range_zero, List.map_nil]
  · exact (classify_eq_some_iff_magicAt _).mpr ⟨Nat.le_trans (by decide) h48, hc⟩

end Sys2Proof.Machine
end

section
/-! The Detection Record Decoder (O24, O26, O28, O49): what each field of a list's element is, when chunks are missing, and
the constant `TWO_PI`. -/

namespace Sys2Proof.Machine

/-! ## The fields of an element -/

section
variable {P : Packet} {e : EventReport} {j : Nat} {d : Detection}

/-- Element `j` of a report's list is `DecodeChunk` of chunk `j`, all of whose bytes are there (R261, R283). -/
theorem getElem_detectionList_of_packetReport (h : packetReport P = some e) (hd : e.detectionList[j]? = some d) :
    48 + 28 * j + 28 ≤ P.length ∧ d = Reference.decodeChunk P j := by
  obtain ⟨h48, t, -, rfl⟩ := packetReport_eq_some h
  rw [detectionList_decodeEvent t h48, List.getElem?_map, Option.map_eq_some_iff] at hd
  obtain ⟨i, hi, rfl⟩ := hd
  obtain ⟨hj, rfl⟩ := List.getElem?_eq_some_iff.mp hi
  rw [List.length_range] at hj
  rw [List.getElem_range]
  exact ⟨by omega, rfl⟩

/-- The divisor's bits are those of the integer 254 (R266). -/
theorem k254_eq_toF : k254 = toF 254 := by decide

/-- The operations of R264 to R276: the division first. -/
theorem scaleSpan_eq (v : Int) (span : F64) : scaleSpan v span = fmul (fdiv (toF v) (toF 65534)) span := by
  rw [← k65534_eq_toF]
  rfl

theorem scaleProbability_eq (raw : U8) : scaleProbability raw = fdiv (toF raw.toNat) (toF 254) := by
  rw [← k254_eq_toF]
  rfl

theorem scaleAngleVariance_eq (raw : U16) : scaleAngleVariance raw = fdiv (toF raw.toNat) (toF 65534) := by
  rw [← k65534_eq_toF]
  rfl

/-- The operations of a signed field are on its two's complement reading (R10). -/
theorem scaleSpan_toInt_eq (v : I16) (span : F64) :
    scaleSpan v.toInt span = fmul (fdiv (toF (s16 v)) (toF 65534)) span := by
  rw [s16_eq_toInt, scaleSpan_eq]

end

/-- Settles O24: an element is `DecodeChunk` of its chunk, whose raw fields are the numbers of their bytes and whose scaled
fields are their operations. -/
theorem detectionFieldsFollowTheirRules : Obligations.DetectionFieldsFollowTheirRules := by
  intro P e j d hrep hd
  obtain ⟨hlen, rfl⟩ := getElem_detectionList_of_packetReport hrep hd
  have field (a n : Nat) (ha : a + n ≤ 28 := by decide) :
      memRead P (48 + 28 * j + a) n = .ok (Reference.rdW (8 * n) P (48 + 28 * j + a) n).toNat :=
    memRead_rdW (by omega) rfl
  exact ⟨field 0 2, scaleSpan_eq _ _, field 2 2, scaleSpan_toInt_eq _ _, field 4 2, scaleSpan_toInt_eq _ _,
    field 6 2, scaleSpan_toInt_eq _ _, field 8 2, scaleSpan_toInt_eq _ _, field 10 2, scaleSpan_toInt_eq _ _,
    field 12 2, scaleSpan_toInt_eq _ _, field 14 1, scaleProbability_eq _, field 15 1, scaleProbability_eq _,
    field 16 2, scaleSpan_eq _ _, field 18 2, scaleSpan_eq _ _, field 20 2, scaleAngleVariance_eq _,
    field 22 2, scaleAngleVariance_eq _, field 24 2, scaleAngleVariance_eq _, field 26 1, scaleProbability_eq _,
    field 27 1, rfl⟩

/-- Settles O26: the flag counts missing chunks, and none is missing where none is declared. -/
theorem countMismatchMeansMissingChunks : Obligations.CountMismatchMeansMissingChunks := by
  intro P e hrep
  refine ⟨?_, countMismatch_of_declared_zero⟩
  rw [Bool.eq_iff_iff, countMismatch_iff_of_packetReport hrep, decide_eq_true_iff]

/-- Settles O28: 28 bytes are a whole chunk, and its detection is evaluated. -/
theorem allZeroChunkDecodes : Obligations.AllZeroChunkDecodes :=
  ⟨chunkWireAt (List.replicate 28 0) 0, decodeChunkWire_of_le (by decide), by decide⟩

/-! ## The constant `TWO_PI` -/

theorem fValue_twoPi : fValue twoPi = 7074237752028440 / 2 ^ 50 := by
  exact_mod_cast fValue_of_parts (x := twoPi) (m := 7074237752028440) (k := 50) rfl rfl rfl rfl

/-- Settles O49: twenty decimals of π decide. -/
theorem twoPiIsNearestToTwoPi : Obligations.TwoPiIsNearestToTwoPi := by
  have lo := Real.pi_gt_d20
  have hi := Real.pi_lt_d20
  refine ⟨rfl, ?_⟩
  rw [fValue_twoPi, abs_lt]
  push_cast
  constructor <;> linarith

end Sys2Proof.Machine
end

section
/-! The scaled values of a Detection (O50, O52). Every formula is a quotient of integers, and for the spans a product after it.
Each rounding is off by one part in `2 ^ 52`, and rounding is monotone, so that the extreme raw values give the ranges. -/

namespace Sys2Proof.Machine

/-! ## Rounding is monotone -/

/-- Of two values the larger one is not farther from `x`: then `x` is at least half-way. -/
theorem add_le_of_abs_sub_le {r s x : ℚ} (hsr : s < r) (h : |r - x| ≤ |s - x|) : r + s ≤ 2 * x := by
  have := sq_le_sq.mpr h
  nlinarith

/-- Of two values the smaller one is not farther from `x`: then `x` is at most half-way. -/
theorem le_add_of_abs_sub_le {r s x : ℚ} (hsr : s < r) (h : |s - x| ≤ |r - x|) : 2 * x ≤ r + s := by
  have := sq_le_sq.mpr h
  nlinarith

theorem abs_fValue {x : F64} (h : fIsFinite x = true) : |fValue x| = magUnits (fMag x) / 2 ^ 1074 := by
  rw [fValue_eq_magUnits h, mul_div_assoc, abs_signOf_mul, abs_of_nonneg (by positivity)]

/-- The sign bit is not the last one. -/
theorem fMag_mod_two (x : F64) : fMag x % 2 = x.toNat % 2 := by
  rw [fMag]
  omega

/-- Between two even magnitudes there is another one. -/
theorem exists_abs_fValue_between {r s : F64} (hr : fIsFinite r = true) (hs : fIsFinite s = true)
    (hr2 : r.toNat % 2 = 0) (hs2 : s.toNat % 2 = 0) (hlt : |fValue s| < |fValue r|) (neg : Bool) :
    ∃ y, fIsFinite y = true ∧ ∃ q, fValue y = signOf neg * q ∧ |fValue s| < q ∧ q < |fValue r| := by
  have hc : (0 : ℚ) < 2 ^ 1074 := by positivity
  rw [abs_fValue hr, abs_fValue hs] at hlt ⊢
  generalize hC : (2 : ℚ) ^ 1074 = c at *
  rw [div_lt_div_iff_of_pos_right hc, Nat.cast_lt, magUnits_strictMono.lt_iff_lt] at hlt
  rw [← fMag_mod_two] at hr2 hs2
  have room : fMag s + 1 < fMag r := by omega
  have hmag : fMag s + 1 < infMag := room.trans ((fIsFinite_iff_fMag r).mp hr)
  refine ⟨fPack neg (fMag s + 1), (fIsFinite_fPack_iff neg).mpr hmag, magUnits (fMag s + 1) / c, ?_, ?_, ?_⟩
  · rw [fValue_fPack neg hmag, hC, mul_div_assoc]
  · rw [div_lt_div_iff_of_pos_right hc, Nat.cast_lt]
    exact magUnits_strictMono (Nat.lt_succ_self _)
  · rw [div_lt_div_iff_of_pos_right hc, Nat.cast_lt]
    exact magUnits_strictMono room

/-- Between the values of two even patterns there is another value. -/
theorem exists_fValue_between {r s : F64} (hr : fIsFinite r = true) (hs : fIsFinite s = true)
    (hr2 : r.toNat % 2 = 0) (hs2 : s.toNat % 2 = 0) (hlt : fValue s < fValue r) :
    ∃ y, fIsFinite y = true ∧ fValue s < fValue y ∧ fValue y < fValue r := by
  rcases le_or_gt 0 (fValue s) with hs0 | hs0
  · have hr0 := hs0.trans hlt.le
    obtain ⟨y, hy, q, hv, h1, h2⟩ := exists_abs_fValue_between hr hs hr2 hs2
      (by rwa [abs_of_nonneg hs0, abs_of_nonneg hr0]) false
    rw [abs_of_nonneg hs0] at h1
    rw [abs_of_nonneg hr0] at h2
    rw [signOf_false, one_mul] at hv
    exact ⟨y, hy, hv ▸ h1, hv ▸ h2⟩
  rcases le_or_gt (fValue r) 0 with hr0 | hr0
  · obtain ⟨y, hy, q, hv, h1, h2⟩ := exists_abs_fValue_between hs hr hs2 hr2
      (by rw [abs_of_nonpos hs0.le, abs_of_nonpos hr0]; linarith) true
    rw [abs_of_nonpos hr0] at h1
    rw [abs_of_nonpos hs0.le] at h2
    rw [signOf_true] at hv
    exact ⟨y, hy, by linarith, by linarith⟩
  · exact ⟨fZero false, fIsFinite_fZero false, by rwa [fValue_fZero], by rwa [fValue_fZero]⟩

/-- Rounding to nearest, ties to even, is monotone. -/
theorem NearestEven.mono {r s : F64} {x y : ℚ} (hr : NearestEven r x) (hs : NearestEven s y)
    (fr : fIsFinite r = true) (fs : fIsFinite s = true) (h : x ≤ y) : fValue r ≤ fValue s := by
  by_contra! hlt
  obtain ⟨-, nearest_r⟩ := hr
  obtain ⟨-, nearest_s⟩ := hs
  obtain ⟨r_near, r_even⟩ := nearest_r fr s fs
  obtain ⟨s_near, s_even⟩ := nearest_s fs r fr
  have below := add_le_of_abs_sub_le hlt r_near
  have above := le_add_of_abs_sub_le hlt s_near
  obtain rfl : x = y := by linarith
  have tie : |fValue r - x| = |fValue s - x| := le_antisymm r_near s_near
  obtain ⟨z, fz, hsz, hzr⟩ := exists_fValue_between fr fs (r_even tie hlt.ne) (s_even tie.symm hlt.ne') hlt
  obtain ⟨z_farther, -⟩ := nearest_r fr z fz
  have := add_le_of_abs_sub_le hzr z_farther
  linarith

/-! ## Values of moderate size -/

/-- Zero, or of a size between `2 ^ -n` and `2 ^ n`. -/
def Moderate (n : Nat) (x : ℚ) : Prop :=
  x ≠ 0 → 1 / 2 ^ n ≤ |x| ∧ |x| ≤ 2 ^ n

section
variable {m n : Nat} {x y : ℚ} {r : F64}

theorem Moderate.mul (hx : Moderate m x) (hy : Moderate n y) : Moderate (m + n) (x * y) := by
  intro h
  obtain ⟨hx0, hx1⟩ := hx (left_ne_zero_of_mul h)
  obtain ⟨hy0, hy1⟩ := hy (right_ne_zero_of_mul h)
  have smallest : (1 : ℚ) / (2 ^ m * 2 ^ n) = 1 / 2 ^ m * (1 / 2 ^ n) := by rw [div_mul_div_comm, one_mul]
  rw [abs_mul, pow_add, smallest]
  exact ⟨mul_le_mul hx0 hy0 (by positivity) (abs_nonneg _), mul_le_mul hx1 hy1 (abs_nonneg _) (by positivity)⟩

theorem Moderate.div (hx : Moderate m x) (hy : Moderate n y) : Moderate (m + n) (x / y) := by
  rw [div_eq_mul_inv]
  refine hx.mul fun h => ?_
  have hy0 : y ≠ 0 := fun e => h (by rw [e, inv_zero])
  obtain ⟨lo, hi⟩ := hy hy0
  rw [abs_inv, ← one_div]
  exact ⟨one_div_le_one_div_of_le (abs_pos.mpr hy0) hi, (one_div_le (abs_pos.mpr hy0) (by positivity)).mpr lo⟩

/-- An integer that is not 0 is at least 1 in size. -/
theorem moderate_intCast {v : Int} (h : |v| ≤ 2 ^ n) : Moderate n v := by
  intro h0
  have one_le : (1 : ℚ) ≤ |(v : ℚ)| := by exact_mod_cast Int.one_le_abs (Int.cast_ne_zero.mp h0)
  refine ⟨(div_le_one (by positivity)).mpr (one_le_pow₀ one_le_two) |>.trans one_le, ?_⟩
  exact_mod_cast h

/-- Rounding changes the size by less than a factor of 2. -/
theorem RoundedTo.moderate (h : RoundedTo r x) (hx : Moderate n x) : Moderate (n + 1) (fValue r) := by
  intro h0
  obtain ⟨lo, hi⟩ := h.abs_bounds
  have hx0 : x ≠ 0 := by
    rintro rfl
    rw [abs_zero, mul_zero] at hi
    exact h0 (abs_nonpos_iff.mp hi)
  obtain ⟨hx1, hx2⟩ := hx hx0
  rw [pow_succ, ← div_div]
  constructor <;> linarith

theorem RoundedTo.ne_zero (h : RoundedTo r x) (hx : x ≠ 0) : fValue r ≠ 0 := by
  obtain ⟨lo, -⟩ := h.abs_bounds
  have := abs_pos.mpr hx
  exact abs_pos.mp (by linarith)

/-- The nearest value to one of moderate size is off by its rounding alone. -/
theorem NearestEven.roundedTo_of_moderate (h : NearestEven r x) (hx : Moderate n x) (hn : n ≤ 52) : RoundedTo r x := by
  refine h.roundedTo fun h0 => ?_
  obtain ⟨lo, hi⟩ := hx h0
  refine inNormalRange_of_le (le_trans ?_ lo) (hi.trans (pow_le_pow_right₀ one_le_two hn))
  exact one_div_le_one_div_of_le (by positivity) (pow_le_pow_right₀ one_le_two (by omega))

end

/-! ## Normal numbers and ranges -/

/-- A positive zero, or neither zero, subnormal, infinite nor NaN (R287). -/
def Ordinary (x : F64) : Prop :=
  x = 0 ∨ (fExpField x ≠ 0 ∧ fExpField x ≠ 2047)

/-- An ordinary value between the values of two patterns. -/
def InRange (lo hi x : F64) : Prop :=
  Ordinary x ∧ fValue lo ≤ fValue x ∧ fValue x ≤ fValue hi

/-- The subnormal numbers are small. -/
theorem abs_fValue_lt_of_fExpField_zero {x : F64} (h : fExpField x = 0) : |fValue x| < 1 / 2 ^ 1022 := by
  have hfin : fIsFinite x = true := by rw [fIsFinite, h]; rfl
  have frac : (fFrac x : ℚ) < 2 ^ 52 := by exact_mod_cast Nat.mod_lt x.toNat (by positivity : 0 < 2 ^ 52)
  have unit : (2 : ℚ) ^ 1074 = 2 ^ 1022 * 2 ^ 52 := by rw [← pow_add]
  rw [abs_fValue hfin, ← fSig_mul_pow, fSig, if_pos h, fScale, h, Nat.zero_sub, pow_zero, mul_one, unit,
    div_lt_div_iff₀ (by positivity) (by positivity), one_mul, mul_comm]
  exact mul_lt_mul_of_pos_left frac (by positivity)

/-- A rounded value that is not 0 is a normal number. -/
theorem RoundedTo.ordinary {r : F64} {x : ℚ} {n : Nat} (h : RoundedTo r x) (hx : Moderate n x) (h0 : x ≠ 0)
    (hn : n ≤ 52) : Ordinary r := by
  refine .inr ⟨fun hsub => ?_, bne_iff_ne.mp h.1⟩
  obtain ⟨lo, -⟩ := h.moderate hx (h.ne_zero h0)
  have tiny := abs_fValue_lt_of_fExpField_zero hsub
  refine absurd (lo.trans_lt tiny) (not_lt.mpr ?_)
  exact one_div_le_one_div_of_le (by positivity) (pow_le_pow_right₀ one_le_two (by omega))

/-! ## Quotients of integers -/

/-- A finite pattern whose value is the integer `v`, of 16 bits and a sign. -/
structure IsInt (a : F64) (v : Int) : Prop where
  finite : fIsFinite a = true
  value : fValue a = v
  small : |v| ≤ 2 ^ 16

theorem toF_isInt {v : Int} (h : |v| ≤ 2 ^ 16) : IsInt (toF v) v := by
  obtain ⟨hfin, hval⟩ := integersConvertExactly v (by rw [Int.abs_eq_natAbs] at h; omega)
  exact ⟨hfin, hval, h⟩

/-- The sum of two small integers is exact. -/
theorem fadd_isInt {a b : F64} {v w : Int} (ha : IsInt a v) (hb : IsInt b w) (h : |v + w| ≤ 2 ^ 16) :
    IsInt (fadd a b) (v + w) := by
  have sum := toF_isInt h
  have nearest := fadd_nearestEven ha.finite hb.finite
  rw [ha.value, hb.value, ← Int.cast_add, ← sum.value] at nearest
  obtain ⟨hfin, hval⟩ := nearest.exact sum.finite
  exact ⟨hfin, hval.trans sum.value, h⟩

section
variable {a b : F64} {v n : Int}

theorem moderate_intQuotient (ha : IsInt a v) (hb : IsInt b n) : Moderate 32 ((v : ℚ) / n) :=
  (moderate_intCast (n := 16) ha.small).div (moderate_intCast hb.small)

theorem intQuotient_nearestEven (ha : IsInt a v) (hb : IsInt b n) (hn : 0 < n) :
    NearestEven (fdiv a b) ((v : ℚ) / n) := by
  rw [← ha.value, ← hb.value]
  exact fdiv_nearestEven ha.finite hb.finite (by rw [hb.value]; exact_mod_cast hn.ne')

theorem intQuotient_roundedTo (ha : IsInt a v) (hb : IsInt b n) (hn : 0 < n) :
    RoundedTo (fdiv a b) ((v : ℚ) / n) :=
  (intQuotient_nearestEven ha hb hn).roundedTo_of_moderate (moderate_intQuotient ha hb) (by decide)

/-- A larger dividend gives no smaller quotient. -/
theorem intQuotient_mono {c : F64} {w : Int} (ha : IsInt a v) (hc : IsInt c w) (hb : IsInt b n) (hn : 0 < n)
    (h : v ≤ w) : fValue (fdiv a b) ≤ fValue (fdiv c b) := by
  obtain ⟨fa, -⟩ := intQuotient_roundedTo ha hb hn
  obtain ⟨fc, -⟩ := intQuotient_roundedTo hc hb hn
  refine (intQuotient_nearestEven ha hb hn).mono (intQuotient_nearestEven hc hb hn) fa fc ?_
  exact div_le_div_of_nonneg_right (by exact_mod_cast h) (by exact_mod_cast hn.le)

/-- A quotient of integers is ordinary; a dividend of 0 is looked at by itself. -/
theorem intQuotient_ordinary (ha : IsInt a v) (hb : IsInt b n) (hn : 0 < n) (hzero : v = 0 → fdiv a b = 0) :
    Ordinary (fdiv a b) := by
  rcases eq_or_ne v 0 with h0 | h0
  · exact .inl (hzero h0)
  · refine (intQuotient_roundedTo ha hb hn).ordinary (moderate_intQuotient ha hb) ?_ (by decide)
    exact div_ne_zero (by exact_mod_cast h0) (by exact_mod_cast hn.ne')

end

/-! ## A quotient times a span -/

theorem k65534_isInt : IsInt k65534 65534 := k65534_eq_toF ▸ toF_isInt (by decide)

theorem k254_isInt : IsInt k254 254 := k254_eq_toF ▸ toF_isInt (by decide)

/-- A finite constant between 1 and 512: the spans of R264 to R276. -/
structure IsSpan (k : F64) : Prop where
  finite : fIsFinite k = true
  one_le : 1 ≤ fValue k
  le : fValue k ≤ 2 ^ 9

theorem IsSpan.pos {k : F64} (hk : IsSpan k) : 0 < fValue k := one_pos.trans_le hk.one_le

theorem IsSpan.moderate {k : F64} (hk : IsSpan k) : Moderate 9 (fValue k) := by
  intro _
  rw [abs_of_pos hk.pos]
  exact ⟨le_trans (by norm_num) hk.one_le, hk.le⟩

theorem toF_isSpan {v : Int} (h1 : 1 ≤ v) (h2 : v ≤ 2 ^ 9) : IsSpan (toF v) := by
  have hv : IsInt (toF v) v := toF_isInt (by rw [abs_of_pos h1]; omega)
  refine ⟨hv.finite, ?_, ?_⟩ <;> rw [hv.value]
  · exact_mod_cast h1
  · exact_mod_cast h2

theorem k300_isSpan : IsSpan k300 := toF_isSpan (by decide) (by decide)

theorem k200_isSpan : IsSpan k200 := toF_isSpan (by decide) (by decide)

theorem k10_isSpan : IsSpan k10 := toF_isSpan (by decide) (by decide)

theorem twoPi_isSpan : IsSpan twoPi := by
  refine ⟨rfl, ?_, ?_⟩ <;> norm_num [fValue_twoPi]

theorem fValue_k300 : fValue k300 = 300 := mod_cast (integersConvertExactly 300 (by decide)).2

theorem fValue_k200 : fValue k200 = 200 := mod_cast (integersConvertExactly 200 (by decide)).2

theorem fValue_k10 : fValue k10 = 10 := mod_cast (integersConvertExactly 10 (by decide)).2

/-- `raw/65534.0`, the first operation of R264 to R279. -/
def spanQuotient (raw : Int) : F64 := fdiv (toF raw) k65534

theorem scaleSpan_eq_fmul (raw : Int) (k : F64) : scaleSpan raw k = fmul (spanQuotient raw) k := rfl

theorem scaleAngleVariance_eq_spanQuotient (raw : U16) : scaleAngleVariance raw = spanQuotient raw.toNat := rfl

section
variable {v w : Int} {k : F64}

theorem spanQuotient_roundedTo (hv : |v| ≤ 2 ^ 16) : RoundedTo (spanQuotient v) ((v : ℚ) / 65534) :=
  intQuotient_roundedTo (toF_isInt hv) k65534_isInt (by decide)

theorem spanQuotient_moderate (hv : |v| ≤ 2 ^ 16) : Moderate 33 (fValue (spanQuotient v)) :=
  (spanQuotient_roundedTo hv).moderate (moderate_intQuotient (toF_isInt hv) k65534_isInt)

theorem scaleSpan_nearestEven (hv : |v| ≤ 2 ^ 16) (hk : IsSpan k) :
    NearestEven (scaleSpan v k) (fValue (spanQuotient v) * fValue k) := by
  obtain ⟨fq, -⟩ := spanQuotient_roundedTo hv
  rw [scaleSpan_eq_fmul]
  exact fmul_nearestEven fq hk.finite

theorem scaleSpan_roundedTo (hv : |v| ≤ 2 ^ 16) (hk : IsSpan k) :
    RoundedTo (scaleSpan v k) (fValue (spanQuotient v) * fValue k) :=
  (scaleSpan_nearestEven hv hk).roundedTo_of_moderate ((spanQuotient_moderate hv).mul hk.moderate) (by decide)

/-- Two roundings are within the document's tolerance (D7). -/
theorem scaleSpan_withinTolerance (hv : |v| ≤ 2 ^ 16) (hk : IsSpan k) :
    WithinTolerance (scaleSpan v k) ((v : ℚ) / 65534 * fValue k) := by
  obtain ⟨-, quotient⟩ := spanQuotient_roundedTo hv
  obtain ⟨hfin, product⟩ := scaleSpan_roundedTo hv hk
  obtain ⟨-, size⟩ := (spanQuotient_roundedTo hv).abs_bounds
  refine ⟨hfin, ?_⟩
  generalize (v : ℚ) / 65534 = x at *
  generalize fValue (spanQuotient v) = q at *
  generalize fValue k = s at *
  rw [abs_mul] at product
  calc |fValue (scaleSpan v k) - x * s|
      = |(fValue (scaleSpan v k) - q * s) + (q - x) * s| := by ring_nf
    _ ≤ |q| * |s| / 2 ^ 52 + |q - x| * |s| := by
      rw [← abs_mul (q - x)]
      exact (abs_add_le _ _).trans (add_le_add_left product _)
    _ ≤ 2 * |x| * |s| / 2 ^ 52 + |x| / 2 ^ 52 * |s| := by gcongr
    _ = |x * s| * (3 / 2 ^ 52) := by rw [abs_mul]; ring
    _ ≤ |x * s| * (1 / 10 ^ 9) := mul_le_mul_of_nonneg_left (by norm_num) (abs_nonneg _)
    _ = |x * s| / 10 ^ 9 := mul_one_div _ _

/-- A larger raw value gives no smaller scaled one. -/
theorem scaleSpan_mono (hv : |v| ≤ 2 ^ 16) (hw : |w| ≤ 2 ^ 16) (hk : IsSpan k) (h : v ≤ w) :
    fValue (scaleSpan v k) ≤ fValue (scaleSpan w k) := by
  obtain ⟨fv, -⟩ := scaleSpan_roundedTo hv hk
  obtain ⟨fw, -⟩ := scaleSpan_roundedTo hw hk
  have quotients : fValue (spanQuotient v) ≤ fValue (spanQuotient w) :=
    intQuotient_mono (toF_isInt hv) (toF_isInt hw) k65534_isInt (by decide) h
  refine (scaleSpan_nearestEven hv hk).mono (scaleSpan_nearestEven hw hk) fv fw ?_
  exact mul_le_mul_of_nonneg_right quotients hk.pos.le

theorem scaleSpan_ordinary (hv : |v| ≤ 2 ^ 16) (hk : IsSpan k) (hzero : scaleSpan 0 k = 0) :
    Ordinary (scaleSpan v k) := by
  rcases eq_or_ne v 0 with rfl | h0
  · exact .inl hzero
  · have quotient : fValue (spanQuotient v) ≠ 0 :=
      (spanQuotient_roundedTo hv).ne_zero (div_ne_zero (by exact_mod_cast h0) (by norm_num))
    exact (scaleSpan_roundedTo hv hk).ordinary ((spanQuotient_moderate hv).mul hk.moderate)
      (mul_ne_zero quotient hk.pos.ne') (by decide)

end

/-! ## The raw values -/

theorem abs_toNat_le {w : Nat} (raw : BitVec w) (hw : w ≤ 16 := by decide) : |(raw.toNat : Int)| ≤ 2 ^ 16 := by
  have lt : raw.toNat < 2 ^ w := raw.isLt
  have := Nat.pow_le_pow_right (by decide : 0 < 2) hw
  rw [abs_of_nonneg (by positivity)]
  exact_mod_cast (lt.le.trans this)

theorem s16_bounds (raw : I16) : -32768 ≤ s16 raw ∧ s16 raw ≤ 32767 := by
  rw [s16_eq_toInt]
  have lo := BitVec.le_toInt raw
  have hi := BitVec.toInt_lt (x := raw)
  omega

theorem abs_s16_le (raw : I16) : |s16 raw| ≤ 2 ^ 16 := by
  have := s16_bounds raw
  rw [abs_le]
  omega

theorem k110_isInt : IsInt k110 110 := toF_isInt (by decide)

theorem k10_isInt : IsInt k10 10 := toF_isInt (by decide)

/-- The dividend of R282 is exact. -/
theorem snrSum_isInt (raw : U8) : IsInt (fadd (toF raw.toNat) k110) (raw.toNat + 110) := by
  have lt : raw.toNat < 2 ^ 8 := raw.isLt
  exact fadd_isInt (toF_isInt (abs_toNat_le raw)) k110_isInt (by rw [abs_of_nonneg (by positivity)]; omega)

/-! ## Tolerance -/

section
variable {k : F64} {x : ℚ}

theorem scaleSpan_toNat_withinTolerance (raw : U16) (hk : IsSpan k) (hx : fValue k = x) :
    WithinTolerance (scaleSpan raw.toNat k) ((raw.toNat : ℚ) / 65534 * x) :=
  hx ▸ scaleSpan_withinTolerance (abs_toNat_le raw) hk

theorem scaleSpan_s16_withinTolerance (raw : I16) (hk : IsSpan k) (hx : fValue k = x) :
    WithinTolerance (scaleSpan (s16 raw) k) ((raw.toInt : ℚ) / 65534 * x) := by
  rw [← s16_eq_toInt, ← hx]
  exact scaleSpan_withinTolerance (abs_s16_le raw) hk

end

/-- One rounding is within the document's tolerance (D7). -/
theorem RoundedTo.withinTolerance {r : F64} {x : ℚ} (h : RoundedTo r x) : WithinTolerance r x := by
  obtain ⟨hfin, herr⟩ := h
  refine ⟨hfin, herr.trans ?_⟩
  exact div_le_div_of_nonneg_left (abs_nonneg x) (by positivity) (by norm_num)

theorem scaleProbability_withinTolerance (raw : U8) : WithinTolerance (scaleProbability raw) ((raw.toNat : ℚ) / 254) :=
  (intQuotient_roundedTo (toF_isInt (abs_toNat_le raw)) k254_isInt (by decide)).withinTolerance

theorem scaleAngleVariance_withinTolerance (raw : U16) :
    WithinTolerance (scaleAngleVariance raw) ((raw.toNat : ℚ) / 65534) := by
  rw [scaleAngleVariance_eq_spanQuotient]
  exact (spanQuotient_roundedTo (abs_toNat_le raw)).withinTolerance

theorem scaleSnr_withinTolerance (raw : U8) : WithinTolerance (scaleSnr raw) (((raw.toNat : ℚ) + 110) / 10) := by
  have key := (intQuotient_roundedTo (snrSum_isInt raw) k10_isInt (by decide)).withinTolerance
  rwa [Int.cast_add, Int.cast_natCast, Int.cast_ofNat, Int.cast_ofNat] at key

/-- Settles O50: every formula is one of the four scalings, each within the tolerance. -/
theorem detectionValuesAreWithinTolerance : Obligations.DetectionValuesAreWithinTolerance :=
  fun _ =>
    ⟨scaleSpan_toNat_withinTolerance _ k300_isSpan fValue_k300, scaleSpan_s16_withinTolerance _ k300_isSpan fValue_k300,
      scaleSpan_s16_withinTolerance _ twoPi_isSpan rfl, scaleSpan_s16_withinTolerance _ twoPi_isSpan rfl,
      scaleSpan_s16_withinTolerance _ twoPi_isSpan rfl, scaleSpan_s16_withinTolerance _ k200_isSpan fValue_k200,
      scaleSpan_s16_withinTolerance _ k200_isSpan fValue_k200, scaleProbability_withinTolerance _,
      scaleProbability_withinTolerance _, scaleSpan_toNat_withinTolerance _ k10_isSpan fValue_k10,
      scaleSpan_toNat_withinTolerance _ k10_isSpan fValue_k10, scaleAngleVariance_withinTolerance _,
      scaleAngleVariance_withinTolerance _, scaleAngleVariance_withinTolerance _, scaleProbability_withinTolerance _,
      scaleSnr_withinTolerance _⟩

/-! ## Ranges -/

section
variable {k lo hi : F64} {v vlo vhi : Int}

/-- A span lies between those of a smaller and a larger raw value. -/
theorem scaleSpan_inRange (hk : IsSpan k) (hzero : scaleSpan 0 k = 0) (hv : |v| ≤ 2 ^ 16) (hlo : |vlo| ≤ 2 ^ 16)
    (hhi : |vhi| ≤ 2 ^ 16) (ge : vlo ≤ v) (le : v ≤ vhi) (elo : scaleSpan vlo k = lo) (ehi : scaleSpan vhi k = hi) :
    InRange lo hi (scaleSpan v k) :=
  ⟨scaleSpan_ordinary hv hk hzero, elo ▸ scaleSpan_mono hlo hv hk ge, ehi ▸ scaleSpan_mono hv hhi hk le⟩

/-- The unsigned spans: from the value of raw 0 to that of raw 65535. -/
theorem scaleSpan_toNat_inRange (raw : U16) (hk : IsSpan k) (hzero : scaleSpan 0 k = 0) (hhi : scaleSpan 65535 k = hi) :
    InRange 0 hi (scaleSpan raw.toNat k) := by
  have lt : raw.toNat < 2 ^ 16 := raw.isLt
  exact scaleSpan_inRange hk hzero (abs_toNat_le raw) (by decide) (by decide) (Int.natCast_nonneg _) (by omega) hzero hhi

/-- The signed spans: from the value of raw -32768 to that of raw 32767. -/
theorem scaleSpan_s16_inRange (raw : I16) (hk : IsSpan k) (hzero : scaleSpan 0 k = 0)
    (hlo : scaleSpan (-32768) k = lo) (hhi : scaleSpan 32767 k = hi) : InRange lo hi (scaleSpan (s16 raw) k) := by
  obtain ⟨ge, le⟩ := s16_bounds raw
  exact scaleSpan_inRange hk hzero (abs_s16_le raw) (by decide) (by decide) ge le hlo hhi

end

theorem scaleSpan_zero_k300 : scaleSpan 0 k300 = 0 := by decide

theorem scaleSpan_zero_k200 : scaleSpan 0 k200 = 0 := by decide

theorem scaleSpan_zero_k10 : scaleSpan 0 k10 = 0 := by decide

theorem scaleSpan_zero_twoPi : scaleSpan 0 twoPi = 0 := by decide

theorem range_inRange (raw : U16) : InRange 0 0x4072C012C025804B (scaleSpan raw.toNat k300) :=
  scaleSpan_toNat_inRange raw k300_isSpan scaleSpan_zero_k300 (by decide)

theorem velocity_inRange (raw : I16) : InRange 0xC062C025804B0096 0x4062C00000000000 (scaleSpan (s16 raw) k300) :=
  scaleSpan_s16_inRange raw k300_isSpan scaleSpan_zero_k300 (by decide) (by decide)

theorem angle_inRange (raw : I16) : InRange 0xC009222D989F5E57 0x400921FB54442D18 (scaleSpan (s16 raw) twoPi) :=
  scaleSpan_s16_inRange raw twoPi_isSpan scaleSpan_zero_twoPi (by decide) (by decide)

theorem crossSection_inRange (raw : I16) : InRange 0xC0590032006400C8 0x4059000000000000 (scaleSpan (s16 raw) k200) :=
  scaleSpan_s16_inRange raw k200_isSpan scaleSpan_zero_k200 (by decide) (by decide)

theorem variance_inRange (raw : U16) : InRange 0 0x4024001400280050 (scaleSpan raw.toNat k10) :=
  scaleSpan_toNat_inRange raw k10_isSpan scaleSpan_zero_k10 (by decide)

section
variable {a b alo ahi lo hi : F64} {v vlo vhi n : Int}

/-- A quotient of integers lies between those of a smaller and a larger dividend. -/
theorem intQuotient_inRange (ha : IsInt a v) (hb : IsInt b n) (hn : 0 < n) (hzero : v = 0 → fdiv a b = 0)
    (hlo : IsInt alo vlo) (hhi : IsInt ahi vhi) (ge : vlo ≤ v) (le : v ≤ vhi) (elo : fdiv alo b = lo)
    (ehi : fdiv ahi b = hi) : InRange lo hi (fdiv a b) :=
  ⟨intQuotient_ordinary ha hb hn hzero, elo ▸ intQuotient_mono hlo ha hb hn ge, ehi ▸ intQuotient_mono ha hhi hb hn le⟩

end

theorem scaleProbability_inRange (raw : U8) : InRange 0 0x3FF0102040810204 (scaleProbability raw) := by
  have lt : raw.toNat < 2 ^ 8 := raw.isLt
  have zero : fdiv (toF 0) k254 = 0 := by decide
  exact intQuotient_inRange (toF_isInt (abs_toNat_le raw)) k254_isInt (by decide) (fun h => by rw [h, zero])
    (toF_isInt (v := 0) (by decide)) (toF_isInt (v := 255) (by decide)) (Int.natCast_nonneg _) (by omega) zero (by decide)

theorem scaleAngleVariance_inRange (raw : U16) : InRange 0 0x3FF0001000200040 (scaleAngleVariance raw) := by
  have lt : raw.toNat < 2 ^ 16 := raw.isLt
  have zero : fdiv (toF 0) k65534 = 0 := by decide
  exact intQuotient_inRange (toF_isInt (abs_toNat_le raw)) k65534_isInt (by decide) (fun h => by rw [h, zero])
    (toF_isInt (v := 0) (by decide)) (toF_isInt (v := 65535) (by decide)) (Int.natCast_nonneg _) (by omega) zero
    (by decide)

theorem scaleSnr_inRange (raw : U8) : InRange 0x4026000000000000 0x4042400000000000 (scaleSnr raw) := by
  have lt : raw.toNat < 2 ^ 8 := raw.isLt
  exact intQuotient_inRange (snrSum_isInt raw) k10_isInt (by decide) (fun h => by omega)
    (toF_isInt (v := 110) (by decide)) (toF_isInt (v := 365) (by decide)) (by omega) (by omega) (by decide) (by decide)

/-- Settles O52: each field is one of the scalings, whose ranges end at the extreme raw values. -/
theorem detectionRangesHold : Obligations.DetectionRangesHold :=
  fun _ =>
    ⟨range_inRange _, velocity_inRange _, angle_inRange _, angle_inRange _, angle_inRange _, crossSection_inRange _,
      crossSection_inRange _, scaleProbability_inRange _, scaleProbability_inRange _, scaleProbability_inRange _,
      variance_inRange _, variance_inRange _, scaleAngleVariance_inRange _, scaleAngleVariance_inRange _,
      scaleAngleVariance_inRange _, scaleSnr_inRange _⟩

end Sys2Proof.Machine
end

section
/-! The batches of a category (O54, O40, O41): what the arrival of a report makes of the batches flushed and held, one report
at a time and then over a stream. -/

namespace Sys2Proof.Machine

/-! ## What a category absorbs, row by row of R317 -/

section
variable {cfg : Cfg} {v : Buf × List (U32 × List EventReport)} {e : EventReport} {ts : U32} {list : List EventReport}

theorem absorb_of_immediate (hm : cfg.emitMode = .immediate) : absorb cfg v e = v := by
  simp only [absorb, hm]

theorem absorb_of_empty (hm : cfg.emitMode = .aggregated) (hv : v.1 = .empty) :
    absorb cfg v e = (.holding e.timestamp [e], v.2) := by
  simp only [absorb, hm, hv]

theorem absorb_of_room (hm : cfg.emitMode = .aggregated) (hv : v.1 = .holding e.timestamp list)
    (hr : limitReached cfg.batchCap list.length = false) :
    absorb cfg v e = (.holding e.timestamp (list ++ [e]), v.2) := by
  simp only [absorb, hm, hv, hr, if_true, Bool.false_eq_true, if_false]

theorem absorb_of_full (hm : cfg.emitMode = .aggregated) (hv : v.1 = .holding e.timestamp list)
    (hr : limitReached cfg.batchCap list.length = true) : absorb cfg v e = v := by
  simp only [absorb, hm, hv, hr, if_true]

theorem absorb_of_other (hm : cfg.emitMode = .aggregated) (hv : v.1 = .holding ts list) (ht : e.timestamp ≠ ts) :
    absorb cfg v e = (.holding e.timestamp [e], v.2 ++ [(ts, list)]) := by
  simp only [absorb, hm, hv, if_neg ht]

end

/-! ## Without a capacity: a batch is extended or started -/

/-- The batches of a category's part of a state, the flushed ones first and the held one last. -/
def batchesOf (v : Buf × List (U32 × List EventReport)) : List (U32 × List EventReport) :=
  v.2 ++ heldBatch v.1

theorem allBatches_eq_batchesOf (b : Category) (s : State) : allBatches b s = batchesOf (s.view b) := rfl

theorem limitReached_of_unbounded {cap : Limit} (hcap : cap = .unbounded) (k : Nat) : limitReached cap k = false := by
  rw [hcap, limitReached]

section
variable {cfg : Cfg} {e : EventReport} {list : List EventReport}

/-- A report with the held timestamp extends the held batch (R303). -/
theorem batchesOf_absorb_of_same (hm : cfg.emitMode = .aggregated) (hcap : cfg.batchCap = .unbounded)
    {v : Buf × List (U32 × List EventReport)} (hv : v.1 = .holding e.timestamp list) :
    batchesOf (absorb cfg v e) = v.2 ++ [(e.timestamp, list ++ [e])] := by
  rw [absorb_of_room hm hv (limitReached_of_unbounded hcap _)]
  rfl

/-- Any other report starts a batch, after the held one if there is one (R302, R305). -/
theorem batchesOf_absorb_of_new (hm : cfg.emitMode = .aggregated) {v : Buf × List (U32 × List EventReport)}
    (hv : ∀ list, v.1 ≠ .holding e.timestamp list) :
    batchesOf (absorb cfg v e) = batchesOf v ++ [(e.timestamp, [e])] := by
  obtain ⟨buf, flushed⟩ := v
  cases buf with
  | empty =>
    rw [absorb_of_empty hm rfl]
    simp only [batchesOf, heldBatch, List.append_nil]
  | holding ts list =>
    have ht : e.timestamp ≠ ts := fun h => hv list (by rw [h])
    rw [absorb_of_other hm rfl ht]
    rfl

/-- Either way the report comes once, after all the others (R312). -/
theorem flatMap_batchesOf_absorb (hm : cfg.emitMode = .aggregated) (hcap : cfg.batchCap = .unbounded)
    (v : Buf × List (U32 × List EventReport)) :
    (batchesOf (absorb cfg v e)).flatMap Prod.snd = (batchesOf v).flatMap Prod.snd ++ [e] := by
  by_cases hv : ∃ list, v.1 = .holding e.timestamp list
  · obtain ⟨list, hv⟩ := hv
    rw [batchesOf_absorb_of_same hm hcap hv, batchesOf, hv]
    simp [heldBatch]
  · rw [batchesOf_absorb_of_new hm (not_exists.mp hv)]
    simp

theorem flatMap_batchesOf_foldl_absorb (hm : cfg.emitMode = .aggregated) (hcap : cfg.batchCap = .unbounded)
    (es : List EventReport) (v : Buf × List (U32 × List EventReport)) :
    (batchesOf (es.foldl (absorb cfg) v)).flatMap Prod.snd = (batchesOf v).flatMap Prod.snd ++ es := by
  induction es generalizing v with
  | nil => rw [List.foldl_nil, List.append_nil]
  | cons e es ih =>
    rw [List.foldl_cons, ih, flatMap_batchesOf_absorb hm hcap, List.append_assoc, List.singleton_append]

end

/-- Settles O54: the category absorbs the packet's reports of that category, which are none or the one report. -/
theorem oneStepExtendsOrStartsABatch : Obligations.OneStepExtendsOrStartsABatch := by
  intro s P rest b hp hlim hm hcap
  have hstep := step_eq_afterAnswer hp hlim
  have hview := view_step_packet b hp hstep
  refine ⟨_, hstep, fun hnone => ?_, ?_⟩
  · rw [allBatches_eq_batchesOf, hview, hnone, List.foldl_nil, allBatches_eq_batchesOf]
  · rintro e hrep rfl
    rw [arrivals_singleton_self hrep, List.foldl_cons, List.foldl_nil] at hview
    rw [allBatches_eq_batchesOf, hview]
    exact ⟨fun list hbuf => batchesOf_absorb_of_same hm hcap hbuf, fun hbuf => batchesOf_absorb_of_new hm hbuf⟩

/-! ## Streams -/

/-- On a port without a bound every stream is run to its end (R72, R340). -/
theorem runStream_completes {s : State} (hmax : s.cfg.maxPktLen = .unbounded) (ps : List Packet) :
    ∃ s', runStream s ps = .next s' := by
  induction ps generalizing s with
  | nil => exact ⟨_, runStream_nil s⟩
  | cons P ps ih =>
    have hlim : limitAdmits (s.withStream (P :: ps)).cfg.maxPktLen P.length = true := by
      rw [State.withStream, withPending_cfg, hmax, limitAdmits]
    have hstep := step_eq_afterAnswer (s := s.withStream (P :: ps)) (rest := ps.map .packet) rfl hlim
    obtain ⟨hcfg, hpending⟩ := step_packet_cfg_pktIn rfl hstep
    rw [runStream_cons hstep hpending]
    exact ih (by rw [hcfg, State.withStream, withPending_cfg, hmax])

/-- Settles O40: over the stream, each category absorbs its arrivals, each of which comes once at the end. -/
theorem noReportIsDroppedOrDuplicated : Obligations.NoReportIsDroppedOrDuplicated := by
  intro s ps hm hcap hmax
  obtain ⟨s', hrun⟩ := runStream_completes hmax ps
  refine ⟨s', hrun, fun b => ?_⟩
  rw [accounted, allBatches_eq_batchesOf, view_runStream b hrun, flatMap_batchesOf_foldl_absorb hm hcap]
  rfl

/-! ## Maximal runs -/

/-- Runs with a run before them, which is one with the first of them when both have the same timestamp. It is one step of
`timestampRuns`, for a run in place of a report: `timestampRuns_cons`. -/
def joinRun (ts : U32) (run : List EventReport) : List (U32 × List EventReport) → List (U32 × List EventReport)
  | [] => [(ts, run)]
  | (ts', run') :: runs => if ts = ts' then (ts, run ++ run') :: runs else (ts, run) :: (ts', run') :: runs

theorem timestampRuns_cons (e : EventReport) (es : List EventReport) :
    timestampRuns (e :: es) = joinRun e.timestamp [e] (timestampRuns es) := by
  rw [timestampRuns]
  cases timestampRuns es with
  | nil => rfl
  | cons first runs =>
    obtain ⟨ts, run⟩ := first
    by_cases ht : e.timestamp = ts
    · subst ht
      simp only [joinRun, if_true, List.singleton_append]
    · simp only [joinRun, if_neg ht]

section
variable {ts ts' : U32} (run run' : List EventReport) (runs : List (U32 × List EventReport))

theorem joinRun_joinRun_same : joinRun ts run (joinRun ts run' runs) = joinRun ts (run ++ run') runs := by
  cases runs with
  | nil => simp only [joinRun, if_true]
  | cons first runs =>
    obtain ⟨ts₁, run₁⟩ := first
    by_cases h : ts = ts₁
    · simp only [joinRun, if_pos h, if_true, List.append_assoc]
    · simp only [joinRun, if_neg h, if_true]

theorem joinRun_joinRun_ne (h : ts ≠ ts') :
    joinRun ts run (joinRun ts' run' runs) = (ts, run) :: joinRun ts' run' runs := by
  cases runs with
  | nil => simp only [joinRun, if_neg h]
  | cons first runs =>
    obtain ⟨ts₁, run₁⟩ := first
    by_cases h₁ : ts' = ts₁
    · simp only [joinRun, if_pos h₁, if_neg h]
    · simp only [joinRun, if_neg h₁, if_neg h]

end

section
variable {cfg : Cfg}

/-- A held batch is the beginning of a run: what arrives first extends it or leaves it whole (R303, R305). -/
theorem batchesOf_foldl_absorb_holding (hm : cfg.emitMode = .aggregated) (hcap : cfg.batchCap = .unbounded)
    (es : List EventReport) (ts : U32) (list : List EventReport) (flushed : List (U32 × List EventReport)) :
    batchesOf (es.foldl (absorb cfg) (.holding ts list, flushed)) = flushed ++ joinRun ts list (timestampRuns es) := by
  induction es generalizing ts list flushed with
  | nil => rfl
  | cons e es ih =>
    rw [List.foldl_cons, timestampRuns_cons]
    by_cases ht : e.timestamp = ts
    · subst ht
      rw [absorb_of_room hm rfl (limitReached_of_unbounded hcap _), ih, joinRun_joinRun_same]
    · rw [absorb_of_other hm rfl ht, ih, joinRun_joinRun_ne _ _ _ (Ne.symm ht), List.append_assoc, List.singleton_append]

/-- From an empty buffer the first report begins the first run (R302). -/
theorem batchesOf_foldl_absorb_empty (hm : cfg.emitMode = .aggregated) (hcap : cfg.batchCap = .unbounded)
    (es : List EventReport) : batchesOf (es.foldl (absorb cfg) (.empty, [])) = timestampRuns es := by
  cases es with
  | nil => rfl
  | cons e es =>
    rw [List.foldl_cons, absorb_of_empty hm rfl, batchesOf_foldl_absorb_holding hm hcap, timestampRuns_cons,
      List.nil_append]

end

theorem view_boot (cfg : Cfg) (b : Category) : (State.boot cfg).view b = (.empty, []) := by
  rw [State.view, boot_buf]
  rfl

/-- Settles O41: from reset each category absorbs its arrivals into an empty buffer. -/
theorem batchesAreTheMaximalRuns : Obligations.BatchesAreTheMaximalRuns := by
  intro ps
  obtain ⟨s', hrun⟩ := runStream_completes (s := .boot { emitMode := .aggregated }) rfl ps
  refine ⟨s', hrun, fun b => ?_⟩
  rw [allBatches_eq_batchesOf, view_runStream b hrun, view_boot]
  exact batchesOf_foldl_absorb_empty rfl rfl _

end Sys2Proof.Machine
end

section
/-! The Aggregator, one arrival at a time (O29, O30, O31, O32), and what it emits (O34). -/

namespace Sys2Proof.Machine

/-! ## The event branch in Aggregated mode -/

section
variable {s : State}

theorem arriveEvent_full_aggregated (hm : s.cfg.emitMode = .aggregated) (t : EventType) (w : EventWire)
    (chunks : List ChunkWire) (rest : List Byte) :
    arriveEvent t (.full w chunks rest) s = aggArrive s (cat t) (eventReportOf t w chunks)
      (decide (w.detectionsInPacket.toNat > chunks.length)) (48 + (28 * chunks.length + rest.length)) := by
  simp only [arriveEvent, hm, countMismatch_eventReportOf, length_event_full]
  rfl

end

/-- Settles O29: the row of R317 for an empty buffer. -/
theorem firstReportSeedsItsBuffer : Obligations.FirstReportSeedsItsBuffer := by
  intro t h w chunks rest s hm hb
  rw [exec_eventInstr, arriveEvent_full_aggregated hm, aggArrive_empty hb]
  rfl

/-- Settles O30: the row of R317 for the held timestamp, where the capacity is not reached. -/
theorem equalTimestampAppends : Obligations.EqualTimestampAppends := by
  intro t h w chunks rest s list hm hb hcap
  have room : limitReached s.cfg.batchCap list.length = false :=
    Bool.eq_false_iff.mpr fun hr => hcap ((limitReached_iff _ _).mp hr)
  rw [exec_eventInstr, arriveEvent_full_aggregated hm, aggArrive_append hb rfl room]
  rfl

/-- Settles O31: the row of R317 for another timestamp. -/
theorem differentTimestampFlushes : Obligations.DifferentTimestampFlushes := by
  intro t h w chunks rest s ts list hm hb ht
  rw [exec_eventInstr, arriveEvent_full_aggregated hm, aggArrive_flush hb ht]
  rfl

/-- Settles O32: the row of R317 for the held timestamp, where the capacity is reached. -/
theorem fullBufferOverflows : Obligations.FullBufferOverflows := by
  intro t h w chunks rest s list hm hb hcap
  rw [exec_eventInstr, arriveEvent_full_aggregated hm, aggArrive_overflow hb rfl ((limitReached_iff _ _).mpr hcap)]
  rfl

/-! ## What an arrival emits -/

/-- An arrival is answered once: with the held batch when its timestamp is another one, and with no emission otherwise (R317,
R320). -/
theorem aggArrive_emission (s : State) (b : Category) (e : EventReport) (mm : Bool) (len : Nat) :
    ∃ tr, (aggArrive s b e mm len).egress = s.egress ++ [tr] ∧
      ((tr.out = [] ∧ ∀ ts list, s.buf b = .holding ts list → e.timestamp = ts) ∨
        ∃ ts list, s.buf b = .holding ts list ∧ e.timestamp ≠ ts ∧ tr.out = [.flushBatch b ts list]) := by
  obtain ⟨hb, ha⟩ | ⟨list, hb, -, ha⟩ | ⟨list, hb, -, ha⟩ | ⟨ts, list, hb, ht, ha⟩ := aggArrive_cases s b e mm len
  · rw [ha, answer_egress, setBuf_egress, hb]
    exact ⟨_, rfl, .inl ⟨rfl, nofun⟩⟩
  · rw [ha, answer_egress, setBuf_egress, hb]
    exact ⟨_, rfl, .inl ⟨rfl, by rintro _ _ ⟨⟩; rfl⟩⟩
  · rw [ha, raiseFault_egress, hb]
    exact ⟨_, rfl, .inl ⟨rfl, by rintro _ _ ⟨⟩; rfl⟩⟩
  · rw [ha, answer_egress, setBuf_egress]
    exact ⟨_, rfl, .inr ⟨ts, list, hb, ht, rfl⟩⟩

/-- Settles O34: an arrival leaves the part of the other category, and can flush only its own batch. -/
theorem buffersNeverInteract : Obligations.BuffersNeverInteract := by
  intro s b b' e mm len hne
  refine ⟨congrArg Prod.fst (view_aggArrive_of_ne s b' e mm len hne), ?_⟩
  obtain ⟨tr, htr, ⟨hout, -⟩ | ⟨ts, list, -, -, hout⟩⟩ := aggArrive_emission s b e mm len
  · exact ⟨tr, htr, by simp [hout]⟩
  · exact ⟨tr, htr, by simp [hout, hne]⟩

end Sys2Proof.Machine
end

section
/-! What a step does to the buffers (O35, O36). -/

namespace Sys2Proof.Machine

section
variable {s s' : State} {P : Packet} {rest : List Input}

/-- Without a report, or in Immediate mode, a packet leaves both categories as they are (R307). -/
theorem view_step_packet_of_not_aggregated (hp : s.pktIn = .packet P :: rest) (hstep : step s = .next s')
    (h : packetReport P = none ∨ s.cfg.emitMode = .immediate) (b : Category) : s'.view b = s.view b := by
  rw [view_step_packet b hp hstep]
  obtain hnone | hm := h
  · rw [arrivals_singleton_of_none hnone, List.foldl_nil]
  · exact foldl_absorb_of_immediate _ hm _ _

end

/-- Settles O35: each buffer is part of what its category sees. -/
theorem othersNeverReachTheAggregator : Obligations.OthersNeverReachTheAggregator := by
  intro s s' P rest hp hstep h
  have hview := view_step_packet_of_not_aggregated hp hstep h
  exact ⟨congrArg Prod.fst (hview .near), congrArg Prod.fst (hview .far)⟩

/-- A packet has no report of a category, or one (R222, R301). -/
theorem arrivals_singleton_cases (b : Category) (P : Packet) :
    arrivals b [P] = [] ∨ ∃ e, packetReport P = some e ∧ cat e.eventType = b ∧ arrivals b [P] = [e] := by
  cases hrep : packetReport P with
  | none => exact .inl (arrivals_singleton_of_none hrep)
  | some e =>
    by_cases hb : b = cat e.eventType
    · subst hb
      exact .inr ⟨e, rfl, rfl, arrivals_singleton_self hrep⟩
    · exact .inl (arrivals_singleton_of_ne hrep hb)

/-- Under any `CFG` an arrival only adds to a held batch, unless it has another timestamp and flushes it (R304, R310). -/
theorem absorb_holding_cases {cfg : Cfg} {v : Buf × List (U32 × List EventReport)} {ts : U32} {list : List EventReport}
    (hv : v.1 = .holding ts list) (e : EventReport) :
    (∃ more, absorb cfg v e = (.holding ts (list ++ more), v.2)) ∨
    (e.timestamp ≠ ts ∧ absorb cfg v e = (.holding e.timestamp [e], v.2 ++ [(ts, list)])) := by
  have unchanged : v = (.holding ts (list ++ []), v.2) := Prod.ext (by rw [hv, List.append_nil]) rfl
  cases hm : cfg.emitMode with
  | immediate => exact .inl ⟨[], (absorb_of_immediate hm).trans unchanged⟩
  | aggregated =>
    by_cases ht : e.timestamp = ts
    · subst ht
      cases hr : limitReached cfg.batchCap list.length with
      | true => exact .inl ⟨[], (absorb_of_full hm hv hr).trans unchanged⟩
      | false => exact .inl ⟨[e], absorb_of_room hm hv hr⟩
    · exact .inr ⟨ht, absorb_of_other hm hv ht⟩

theorem step_reset {s : State} {rest : List Input} (hp : s.pktIn = .reset :: rest) :
    step s = .next (resetBlock (s.withPending rest)) := by
  simp only [step, ingress, hp]

theorem step_idle {s : State} (hp : s.pktIn = []) : step s = .next s := by
  simp only [step, ingress, hp]

/-- A step on a packet keeps a held batch held, or flushes it for a report of the category with another timestamp (R310). -/
theorem step_packet_held {s s' : State} {P : Packet} {rest : List Input} {b : Category} {ts : U32}
    {list : List EventReport} (hb : s.buf b = .holding ts list) (hp : s.pktIn = .packet P :: rest)
    (hstep : step s = .next s') :
    (∃ more, s'.view b = (.holding ts (list ++ more), batches b s.egress)) ∨
    (∃ e, packetReport P = some e ∧ cat e.eventType = b ∧ e.timestamp ≠ ts ∧
      s'.view b = (.holding e.timestamp [e], batches b s.egress ++ [(ts, list)])) := by
  rw [view_step_packet b hp hstep]
  obtain hnone | ⟨e, hrep, hcat, hone⟩ := arrivals_singleton_cases b P
  · rw [hnone]
    exact .inl ⟨[], by rw [List.foldl_nil, List.append_nil, ← hb]; rfl⟩
  · rw [hone, List.foldl_cons, List.foldl_nil]
    obtain ⟨more, hkept⟩ | ⟨ht, hflushed⟩ := absorb_holding_cases (cfg := s.cfg) (v := s.view b) hb e
    · exact .inl ⟨more, hkept⟩
    · exact .inr ⟨e, hrep, hcat, ht, hflushed⟩

/-- Settles O36: an idle step keeps everything, a packet step is `step_packet_held`, and a reset adds no answer. -/
theorem heldBatchWaitsForAnotherTimestamp : Obligations.HeldBatchWaitsForAnotherTimestamp := by
  refine ⟨fun s s' b ts list hb hstep hreset => ?_, fun s s' hreset hstep => ?_⟩
  · cases hp : s.pktIn with
    | nil =>
      rw [step_idle hp] at hstep
      obtain rfl := Host.Outcome.next.inj hstep
      exact .inl ⟨[], by rw [hb, List.append_nil], rfl⟩
    | cons input rest =>
      cases input with
      | reset => exact absurd (by rw [hp, List.head?_cons]) hreset
      | packet P =>
        obtain ⟨more, hview⟩ | ⟨e, hrep, hcat, ht, hview⟩ := step_packet_held hb hp hstep
        · exact .inl ⟨more, congrArg Prod.fst hview, congrArg Prod.snd hview⟩
        · exact .inr ⟨P, e, List.head?_cons, hrep, hcat, ht, congrArg Prod.fst hview, congrArg Prod.snd hview⟩
  · obtain ⟨rest, hp⟩ := List.head?_eq_some_iff.mp hreset
    rw [step_reset hp] at hstep
    obtain rfl := Host.Outcome.next.inj hstep
    rfl

end Sys2Proof.Machine
end

section
/-! The egress ports (O37): what a packet step emits, from the packet, the mode and the buffer. -/

namespace Sys2Proof.Machine

/-! ## The ports of an answer -/

theorem portsDriven_of_no_emission {tr : Transaction} (h : tr.out = []) : portsDriven tr = [.resultOut] := by
  rw [portsDriven, h]
  rfl

theorem portsDriven_of_emission {tr : Transaction} {em : Emission} (h : tr.out = [em]) :
    portsDriven tr = [emissionPort em, .resultOut] := by
  rw [portsDriven, h]
  rfl

/-! ## What a packet emits -/

section
variable {s s' : State} {P : Packet} {rest : List Input} {e : EventReport}

theorem packetReport_of_ok {i : Instr} (hd : decode P = .ok i) : packetReport P = reportOf i := by
  rw [packetReport, hd]

/-- A STATUS packet that decodes is no event packet (R150, R307). -/
theorem packetReport_of_status {h : HeaderRest} {p : StatusPayload} (hd : decode P = .ok (.status h p)) :
    packetReport P = none :=
  packetReport_of_ok hd

/-- Immediate emission answers once: with the report when its declared count is not 0 (R241). -/
theorem publishOrSuppress_emission (s : State) (e : EventReport) (mm : Bool) (len : Nat) :
    ∃ tr, (publishOrSuppress s e mm len).egress = s.egress ++ [tr] ∧
      ((e.detectionsInPacket ≠ 0 ∧ tr.out = [.publishEvent e]) ∨ (e.detectionsInPacket = 0 ∧ tr.out = [])) := by
  obtain ⟨hpos, hs⟩ | ⟨hzero, hs⟩ := publishOrSuppress_cases s e mm len
  · have declared : e.detectionsInPacket ≠ 0 := fun h0 => by
      rw [h0] at hpos
      exact Nat.lt_irrefl 0 hpos
    rw [hs]
    exact ⟨_, rfl, .inl ⟨declared, rfl⟩⟩
  · rw [hs]
    exact ⟨_, rfl, .inr ⟨BitVec.eq_of_toNat_eq hzero, rfl⟩⟩

/-- A packet with a report is emitted at once in Immediate mode, and goes to its category's buffer in Aggregated mode
(R146). -/
theorem step_packet_emission_of_report (hp : s.pktIn = .packet P :: rest) (hstep : step s = .next s')
    (hrep : packetReport P = some e) :
    ∃ tr, s'.egress = s.egress ++ [tr] ∧
      ((s.cfg.emitMode = .immediate ∧
        ((e.detectionsInPacket ≠ 0 ∧ tr.out = [.publishEvent e]) ∨ (e.detectionsInPacket = 0 ∧ tr.out = []))) ∨
      (s.cfg.emitMode = .aggregated ∧
        ((tr.out = [] ∧ ∀ ts list, s.buf (cat e.eventType) = .holding ts list → e.timestamp = ts) ∨
          ∃ ts list, s.buf (cat e.eventType) = .holding ts list ∧ e.timestamp ≠ ts ∧
            tr.out = [.flushBatch (cat e.eventType) ts list]))) := by
  obtain ⟨hnone, -⟩ | ⟨hnone, -⟩ | ⟨e', hrep', hm, rfl⟩ | ⟨e', hrep', hm, rfl⟩ := step_packet_cases hp hstep
  · rw [hrep] at hnone
    cases hnone
  · rw [hrep] at hnone
    cases hnone
  · obtain rfl := Option.some.inj (hrep.symm.trans hrep')
    obtain ⟨tr, htr, hout⟩ := publishOrSuppress_emission (s.withPending rest) e (countMismatch e) P.length
    exact ⟨tr, htr, .inl ⟨hm, hout⟩⟩
  · obtain rfl := Option.some.inj (hrep.symm.trans hrep')
    obtain ⟨tr, htr, hout⟩ :=
      aggArrive_emission (s.withPending rest) (cat e.eventType) e (countMismatch e) P.length
    rw [withPending_buf] at hout
    exact ⟨tr, htr, .inr ⟨hm, hout⟩⟩

/-- A packet with no report publishes its Status Report if it is a STATUS packet with a full payload, and emits nothing
otherwise (R150, R156, R307). -/
theorem step_packet_emission_of_no_report (hp : s.pktIn = .packet P :: rest) (hstep : step s = .next s')
    (hnone : packetReport P = none) :
    ∃ tr, s'.egress = s.egress ++ [tr] ∧
      ((∃ h w ign, decode P = .ok (.status h (.full w ign)) ∧ tr.out = [.publishStatus (statusReportOf w)]) ∨
      ((¬ ∃ h w ign, decode P = .ok (.status h (.full w ign))) ∧ tr.out = [])) := by
  have hm := limitAdmits_of_step_next hp hstep
  cases hd : decode P with
  | error err =>
    rw [step_packet_error hp hm hd] at hstep
    cases err with
    | shortHeader =>
      obtain rfl := Host.Outcome.next.inj hstep
      exact ⟨_, rfl, .inr ⟨by simp, rfl⟩⟩
    | unknownMagic =>
      obtain rfl := Host.Outcome.next.inj hstep
      exact ⟨_, rfl, .inr ⟨by simp, rfl⟩⟩
    | readPastEnd addr => cases hstep
  | ok i =>
    rw [step_packet_ok hp hm hd] at hstep
    obtain ⟨h, p, rfl⟩ | ⟨t, h, p, rfl⟩ := instr_cases i
    · cases p with
      | full w ign =>
        obtain rfl := Host.Outcome.next.inj hstep
        exact ⟨_, rfl, .inl ⟨h, w, ign, rfl, rfl⟩⟩
      | short bytes =>
        obtain rfl := Host.Outcome.next.inj hstep
        exact ⟨_, rfl, .inr ⟨by simp, rfl⟩⟩
    · rw [packetReport_of_ok hd, reportOf_eventInstr] at hnone
      cases p with
      | full w chunks ign => cases hnone
      | short bytes =>
        rw [exec_eventInstr] at hstep
        obtain rfl := Host.Outcome.next.inj hstep
        exact ⟨_, rfl, .inr ⟨by cases t <;> simp [eventInstr], rfl⟩⟩

end

/-- Settles O37: the one transaction of the step, without a report, and with one in either mode. -/
theorem portsAreDrivenAsTabled : Obligations.PortsAreDrivenAsTabled := by
  intro s s' P rest hp hstep
  cases hrep : packetReport P with
  | none =>
    obtain ⟨tr, htr, ⟨h, w, ign, hd, hout⟩ | ⟨hno, hout⟩⟩ := step_packet_emission_of_no_report hp hstep hrep
    · exact ⟨tr, htr, by simp [portsDriven_of_emission hout, emissionPort, hd]⟩
    · exact ⟨tr, htr, by simp [portsDriven_of_no_emission hout, not_exists.mp hno]⟩
  | some e =>
    have hno : ¬ ∃ h w ign, decode P = .ok (.status h (.full w ign)) := by
      rintro ⟨h, w, ign, hd⟩
      rw [packetReport_of_status hd] at hrep
      cases hrep
    obtain ⟨tr, htr, ⟨hm, ⟨hcount, hout⟩ | ⟨hcount, hout⟩⟩ | ⟨hm, ⟨hout, hsame⟩ | ⟨ts, list, hb, ht, hout⟩⟩⟩ :=
      step_packet_emission_of_report hp hstep hrep
    · exact ⟨tr, htr, by simpa [portsDriven_of_emission hout, emissionPort, hm, not_exists.mp hno] using hcount⟩
    · exact ⟨tr, htr, by simp [portsDriven_of_no_emission hout, hm, hcount, not_exists.mp hno]⟩
    · exact ⟨tr, htr, by simpa [portsDriven_of_no_emission hout, hm, not_exists.mp hno] using hsame⟩
    · exact ⟨tr, htr, by simp [portsDriven_of_emission hout, emissionPort, hm, hb, ht, not_exists.mp hno]⟩

end Sys2Proof.Machine
end

section
/-! Runs that see one category only (O43): all that they emit is that category's batches. -/

namespace Sys2Proof.Machine

/-- The emission that a flushed batch is (R305). -/
def flushOf (b : Category) (batch : U32 × List EventReport) : Emission :=
  .flushBatch b batch.1 batch.2

/-- Nothing but batches of category `b` has been emitted. -/
def State.OnlyFlushes (b : Category) (s : State) : Prop :=
  emissions s.egress = (batches b s.egress).map (flushOf b)

theorem emissions_append (log log' : List Transaction) : emissions (log ++ log') = emissions log ++ emissions log' :=
  List.flatMap_append

section
variable {s s' : State} {b : Category} {P : Packet} {rest : List Input} {e : EventReport}

/-- A packet with a report of the category emits nothing else in Aggregated mode (R314, R320). -/
theorem State.OnlyFlushes.step_packet (h : s.OnlyFlushes b) (hp : s.pktIn = .packet P :: rest)
    (hm : s.cfg.emitMode = .aggregated) (hrep : packetReport P = some e) (hb : cat e.eventType = b)
    (hstep : step s = .next s') : s'.OnlyFlushes b := by
  obtain ⟨tr, htr, ⟨himm, -⟩ | ⟨-, hout⟩⟩ := step_packet_emission_of_report hp hstep hrep
  · rw [hm] at himm
    cases himm
  · have own : emissions [tr] = (batches b [tr]).map (flushOf b) := by
      obtain ⟨hnone, -⟩ | ⟨ts, list, -, -, hflush⟩ := hout
      · simp [emissions, batches, hnone]
      · simp [emissions, batches, hflush, hb, flushOf]
    rw [State.OnlyFlushes, htr, emissions_append, batches_append, List.map_append, own, ← h]

theorem State.OnlyFlushes.runStream {ps : List Packet} (h : s.OnlyFlushes b) (hm : s.cfg.emitMode = .aggregated)
    (hps : ∀ P ∈ ps, ∃ e, packetReport P = some e ∧ cat e.eventType = b) (hrun : Machine.runStream s ps = .next s') :
    s'.OnlyFlushes b := by
  induction ps generalizing s with
  | nil =>
    obtain rfl := Host.Outcome.next.inj hrun
    exact h
  | cons P ps ih =>
    obtain ⟨s₁, hstep, hrun₁⟩ := runStream_cons_next hrun
    obtain ⟨e, hrep, hb⟩ := hps P List.mem_cons_self
    have hcfg : s₁.cfg = s.cfg := (step_packet_cfg_pktIn rfl hstep).1
    have h₀ : (s.withStream (P :: ps)).OnlyFlushes b := h
    exact ih (h₀.step_packet rfl hm hrep hb hstep) (by rw [hcfg, hm])
      (fun Q hQ => hps Q (List.mem_cons_of_mem _ hQ)) hrun₁

end

theorem arrivals_cons_self {b : Category} {P : Packet} {e : EventReport} (hrep : packetReport P = some e)
    (hb : cat e.eventType = b) (ps : List Packet) : arrivals b (P :: ps) = e :: arrivals b ps := by
  subst hb
  rw [arrivals_cons, arrivals_singleton_self hrep, List.singleton_append]

/-- From reset in Aggregated mode, a stream with reports of one category only runs to its end, and the fold of its reports
gives the buffer and every emission. -/
theorem runStream_boot_one_category {b : Category} {ps : List Packet}
    (hps : ∀ P ∈ ps, ∃ e, packetReport P = some e ∧ cat e.eventType = b) :
    ∃ s', runStream (State.boot { emitMode := .aggregated }) ps = .next s' ∧
      s'.view b = (arrivals b ps).foldl (absorb { emitMode := .aggregated }) (.empty, []) ∧
      emissions s'.egress = (s'.view b).2.map (flushOf b) := by
  obtain ⟨s', hrun⟩ := runStream_completes (s := .boot { emitMode := .aggregated }) rfl ps
  have hboot : (State.boot { emitMode := .aggregated }).OnlyFlushes b := rfl
  refine ⟨s', hrun, ?_, hboot.runStream rfl hps hrun⟩
  rw [view_runStream b hrun, view_boot]
  rfl

/-- Settles O43: the folds over three and over four reports, of which the fourth flushes the first three. -/
theorem fiveFiveFiveSevenFlushesOnce : Obligations.FiveFiveFiveSevenFlushesOnce := by
  intro b P1 P2 P3 P4 e1 e2 e3 e4 r1 r2 r3 r4 b1 b2 b3 b4 t1 t2 t3 t4
  obtain ⟨s3, hrun3, hview3, hem3⟩ := runStream_boot_one_category (b := b) (ps := [P1, P2, P3])
    (by simp [r1, r2, r3, b1, b2, b3])
  obtain ⟨s4, hrun4, hview4, hem4⟩ := runStream_boot_one_category (b := b) (ps := [P1, P2, P3, P4])
    (by simp [r1, r2, r3, r4, b1, b2, b3, b4])
  have three : s3.view b = (.holding 5 [e1, e2, e3], []) := by
    rw [hview3, arrivals_cons_self r1 b1, arrivals_cons_self r2 b2, arrivals_cons_self r3 b3]
    simp [arrivals, absorb, limitReached, t1, t2, t3]
  have four : s4.view b = (.holding 7 [e4], [(5, [e1, e2, e3])]) := by
    rw [hview4, arrivals_cons_self r1 b1, arrivals_cons_self r2 b2, arrivals_cons_self r3 b3, arrivals_cons_self r4 b4]
    simp [arrivals, absorb, limitReached, t1, t2, t3, t4]
  rw [three] at hem3
  rw [four] at hem4
  exact ⟨s3, s4, hrun3, hem3, hrun4, hem4, congrArg Prod.fst four⟩

end Sys2Proof.Machine
end

section
/-! A fault has no other effect (O17): whatever a packet is, its answer is `Ok` or it drops the packet. -/

namespace Sys2Proof.Machine

section
variable {s s₁ s' : State}

/-- From `s` to `s'` one packet is answered, with `Ok`, or with a fault that leaves both buffers and emits nothing (R345,
R349). -/
def OkOrDropped (s s' : State) : Prop :=
  ∃ tr, s'.egress = s.egress ++ [tr] ∧
    (tr.res.code = .ok ∨ (s'.near = s.near ∧ s'.far = s.far ∧ tr.out = [] ∧ tr.res.action = .dropped))

/-- An `Ok` answer may come after any buffer write, as long as nothing was answered before it. -/
theorem OkOrDropped.answer (he : s₁.egress = s.egress) (out : List Emission) {res : Res} (hres : res.code = .ok) :
    OkOrDropped s (s₁.answer out res) :=
  ⟨⟨out, res⟩, by rw [answer_egress, he], .inl hres⟩

/-- `raise` is the one way a fault is taken, and it writes no buffer (R345). -/
theorem OkOrDropped.raiseFault (s : State) (code : ResCode) (sub : ResSub) (type : Option HeaderType) (mm : Bool)
    (len : Nat) : OkOrDropped s (Machine.raiseFault s code sub type mm len) :=
  ⟨_, raiseFault_egress .., .inr ⟨rfl, rfl, rfl, rfl⟩⟩

theorem OkOrDropped.publishOrSuppress (s : State) (e : EventReport) (mm : Bool) (len : Nat) :
    OkOrDropped s (Machine.publishOrSuppress s e mm len) := by
  obtain ⟨-, hs⟩ | ⟨-, hs⟩ := publishOrSuppress_cases s e mm len
  · exact hs ▸ .answer rfl _ rfl
  · exact hs ▸ .answer rfl _ rfl

/-- Row by row of R317: only the full buffer raises, and it is left as it was (R309). -/
theorem OkOrDropped.aggArrive (s : State) (b : Category) (e : EventReport) (mm : Bool) (len : Nat) :
    OkOrDropped s (Machine.aggArrive s b e mm len) := by
  obtain ⟨-, ha⟩ | ⟨list, -, -, ha⟩ | ⟨list, -, -, ha⟩ | ⟨ts, list, -, -, ha⟩ := aggArrive_cases s b e mm len
  · exact ha ▸ .answer (setBuf_egress ..) _ rfl
  · exact ha ▸ .answer (setBuf_egress ..) _ rfl
  · exact ha ▸ .raiseFault ..
  · exact ha ▸ .answer (setBuf_egress ..) _ rfl

/-- Taking the packet off the pending ones changes nothing that `OkOrDropped` speaks of. -/
theorem OkOrDropped.of_withPending {rest : List Input} (h : OkOrDropped (s.withPending rest) s') : OkOrDropped s s' := h

theorem step_packet_okOrDropped {P : Packet} {rest : List Input} (hp : s.pktIn = .packet P :: rest)
    (hstep : step s = .next s') : OkOrDropped s s' := by
  apply OkOrDropped.of_withPending (rest := rest)
  obtain ⟨-, code, sub, type, rfl⟩ | ⟨-, rfl⟩ | ⟨e, -, -, rfl⟩ | ⟨e, -, -, rfl⟩ := step_packet_cases hp hstep
  · exact .raiseFault ..
  · exact .answer rfl _ rfl
  · exact .publishOrSuppress ..
  · exact .aggArrive ..

end

/-- Settles O17: an idle step and a reset add no transaction, and a packet step is `step_packet_okOrDropped`. -/
theorem faultedPacketsHaveNoEffect : Obligations.FaultedPacketsHaveNoEffect := by
  intro s s' tr hstep htr hfault
  cases hp : s.pktIn with
  | nil =>
    rw [step_idle hp] at hstep
    obtain rfl := Host.Outcome.next.inj hstep
    simp at htr
  | cons input rest =>
    cases input with
    | reset =>
      rw [step_reset hp] at hstep
      obtain rfl := Host.Outcome.next.inj hstep
      simp at htr
    | packet P =>
      obtain ⟨tr', htr', hanswer⟩ := step_packet_okOrDropped hp hstep
      obtain rfl : tr' = tr := List.singleton_inj.mp (List.append_cancel_left (htr'.symm.trans htr))
      exact hanswer.resolve_left hfault

end Sys2Proof.Machine
end

section
/-! Reset (O44), and what every step leaves as it was (O14). -/

namespace Sys2Proof.Machine

/-- Settles O44: the reset is taken off the pending inputs, and `resetBlock` writes the two buffers and nothing else. -/
theorem resetDiscardsAndEmitsNothing : Obligations.ResetDiscardsAndEmitsNothing :=
  fun _ _ hp => step_reset hp

/-- Settles O14: an idle step and a reset add no transaction, and a packet step appends its one. -/
theorem everyStepKeepsCfgAndPastEmissions : Obligations.EveryStepKeepsCfgAndPastEmissions := by
  intro s s' hstep
  cases hp : s.pktIn with
  | nil =>
    rw [step_idle hp] at hstep
    obtain rfl := Host.Outcome.next.inj hstep
    exact ⟨rfl, hp, List.prefix_rfl⟩
  | cons input rest =>
    cases input with
    | reset =>
      rw [step_reset hp] at hstep
      obtain rfl := Host.Outcome.next.inj hstep
      exact ⟨rfl, rfl, List.prefix_rfl⟩
    | packet P =>
      obtain ⟨hcfg, hpending⟩ := step_packet_cfg_pktIn hp hstep
      obtain ⟨tr, hegress, -, -⟩ := answeredOnce_step_packet hp hstep
      exact ⟨hcfg, hpending, [tr], hegress.symm⟩

end Sys2Proof.Machine
end
